-- ==== Sys2Proof/Word.lean ====
section
/-! DEFINITION. The words of the block: bytes, 32-bit stream words, and binary32 values held as their bit patterns. -/

namespace Sys2Proof

/-- A byte of a carried word (spec 20_memory.md R65). -/
abbrev Byte := BitVec 8

/-- A word of the command or output stream (spec 30_encoding.md R80, R90). -/
abbrev Word := BitVec 32

/-- An IEEE 754 binary32 value, held as its bit pattern: bit 31 sign, bits 30:23 exponent, bits 22:0
fraction (spec 00_scope.md R6, 20_memory.md R66). Two patterns are the same value of the model only if
they are the same word, so `-0.0` and `+0.0` differ as data although they compare equal. -/
abbrev F32 := BitVec 32

/-- `+0.0`. -/
abbrev F32.zero : F32 := 0x00000000#32

/-- `0.5`, the spec's `HALF` (00_scope.md R4) and its default times (10_state.md R33). -/
abbrev F32.half : F32 := 0x3F000000#32

/-- `1.0`. -/
abbrev F32.one : F32 := 0x3F800000#32

/-- `2.0`, twice the unit that the inputs and the modulator add to (70_reset_and_hazards.md R299). -/
abbrev F32.two : F32 := 0x40000000#32

/-- `-1.0`, the lower end of a table sample (00_scope.md R9). -/
abbrev F32.negOne : F32 := 0xBF800000#32

/-- `128.0`, the decided `VELOCITY_MAX` (00_scope.md R5, 92_eei_decisions.md D21). -/
abbrev F32.oneTwentyEight : F32 := 0x43000000#32

end Sys2Proof
end

