-- ==== Sys2Proof/Syntax.lean ====
section
/-! DEFINITION. The commands: one constructor per row of spec/opcode_table.json (30_encoding.md R86). -/

namespace Sys2Proof

/-- A command with the header fields it uses and its operand words, as they are spelled (30_encoding.md R81,
R82): `slot` and the immediates keep every value of their field, because an invalid one is rejected by
the command, not by the decoder (R84, R85). Fields a command does not use are not kept (R88). -/
inductive Instr where
  /-- `PROCESS n ; in[0..n-1]`; `n` is the number of samples (44_router.md R238). -/
  | process (samples : List F32)
  /-- `NOTEON frequency, velocity` with its target mask (44_router.md R248). -/
  | noteon (targets : BitVec 16) (frequency velocity : F32)
  /-- `NOTEOFF` with its target mask (44_router.md R249). -/
  | noteoff (targets : BitVec 16)
  /-- `SETFACTOR slot, factor` (41_oscillator.md R146). -/
  | setfactor (slot : BitVec 8) (factor : F32)
  /-- `SETAMP slot, amp` (41_oscillator.md R147). -/
  | setamp (slot : BitVec 8) (amp : F32)
  /-- `SETMFREQ f` (44_router.md R246). -/
  | setmfreq (f : F32)
  /-- `SETMAMP a` (44_router.md R247). -/
  | setmamp (a : F32)
  /-- `SETENV slot, attack, decay, sustain, release` (42_envelope.md R184). -/
  | setenv (slot : BitVec 8) (attack decay sustain release : F32)
  /-- `SETQ slot, qa, qd, qr` (42_envelope.md R185). -/
  | setq (slot : BitVec 8) (qa qd qr : F32)
  /-- `SETMODE slot, mode` (42_envelope.md R186). -/
  | setmode (slot : BitVec 8) (mode : BitVec 16)
  /-- `SETSIL slot, silent, sustainLoop` (42_envelope.md R187). -/
  | setsil (slot : BitVec 8) (silent sustainLoop : F32)
  /-- `SETALG id` (44_router.md R244). -/
  | setalg (id : BitVec 16)
  /-- `LOADTAB slot ; s0 .. s(count-1)`; `count` is the number of samples (41_oscillator.md R148). -/
  | loadtab (slot : BitVec 8) (samples : List F32)
  /-- `TOGGLE slot, kind` (44_router.md R245). -/
  | toggle (slot : BitVec 8) (kind : BitVec 16)
  deriving DecidableEq, Repr

end Sys2Proof
end

