-- ==== Sys2Proof/WellFormed.lean ====
section
/-! DEFINITION. Which commands the encoding can carry: the number of sample words of `PROCESS` and `LOADTAB`
must fit their 16-bit `imm` field (30_encoding.md R83, R85). Every other field is a bit vector of its
own width, so every value of it can be carried. -/

namespace Sys2Proof

/-- `BLOCK_MAX`, the largest value of the 16-bit `imm` field (00_scope.md R5, 30_encoding.md R85). -/
def blockMax : Nat := 65535

/-- The command has an encoding. -/
def Instr.wellFormed : Instr → Bool
  | .process samples => decide (samples.length ≤ blockMax)
  | .noteon _ _ _ => true
  | .noteoff _ => true
  | .setfactor _ _ => true
  | .setamp _ _ => true
  | .setmfreq _ => true
  | .setmamp _ => true
  | .setenv _ _ _ _ _ => true
  | .setq _ _ _ _ => true
  | .setmode _ _ => true
  | .setsil _ _ _ => true
  | .setalg _ => true
  | .loadtab _ samples => decide (samples.length ≤ blockMax)
  | .toggle _ _ => true

end Sys2Proof
end

