-- ==== Sys2Proof/Decode.lean ====
section
/-! DEFINITION. The decoder, total on every list of words, and after it the encoder (30_encoding.md R80 to R93);
the carriage of words as bytes (20_memory.md R65). -/

namespace Sys2Proof

/-! ### The header word, format H (R81) -/

def headerOp (w : Word) : BitVec 8 := w.extractLsb' 24 8

def headerSlot (w : Word) : BitVec 8 := w.extractLsb' 16 8

def headerImm (w : Word) : BitVec 16 := w.extractLsb' 0 16

/-- The header word with the given fields. -/
def header (op slot : BitVec 8) (imm : BitVec 16) : Word := op ++ slot ++ imm

/-! ### The opcode map (R86) -/

/-- The rows of the opcode map. -/
inductive Op where
  | process | noteon | noteoff | setfactor | setamp | setmfreq | setmamp
  | setenv | setq | setmode | setsil | setalg | loadtab | toggle
  deriving DecidableEq, Repr

/-- The `op` value of a row. -/
def Op.code : Op → BitVec 8
  | .process   => 0x01#8
  | .noteon    => 0x02#8
  | .noteoff   => 0x03#8
  | .setfactor => 0x10#8
  | .setamp    => 0x11#8
  | .setmfreq  => 0x12#8
  | .setmamp   => 0x13#8
  | .setenv    => 0x20#8
  | .setq      => 0x21#8
  | .setmode   => 0x22#8
  | .setsil    => 0x23#8
  | .setalg    => 0x30#8
  | .loadtab   => 0x31#8
  | .toggle    => 0x32#8

/-- The rows, in the order of R86. -/
def Op.table : List Op :=
  [.process, .noteon, .noteoff, .setfactor, .setamp, .setmfreq, .setmamp,
   .setenv, .setq, .setmode, .setsil, .setalg, .loadtab, .toggle]

/-- The row with this `op` value; none where the value is reserved (R87). -/
def opOf (b : BitVec 8) : Option Op := Op.table.find? (fun o => o.code == b)

/-- The number of operand words, a function of `op` and `imm` only (R83). -/
def nops : Op → BitVec 16 → Nat
  | .process,   imm => imm.toNat
  | .noteon,    _   => 2
  | .noteoff,   _   => 0
  | .setfactor, _   => 1
  | .setamp,    _   => 1
  | .setmfreq,  _   => 1
  | .setmamp,   _   => 1
  | .setenv,    _   => 4
  | .setq,      _   => 3
  | .setmode,   _   => 0
  | .setsil,    _   => 2
  | .setalg,    _   => 0
  | .loadtab,   imm => imm.toNat
  | .toggle,    _   => 0

/-- The number of operand words that follow a header word (R83): none after a reserved `op` (R87). -/
def headerNops (h : Word) : Nat :=
  match opOf (headerOp h) with
  | some op => nops op (headerImm h)
  | none => 0

/-- Operand word `i` of a command. The decoder has at least `nops` of them, so the default is never taken. -/
def operand (ops : List Word) (i : Nat) : F32 := ops.getD i 0#32

/-- The command of a row with its header fields and its operand words, in the order of R86. -/
def buildInstr (op : Op) (slot : BitVec 8) (imm : BitVec 16) (ops : List Word) : Instr :=
  match op with
  | .process   => .process ops
  | .noteon    => .noteon imm (operand ops 0) (operand ops 1)
  | .noteoff   => .noteoff imm
  | .setfactor => .setfactor slot (operand ops 0)
  | .setamp    => .setamp slot (operand ops 0)
  | .setmfreq  => .setmfreq (operand ops 0)
  | .setmamp   => .setmamp (operand ops 0)
  | .setenv    => .setenv slot (operand ops 0) (operand ops 1) (operand ops 2) (operand ops 3)
  | .setq      => .setq slot (operand ops 0) (operand ops 1) (operand ops 2)
  | .setmode   => .setmode slot imm
  | .setsil    => .setsil slot (operand ops 0) (operand ops 1)
  | .setalg    => .setalg imm
  | .loadtab   => .loadtab slot ops
  | .toggle    => .toggle slot imm

/-! ### The decoder -/

/-- What the decoder reads from a stream. -/
inductive Decoded where
  /-- A command, and the words after it. -/
  | command (i : Instr) (rest : List Word)
  /-- A header word with a reserved `op`: no command, one word long (R87). -/
  | reserved (h : Word) (rest : List Word)
  /-- The stream ends before the last operand word of this header's command (10_state.md R30). -/
  | truncated (h : Word)
  /-- No word is left. -/
  | ended
  deriving DecidableEq, Repr

/-- Reads one command from a list of words. -/
def decode : List Word → Decoded
  | [] => .ended
  | h :: rest =>
    match opOf (headerOp h) with
    | none => .reserved h rest
    | some op =>
      if rest.length < nops op (headerImm h) then .truncated h
      else
        .command (buildInstr op (headerSlot h) (headerImm h) (rest.take (nops op (headerImm h))))
          (rest.drop (nops op (headerImm h)))

/-- The decoder on an instruction's bits, numbered from bit 0 of the first word, 32 bits to a word; every bit
from `nbits` on is 0. -/
def tableWords (nbits w : Nat) : List Word :=
  let bits := w % 2 ^ nbits
  let h : Word := BitVec.ofNat 32 bits
  h :: (List.range (headerNops h)).map (fun j => BitVec.ofNat 32 (bits / 2 ^ (32 * (j + 1))))

/-- The instruction that `decode` reads from those bits. -/
def decodeTableWord (nbits w : Nat) : Option Instr :=
  match decode (tableWords nbits w) with
  | .command i _ => some i
  | .reserved _ _ => none
  | .truncated _ => none
  | .ended => none

/-! ### The encoder -/

/-- The words of a command; unused header fields are zero (R86, R91). -/
def encode : Instr → List Word
  | .process samples => header 0x01#8 0#8 (BitVec.ofNat 16 samples.length) :: samples
  | .noteon targets frequency velocity => [header 0x02#8 0#8 targets, frequency, velocity]
  | .noteoff targets => [header 0x03#8 0#8 targets]
  | .setfactor slot factor => [header 0x10#8 slot 0#16, factor]
  | .setamp slot amp => [header 0x11#8 slot 0#16, amp]
  | .setmfreq f => [header 0x12#8 0#8 0#16, f]
  | .setmamp a => [header 0x13#8 0#8 0#16, a]
  | .setenv slot attack decay sustain release =>
    [header 0x20#8 slot 0#16, attack, decay, sustain, release]
  | .setq slot qa qd qr => [header 0x21#8 slot 0#16, qa, qd, qr]
  | .setmode slot mode => [header 0x22#8 slot mode]
  | .setsil slot silent sustainLoop => [header 0x23#8 slot 0#16, silent, sustainLoop]
  | .setalg id => [header 0x30#8 0#8 id]
  | .loadtab slot samples => header 0x31#8 slot (BitVec.ofNat 16 samples.length) :: samples
  | .toggle slot kind => [header 0x32#8 slot kind]

/-- The length of a command in words, `1 + nops` (R83). -/
def Instr.length : Instr → Nat
  | .process samples => 1 + samples.length
  | .noteon _ _ _ => 3
  | .noteoff _ => 1
  | .setfactor _ _ => 2
  | .setamp _ _ => 2
  | .setmfreq _ => 2
  | .setmamp _ => 2
  | .setenv _ _ _ _ _ => 5
  | .setq _ _ _ _ => 4
  | .setmode _ _ => 1
  | .setsil _ _ _ => 3
  | .setalg _ => 1
  | .loadtab _ samples => 1 + samples.length
  | .toggle _ _ => 1

/-! ### Words as bytes (20_memory.md R65): little-endian, byte 0 holds bits 7:0 -/

def bytesOfWord (w : Word) : List Byte :=
  [w.extractLsb' 0 8, w.extractLsb' 8 8, w.extractLsb' 16 8, w.extractLsb' 24 8]

def wordOfBytes (b0 b1 b2 b3 : Byte) : Word := b3 ++ b2 ++ b1 ++ b0

def bytesOfWords (ws : List Word) : List Byte := ws.flatMap bytesOfWord

/-- The words carried by a list of bytes; none where a word is cut (R66: words are whole). -/
def wordsOfBytes : List Byte → Option (List Word)
  | [] => some []
  | b0 :: b1 :: b2 :: b3 :: rest => (wordsOfBytes rest).map (wordOfBytes b0 b1 b2 b3 :: ·)
  | _ => none

/-- Reads one command from carried bytes; none where the bytes are no whole number of words. -/
def decodeBytes (bs : List Byte) : Option Decoded := (wordsOfBytes bs).map decode

end Sys2Proof
end

