-- ==== Sys2Proof/Config.lean ====
section
/-! DEFINITION. What the spec leaves to the implementation: the configuration record (00_scope.md R4, R5), with
the record of reset values (10_state.md R33), and the free values, which have no body. -/

namespace Sys2Proof

/-- A router slot, numbered 1 to 4 (00_scope.md R4, R15). -/
inductive Slot where
  | s1 | s2 | s3 | s4
  deriving DecidableEq, Repr, Inhabited

/-- One thing per slot. -/
structure Slots (α : Type) where
  s1 : α
  s2 : α
  s3 : α
  s4 : α
  deriving DecidableEq, Repr, Inhabited

/-- `currentAlgorithm`, one of 1, 2, 3, 4 (10_state.md R22). -/
inductive Algorithm where
  | a1 | a2 | a3 | a4
  deriving DecidableEq, Repr, Inhabited

/-- The five oscillator modes, in the order of their numbers 0 to 4 (41_oscillator.md R130). -/
inductive OscMode where
  | modulatorNoInput | modulatorWithInput | carrierNoInput | carrierWithInput | sumWithInput
  deriving DecidableEq, Repr, Inhabited

/-- The envelope stages, in their forward order (42_envelope.md R160). -/
inductive Stage where
  | attack | decay | sustain | release | silent
  deriving DecidableEq, Repr, Inhabited

/-- The envelope operating modes (42_envelope.md R161). -/
inductive EnvMode where
  | loop | trigger
  deriving DecidableEq, Repr, Inhabited

/-- `STAGE_SCALE(stage)`, one value per stage (00_scope.md R5, 92_eei_decisions.md D20). -/
structure StageScale where
  attack  : F32
  decay   : F32
  sustain : F32
  release : F32
  silent  : F32
  deriving DecidableEq, Repr

/-- The reset values that the source does not give and the spec decides, taken from the configuration
record as 10_state.md R33 asks, so that a claim can name the values it holds for. -/
structure ResetValues where
  masterAmplitude  : F32
  currentAlgorithm : Algorithm
  oscActive        : Bool
  envActive        : Bool
  oscPhase         : F32
  frequencyFactor  : F32
  oscAmplitude     : F32
  phaseIndex       : F32
  attackQ          : F32
  decayQ           : F32
  releaseQ         : F32
  stage            : Stage
  mode             : EnvMode
  resultVolume     : F32
  noteOnFlag       : Bool
  silentTime       : F32
  sustainLoopTime  : F32
  vmodPhase        : F32
  deriving DecidableEq, Repr

/-- The configuration record: every parameter of 00_scope.md R5 but `NUM.pow`, which is a function and is
free (`Config.freePow`), and `BLOCK_MAX`, which the 16-bit `imm` field fixes (30_encoding.md R85). -/
structure Config where
  /-- `N`, the wave table size. -/
  N : Nat
  /-- `M`, the curve table size. -/
  M : Nat
  /-- `POOL`, the number of voices. -/
  pool : Nat
  /-- `MASTER_FREQ_RESET`, the `masterFrequency` argument of `construct`. -/
  masterFreqReset : F32
  /-- `ADSR_MAX`. -/
  adsrMax : F32
  /-- `STAGE_SCALE`. -/
  stageScale : StageScale
  /-- `VELOCITY_MAX`. -/
  velocityMax : F32
  /-- `NUM.sinTab(i, N)` for `i` in `0..N-1`, the only size at which it is used (40_table_generator.md R111).
  DEDUCED (log 5), safe. -/
  sinTab : List F32
  /-- `ALG2`. -/
  alg2 : Slots OscMode
  /-- `ALG3`. -/
  alg3 : Slots OscMode
  /-- `VM_MOD_FREQ`. -/
  vmModFreq : F32
  /-- `VM_MOD_AMP`. -/
  vmModAmp : F32
  /-- `VM_CURVE[0..C-1]`. -/
  vmCurve : List F32
  /-- The decided reset values. -/
  resetValues : ResetValues
  deriving DecidableEq, Repr

/-- `VM_CURVE_SIZE`, written `C` (00_scope.md R5): the length of `VM_CURVE`. -/
abbrev Config.C (c : Config) : Nat := c.vmCurve.length

/-- The four rounded operations, which name the free NaN results. -/
inductive ArithOp where
  | add | sub | mul | div
  deriving DecidableEq, Repr

/-- FREE VALUE (log 3), safe: the sign bit of the NaN an operation yields on these operands.
IEEE 754 gives the operation a NaN result and the spec does not say which one (00_scope.md R6). -/
opaque Config.nanSign : ArithOp → F32 → F32 → Bool

/-- FREE VALUE (log 3), safe: the fraction field, less 1, of the NaN an operation yields. Every NaN
fraction (1 to 2^23 - 1) is possible. -/
opaque Config.nanFraction : ArithOp → F32 → F32 → Fin 8388607

/-- FREE VALUE (log 4), safe: what `NUM.pow` returns where none of its four named properties fixes the
value (00_scope.md R10). -/
opaque Config.freePow : F32 → F32 → F32

/-- FREE VALUE (log 2), safe: the mode assignment `ALG2` of the reset configuration (44_router.md R234). -/
opaque Config.freeAlg2 : Slots OscMode

/-- FREE VALUE (log 2), safe: the mode assignment `ALG3` of the reset configuration (44_router.md R235). -/
opaque Config.freeAlg3 : Slots OscMode

end Sys2Proof
end

