-- ==== Sys2Proof/Machine/Regs.lean ====
section
/-! DEFINITION. The register files and the table memories that make up the state (10_state.md R23 to R28,
20_memory.md R60). -/

namespace Sys2Proof.Machine

/-- One Oscillator (10_state.md R24). Its `tableSize` is `cfg.N` and its `tableRef` is `Space.wt` of its
slot, both stored once (log 19). -/
structure Osc where
  phase           : F32
  frequency       : F32
  amplitude       : F32
  frequencyFactor : F32
  deriving DecidableEq, Repr

/-- One Envelope (10_state.md R26). Its `tableSize` is `cfg.M` (log 19). -/
structure Env where
  phaseIndex      : F32
  attackTime      : F32
  decayTime       : F32
  sustainLevel    : F32
  releaseTime     : F32
  attackQ         : F32
  decayQ          : F32
  releaseQ        : F32
  stage           : Stage
  mode            : EnvMode
  resultVolume    : F32
  noteOnFlag      : Bool
  silentTime      : F32
  sustainLoopTime : F32
  deriving DecidableEq, Repr

/-- One router slot: its two active flags, its Oscillator and its Envelope (10_state.md R23, R24, R26). -/
structure SlotRegs where
  oscActive : Bool
  envActive : Bool
  osc       : Osc
  env       : Env
  deriving DecidableEq, Repr

/-- The registers of an occupied voice (10_state.md R28). A voice of the pool is an `Option Voice`: `some`
says `occupied` is true; `none` says it is false, and then the other fields are absent, as R28 allows
(DEDUCED, log 8, safe). -/
structure Voice where
  frequency : F32
  velocity  : F32
  phase     : F32
  envIdx    : Nat
  deriving DecidableEq, Repr

/-- The table memories (20_memory.md R60), each a list of its elements (DEDUCED, log 12, safe). -/
structure Memory where
  /-- `WT[k]`, the wave tables. -/
  wt : Slots (List F32)
  /-- `EA[k]`, the attack curves. -/
  ea : Slots (List F32)
  /-- `ED[k]`, the decay curves. -/
  ed : Slots (List F32)
  /-- `ER[k]`, the release curves. -/
  er : Slots (List F32)
  /-- `SINE`, read-only. -/
  sine : List F32
  /-- `VMCURVE`, read-only. -/
  vmcurve : List F32
  deriving DecidableEq, Repr

end Sys2Proof.Machine
end

