-- ==== Sys2Proof/Machine/Slots.lean ====
section
/-! DEFINITION. Reading and writing one thing per slot: a selection names exactly one slot (30_encoding.md R84). -/

namespace Sys2Proof

/-- A slot's number (30_encoding.md R84). -/
def Slot.number : Slot → Nat
  | .s1 => 1
  | .s2 => 2
  | .s3 => 3
  | .s4 => 4

def Slots.get {α : Type} (x : Slots α) : Slot → α
  | .s1 => x.s1
  | .s2 => x.s2
  | .s3 => x.s3
  | .s4 => x.s4

def Slots.set {α : Type} (x : Slots α) (k : Slot) (v : α) : Slots α :=
  match k with
  | .s1 => { x with s1 := v }
  | .s2 => { x with s2 := v }
  | .s3 => { x with s3 := v }
  | .s4 => { x with s4 := v }

def Slots.map {α β : Type} (f : α → β) (x : Slots α) : Slots β := ⟨f x.s1, f x.s2, f x.s3, f x.s4⟩

/-- The same thing in every slot. -/
def Slots.all {α : Type} (v : α) : Slots α := ⟨v, v, v, v⟩

end Sys2Proof
end

