-- ==== Sys2Proof/Machine/Float.lean ====
section
/-! DEFINITION. binary32 arithmetic (00_scope.md R6 to R12): the four rounded operations, the ordered
comparisons, `floor_idx`, `i2f`, `clamp01`, `NUM.pow`, and the two acceptance tests built from them.

Every finite binary32 value is an integer multiple of 2^-149. An operation turns its operands into such
integers ("units"), computes exactly, and rounds once (no operation is fused, R6). -/

namespace Sys2Proof.Machine

/-! ### Fields -/

/-- The sign bit, bit 31. -/
def signBit (v : F32) : Bool := v.getLsbD 31

/-- Bits 30:0, exponent and fraction together: the magnitude's place in the order of magnitudes. -/
def magBits (v : F32) : Nat := v.toNat % 2147483648

/-- The bits 30:0 of infinity: exponent 255, fraction 0. -/
abbrev infMag : Nat := 2139095040

def isNaN (v : F32) : Bool := decide (infMag < magBits v)

def isInf (v : F32) : Bool := decide (magBits v = infMag)

def isFinite (v : F32) : Bool := decide (magBits v < infMag)

/-- The pattern with the given sign bit and bits 30:0. -/
def ofSignMag (neg : Bool) (m : Nat) : F32 := BitVec.ofNat 32 ((if neg then 2147483648 else 0) + m)

/-- The operand with its sign bit inverted. -/
def fneg (v : F32) : F32 := ofSignMag (!signBit v) (magBits v)

/-! ### Exact values in units of 2^-149 -/

/-- The number of units of the finite magnitude with bits 30:0 equal to `m`. -/
def unitsOfMag (m : Nat) : Nat :=
  if m < 8388608 then m else (8388608 + m % 8388608) * 2 ^ (m / 8388608 - 1)

/-- The exact value of a finite pattern, in units. -/
def units (v : F32) : Int :=
  if signBit v then -(unitsOfMag (magBits v) : Int) else (unitsOfMag (magBits v) : Int)

/-- One unit is 2^-149: `1.0` is this many units. -/
abbrev unitsPerOne : Nat := 2 ^ 149

/-! ### Rounding -/

/-- `num / den` to the nearest integer, ties to the even one (R6, 92_eei_decisions.md D1). -/
def roundHalfEven (num den : Nat) : Nat :=
  let q := num / den
  let r := num % den
  if 2 * r < den then q else if den < 2 * r then q + 1 else q + q % 2

/-- Bits 30:0 of the magnitude `num / den` units, rounded to nearest even: subnormals are kept, and a value
beyond the largest finite one becomes infinity. `k` is the number of low bits that do not fit. -/
def roundUnits (num den : Nat) : Nat :=
  let k := Nat.log2 (num / den) - 23
  min (k * 8388608 + roundHalfEven num (den * 2 ^ k)) infMag

/-- The NaN of an invalid operation or of a NaN operand: some NaN, which one is free (log 3). -/
def nanResult (op : ArithOp) (a b : F32) : F32 :=
  ofSignMag (Config.nanSign op a b) (infMag + 1 + (Config.nanFraction op a b).val)

/-! ### The four operations (R6, R7) -/

/-- The sum of two operands that are no NaN and no two opposite infinities. -/
def addNumbers (a b : F32) : F32 :=
  if isInf a then a
  else if isInf b then b
  else
    let s := units a + units b
    if s = 0 then ofSignMag (signBit a && signBit b) 0
    else ofSignMag (decide (s < 0)) (roundUnits s.natAbs 1)

def fadd (a b : F32) : F32 :=
  if isNaN a || isNaN b || (isInf a && isInf b && (signBit a != signBit b)) then nanResult .add a b
  else addNumbers a b

def fsub (a b : F32) : F32 :=
  if isNaN a || isNaN b || (isInf a && isInf b && (signBit a == signBit b)) then nanResult .sub a b
  else addNumbers a (fneg b)

def fmul (a b : F32) : F32 :=
  let neg := signBit a != signBit b
  if isNaN a || isNaN b || (isInf a && magBits b == 0) || (magBits a == 0 && isInf b) then
    nanResult .mul a b
  else if isInf a || isInf b then ofSignMag neg infMag
  else ofSignMag neg (roundUnits (unitsOfMag (magBits a) * unitsOfMag (magBits b)) unitsPerOne)

def fdiv (a b : F32) : F32 :=
  let neg := signBit a != signBit b
  if isNaN a || isNaN b || (isInf a && isInf b) || (magBits a == 0 && magBits b == 0) then
    nanResult .div a b
  else if isInf a || magBits b == 0 then ofSignMag neg infMag
  else if isInf b then ofSignMag neg 0
  else ofSignMag neg (roundUnits (unitsOfMag (magBits a) * unitsPerOne) (unitsOfMag (magBits b)))

/-! ### Ordered comparisons (R8): false on NaN, `-0` equals `+0` -/

/-- A non-NaN pattern's place in the order of the values. -/
def orderKey (v : F32) : Int := if signBit v then -(magBits v : Int) else (magBits v : Int)

def flt (a b : F32) : Bool := !isNaN a && !isNaN b && decide (orderKey a < orderKey b)

def fle (a b : F32) : Bool := !isNaN a && !isNaN b && decide (orderKey a ≤ orderKey b)

def fgt (a b : F32) : Bool := flt b a

def fge (a b : F32) : Bool := fle b a

/-! ### Acceptance tests (R8) -/

/-- "accepted iff `f>0`": `gt(v, 0.0)`. -/
def positive (v : F32) : Bool := fgt v F32.zero

/-- "`a∈[0,1]`": `ge(a, 0.0) and le(a, 1.0)`. -/
def inUnit (v : F32) : Bool := fge v F32.zero && fle v F32.one

/-- `-1.0 <= v <= 1.0`, the range of P-sin-range (R9) and of the tables of 70_reset_and_hazards.md R296. -/
def signedUnit (v : F32) : Bool := fle F32.negOne v && fle v F32.one

/-! ### Integers and floats (R11) -/

/-- `floor_idx(v)`: the greatest integer not above a finite `v`; no value for NaN and infinities. -/
def floorIdx (v : F32) : Option Int :=
  if isFinite v then some (units v / (unitsPerOne : Int)) else none

/-- `i2f(i)` for the natural numbers up to 2^24, all that the rules use. -/
def i2f (i : Nat) : F32 := ofSignMag false (roundUnits (i * unitsPerOne) 1)

/-! ### `clamp01` and `NUM.pow` (R12, R10) -/

def clamp01 (v : F32) : F32 :=
  if flt v F32.zero then F32.zero else if fgt v F32.one then F32.one else v

/-- `NUM.pow(x, q)`: a free function (log 4) held to the four named properties of R10. For finite `q > 0`:
P-pow-0, P-pow-one and P-pow-1 fix the value; P-pow-range keeps it in `[0, 1]` for `x` in `[0, 1]` (a free
value outside the range stands for none and is replaced by `+0.0`); elsewhere it is free. -/
def numPow (x q : F32) : F32 :=
  if positive q && isFinite q then
    if x = F32.zero then F32.zero
    else if x = F32.one then F32.one
    else if q = F32.one && isFinite x && fge x F32.zero then x
    else if inUnit x then (if inUnit (Config.freePow x q) then Config.freePow x q else F32.zero)
    else Config.freePow x q
  else Config.freePow x q

end Sys2Proof.Machine
end

