-- ==== Sys2Proof/Machine/Tables.lean ====
section
/-! DEFINITION. The Table Generator (40_table_generator.md R110 to R116): the arrays that reset and `SETQ` build. -/

namespace Sys2Proof.Machine

/-- `build(size, shapeFn)`: element `i` is `shapeFn(i)`, every element recomputed (R110). -/
def build (size : Nat) (shapeFn : Nat → F32) : List F32 := (List.range size).map shapeFn

/-- The sine table: `NUM.sinTab(i, N)` for `i` in `0..N-1`, which the configuration record holds (R111). -/
def sineTable (c : Config) : List F32 := c.sinTab

/-- `xOf(i, size)`, one rounded division (R112). -/
def xOf (i size : Nat) : F32 := fdiv (i2f i) (i2f size)

/-- One element of the slope-up curve (R113). -/
def slopeUpAt (size : Nat) (q : F32) (i : Nat) : F32 := clamp01 (numPow (xOf i size) q)

/-- One element of the slope-down curve (R114). -/
def slopeDownAt (size : Nat) (q : F32) (i : Nat) : F32 :=
  clamp01 (fsub F32.one (numPow (xOf i size) q))

def slopeUp (size : Nat) (q : F32) : List F32 := build size (slopeUpAt size q)

def slopeDown (size : Nat) (q : F32) : List F32 := build size (slopeDownAt size q)

end Sys2Proof.Machine
end

