-- ==== Sys2Proof/Machine/ResetValues.lean ====
section
/-! DEFINITION. What reset puts into each register file and table memory (10_state.md R33,
70_reset_and_hazards.md R290), and the configuration of `State.reset`. -/

namespace Sys2Proof

/-- The values the spec decides (10_state.md R33; 92_eei_decisions.md D9 to D12, D28).
DESIGN CHOICE (the spec's own; log 7), unsafe: the source does not give them. -/
def ResetValues.decided : ResetValues where
  masterAmplitude  := F32.one
  currentAlgorithm := .a1
  oscActive        := false
  envActive        := false
  oscPhase         := F32.zero
  frequencyFactor  := F32.one
  oscAmplitude     := F32.one
  phaseIndex       := F32.zero
  attackQ          := F32.one
  decayQ           := F32.one
  releaseQ         := F32.one
  stage            := .silent
  mode             := .trigger
  resultVolume     := F32.zero
  noteOnFlag       := false
  silentTime       := F32.half
  sustainLoopTime  := F32.half
  vmodPhase        := F32.zero

/-- Configuration T of 95_test_vectors.md section 0, the configuration of `State.reset`.
DESIGN CHOICE (log 1), unsafe: the spec leaves these parameters OPEN and gives T for its vectors only.
`ALG2` and `ALG3`, which T does not give, stay free. -/
def Config.configT : Config where
  N               := 4
  M               := 4
  pool            := 2
  masterFreqReset := F32.one
  adsrMax         := F32.one
  stageScale      := ⟨F32.half, F32.half, F32.half, F32.half, F32.half⟩
  velocityMax     := F32.oneTwentyEight
  sinTab          := [F32.zero, F32.one, F32.zero, F32.negOne]
  alg2            := Config.freeAlg2
  alg3            := Config.freeAlg3
  vmModFreq       := F32.one
  vmModAmp        := F32.zero
  vmCurve         := [F32.one, F32.half]
  resetValues     := ResetValues.decided

end Sys2Proof

namespace Sys2Proof.Machine

/-- An Envelope after reset (10_state.md R33): the source's default ADSR, the other values from `r`. -/
def Env.reset (r : ResetValues) : Env where
  phaseIndex      := r.phaseIndex
  attackTime      := F32.half
  decayTime       := F32.half
  sustainLevel    := F32.half
  releaseTime     := F32.half
  attackQ         := r.attackQ
  decayQ          := r.decayQ
  releaseQ        := r.releaseQ
  stage           := r.stage
  mode            := r.mode
  resultVolume    := r.resultVolume
  noteOnFlag      := r.noteOnFlag
  silentTime      := r.silentTime
  sustainLoopTime := r.sustainLoopTime

/-- A slot after reset (10_state.md R33). -/
def SlotRegs.reset (c : Config) : SlotRegs where
  oscActive := c.resetValues.oscActive
  envActive := c.resetValues.envActive
  osc :=
    { phase           := c.resetValues.oscPhase
      frequency       := fmul c.resetValues.frequencyFactor c.masterFreqReset
      amplitude       := c.resetValues.oscAmplitude
      frequencyFactor := c.resetValues.frequencyFactor }
  env := Env.reset c.resetValues

/-- The table memories after reset (10_state.md R33, 40_table_generator.md R116). -/
def Memory.reset (c : Config) : Memory where
  wt      := Slots.all (sineTable c)
  ea      := Slots.all (slopeUp c.M c.resetValues.attackQ)
  ed      := Slots.all (slopeDown c.M c.resetValues.decayQ)
  er      := Slots.all (slopeDown c.M c.resetValues.releaseQ)
  sine    := sineTable c
  vmcurve := c.vmCurve

end Sys2Proof.Machine
end

