-- ==== Sys2Proof/Machine/State.lean ====
section
/-! DEFINITION. The state of the block, the reasons a step can stop, and the state after reset
(10_state.md R20 to R33, 20_memory.md R60, 60_exceptions.md R279). -/

namespace Sys2Proof.Machine

/-- The state of the block (10_state.md R20). -/
structure State where
  /-- The parameters, constant after reset (R21; DESIGN CHOICE to hold them here, log 6, safe). -/
  cfg : Config
  masterFrequency : F32
  masterAmplitude : F32
  currentAlgorithm : Algorithm
  slots : Slots SlotRegs
  /-- `vmod.phase` (R29). -/
  vmodPhase : F32
  /-- `voice[0..POOL-1]` (R28). -/
  voices : List (Option Voice)
  mem : Memory
  /-- The command pointer (R30). -/
  cp : Nat
  /-- The command stream (R30). -/
  cmd : List Word
  /-- The output stream (R30, R90). -/
  out : List Word
  deriving DecidableEq, Repr

/-- The model faults (60_exceptions.md R279): outcomes of the model, not of the hardware, for inputs outside
the preconditions under which the source defines the behaviour. All three are safe: the model stops where
the real circuit would go on in a way nobody has described (log 13). -/
inductive Fault where
  /-- Raised by `Memory.read`, from a table lookup inside `PROCESS`: the index is an integer outside
  `0..size-1` (U1). Safe. -/
  | tableIndexOutOfRange
  /-- Raised by `floorIndex`, from a table lookup inside `PROCESS`: the phase is NaN or infinite (U2). Safe. -/
  | indexUndefined
  /-- Raised by `step`: the stream ends inside a command, which has no effect (U4). Safe. -/
  | truncatedCommand
  deriving DecidableEq, Repr

/-- What the model does not start or has no step for. -/
inductive Refusal where
  /-- Raised by `exec` for an instruction that has no meaning yet; no arm does so. Safe. -/
  | notModelled (mnemonic : String)
  /-- Raised by `construct` for a configuration outside 70_reset_and_hazards.md R291 (U10). Safe. -/
  | invalidConfiguration
  deriving DecidableEq, Repr

/-- The state after reset with a configuration record (70_reset_and_hazards.md R290, 10_state.md R33).
The command stream is empty: a program is delivered from outside (log 10). -/
def State.resetWith (c : Config) : State where
  cfg              := c
  masterFrequency  := c.masterFreqReset
  masterAmplitude  := c.resetValues.masterAmplitude
  currentAlgorithm := c.resetValues.currentAlgorithm
  slots            := Slots.all (SlotRegs.reset c)
  vmodPhase        := c.resetValues.vmodPhase
  voices           := List.replicate c.pool none
  mem              := Memory.reset c
  cp               := 0
  cmd              := []
  out              := []

/-- The state after reset with configuration T of 95_test_vectors.md.
DESIGN CHOICE (log 1), unsafe: the spec leaves the parameters OPEN, so a statement about this one state
holds for T only; the statements about reset are about `State.resetWith c` for every configuration. -/
def State.reset : State := State.resetWith Config.configT

end Sys2Proof.Machine
end

