-- ==== Sys2Proof/Machine/Operands.lean ====
section
/-! DEFINITION. The operand forms (30_encoding.md R82 to R85): what a `slot` or `imm` field selects, and the
acceptance of a setter's argument (00_scope.md R15, 60_exceptions.md R271, R276). -/

namespace Sys2Proof.Machine

/-- The slot whose number equals the field; none for 0 and 5 to 255 (R84). -/
def slotOf (field : BitVec 8) : Option Slot :=
  if field = 1#8 then some .s1
  else if field = 2#8 then some .s2
  else if field = 3#8 then some .s3
  else if field = 4#8 then some .s4
  else none

/-- The algorithm with this identifier; none outside 1 to 4 (R85). -/
def algorithmOf (imm : BitVec 16) : Option Algorithm :=
  if imm = 1#16 then some .a1
  else if imm = 2#16 then some .a2
  else if imm = 3#16 then some .a3
  else if imm = 4#16 then some .a4
  else none

/-- The envelope mode: 0 Trigger, 1 Loop, none otherwise (R85). -/
def envModeOf (imm : BitVec 16) : Option EnvMode :=
  if imm = 0#16 then some .trigger
  else if imm = 1#16 then some .loop
  else none

/-- Which of a slot's two active flags `TOGGLE` names (R85). -/
inductive ToggleKind where
  | osc | env
  deriving DecidableEq, Repr

/-- The toggle kind: 0 the oscillator flag, 1 the envelope flag, none otherwise (R85). -/
def toggleKindOf (imm : BitVec 16) : Option ToggleKind :=
  if imm = 0#16 then some .osc
  else if imm = 1#16 then some .env
  else none

/-- Bit 0 of a target mask: deliver to the router's envelopes (R85). -/
def targetsRouter (mask : BitVec 16) : Bool := mask.getLsbD 0

/-- Bit 1 of a target mask: deliver to the Voice Manager (R85). Bits 15:2 are ignored. -/
def targetsVoices (mask : BitVec 16) : Bool := mask.getLsbD 1

/-- An argument is written when its test accepts it; otherwise the prior value is retained (R271). -/
def accept (test : Bool) (argument prior : F32) : F32 := if test then argument else prior

/-- The effect `f` on the slot that a field names; a field that names no slot rejects the whole (R84). -/
def onSlot (field : BitVec 8) (f : Slot → State → State) (s : State) : State :=
  match slotOf field with
  | some k => f k s
  | none => s

end Sys2Proof.Machine
end

