-- ==== Sys2Proof/Machine/Ops.lean ====
section
/-! DEFINITION. The named operations over the table memories, the slots and the streams (00_scope.md R13,
20_memory.md R60 to R70, 10_state.md R30).

Taking an exception and returning from one have no operation here: the hardware raises nothing, saves
nothing and transfers control nowhere (60_exceptions.md R270, R275, R277, R278). -/

namespace Sys2Proof.Machine

/-! ### The table memories -/

/-- The table memory spaces (20_memory.md R60). -/
inductive Space where
  | wt (k : Slot) | ea (k : Slot) | ed (k : Slot) | er (k : Slot) | sine | vmcurve
  deriving DecidableEq, Repr

/-- The elements of a space. -/
def Memory.table (m : Memory) : Space → List F32
  | .wt k => m.wt.get k
  | .ea k => m.ea.get k
  | .ed k => m.ed.get k
  | .er k => m.er.get k
  | .sine => m.sine
  | .vmcurve => m.vmcurve

/-- `size(space)`: `N`, `M` or `C` (20_memory.md R60). -/
def Space.size (c : Config) : Space → Nat
  | .wt _ => c.N
  | .ea _ => c.M
  | .ed _ => c.M
  | .er _ => c.M
  | .sine => c.N
  | .vmcurve => c.C

/-- The spaces a command can write: `SINE` and `VMCURVE` are read-only after reset (20_memory.md R64). -/
def Space.writable : Space → Bool
  | .wt _ => true
  | .ea _ => true
  | .ed _ => true
  | .er _ => true
  | .sine => false
  | .vmcurve => false

/-- All elements of a writable space replaced as one indivisible change (20_memory.md R67, R69). A read-only
space keeps its elements. -/
def Memory.replace (m : Memory) (sp : Space) (t : List F32) : Memory :=
  match sp with
  | .wt k => { m with wt := m.wt.set k t }
  | .ea k => { m with ea := m.ea.set k t }
  | .ed k => { m with ed := m.ed.set k t }
  | .er k => { m with er := m.er.set k t }
  | .sine => m
  | .vmcurve => m

/-- `MemRead(space, i)` (00_scope.md R13, 20_memory.md R60). -/
def Memory.read (m : Memory) (sp : Space) (i : Int) : Except Fault F32 :=
  if i < 0 then .error .tableIndexOutOfRange
  else
    match (m.table sp)[i.toNat]? with
    | some v => .ok v
    | none => .error .tableIndexOutOfRange

/-- `MemWrite(space, i, v)` for a writable space (00_scope.md R13, 20_memory.md R60). The commands write whole
tables (`Memory.replace`); `Laws` proves that writing every element is the same change. -/
def Memory.write (m : Memory) (sp : Space) (i : Int) (v : F32) : Except Fault Memory :=
  if i < 0 ∨ ((m.table sp).length : Int) ≤ i ∨ sp.writable = false then .error .tableIndexOutOfRange
  else .ok (m.replace sp ((m.table sp).set i.toNat v))

/-- The canonical form of the table memories: every space has exactly its size (20_memory.md R60), so equal
memories are equal data (log 12). -/
def Memory.wf (c : Config) (m : Memory) : Bool :=
  [Slot.s1, .s2, .s3, .s4].all (fun k =>
    decide ((m.wt.get k).length = c.N) && decide ((m.ea.get k).length = c.M) &&
    decide ((m.ed.get k).length = c.M) && decide ((m.er.get k).length = c.M)) &&
  decide (m.sine.length = c.N) && decide (m.vmcurve.length = c.C)

/-- `floor_idx(v)` as an index of a lookup: a model fault where it has no value (00_scope.md R11). -/
def floorIndex (v : F32) : Except Fault Int :=
  match floorIdx v with
  | some i => .ok i
  | none => .error .indexUndefined

/-- A phase advanced by an increment, with the single wrap correction at the table size (41_oscillator.md
R138, 43_voice_manager.md R205, R206): subtracted once, and never tested against zero. -/
def advancePhase (size : Nat) (phase inc : F32) : F32 :=
  let p := fadd phase inc
  if fge p (i2f size) then fsub p (i2f size) else p

/-! ### A block of samples -/

/-- A per-sample step run over a block in ascending order, its state carried from sample to sample
(`for i in 0..n-1` of 41_oscillator.md R140, 42_envelope.md R188, 44_router.md R238). The first model fault
stops it. -/
def runBlock {σ : Type} (f : σ → F32 → Except Fault (σ × F32)) : σ → List F32 → Except Fault (σ × List F32)
  | st, [] => .ok (st, [])
  | st, x :: xs => do
    let (st1, y) ← f st x
    let (st2, ys) ← runBlock f st1 xs
    .ok (st2, y :: ys)

/-! ### Named updates of the state -/

/-- `cp <- cp + len` (30_encoding.md R83). -/
def State.advance (s : State) (len : Nat) : State := { s with cp := s.cp + len }

/-- The registers of slot `k` replaced. -/
def State.setSlot (s : State) (k : Slot) (r : SlotRegs) : State := { s with slots := s.slots.set k r }

/-- The Oscillator of slot `k` replaced. -/
def State.setOsc (s : State) (k : Slot) (o : Osc) : State :=
  s.setSlot k { s.slots.get k with osc := o }

/-- The Envelope of slot `k` replaced. -/
def State.setEnv (s : State) (k : Slot) (e : Env) : State :=
  s.setSlot k { s.slots.get k with env := e }

/-- The table memories replaced. -/
def State.setMem (s : State) (m : Memory) : State := { s with mem := m }

/-! ### The command stream (10_state.md R30) -/

/-- The words of the stream from the command pointer on. -/
def State.fetch (s : State) : List Word := s.cmd.drop s.cp

/-- A reserved header word: a command of length 1 with no effect (30_encoding.md R87; log 11). -/
def State.skipReserved (s : State) : State := s.advance 1

/-- The stream with the given words at the command pointer, everything else of it kept; a pointer beyond the
end of the stream, which no run reaches, is reached by no-effect zero words (log 21). -/
def State.deliverAtCp (s : State) (ws : List Word) : State :=
  { s with cmd := s.cmd.take s.cp ++ List.replicate (s.cp - s.cmd.length) 0#32 ++ ws
                    ++ s.cmd.drop (s.cp + ws.length) }

end Sys2Proof.Machine
end

