-- ==== Sys2Proof/Machine/Flags.lean ====
section
/-! DEFINITION. The flags and predicates that steer behaviour (10_state.md R31). There are no arithmetic
condition codes: no operation records an outcome other than its result (92_eei_decisions.md D1). -/

namespace Sys2Proof.Machine

/-- Sustain and Silent in Trigger mode freeze the envelope (42_envelope.md R165). -/
def Env.frozen (e : Env) : Bool :=
  e.mode == .trigger && (e.stage == .sustain || e.stage == .silent)

/-- The stage after the phase index passed the table end (42_envelope.md R173 to R177). -/
def Env.nextStage (e : Env) : Stage :=
  match e.stage with
  | .attack  => .decay
  | .decay   => .sustain
  | .sustain => .release
  | .release => .silent
  | .silent  => if e.noteOnFlag then .attack else .silent

/-- The stage a note off leaves: Release in Trigger mode from every stage, in Loop mode only if not already
Silent (42_envelope.md R179, R180). -/
def Env.noteOffStage (e : Env) : Stage :=
  match e.mode with
  | .trigger => .release
  | .loop => if e.stage = .silent then .silent else .release

/-- One of a slot's two active flags inverted (44_router.md R245). -/
def SlotRegs.toggle (r : SlotRegs) : ToggleKind → SlotRegs
  | .osc => { r with oscActive := !r.oscActive }
  | .env => { r with envActive := !r.envActive }

/-- A voice is `occupied` (10_state.md R28). -/
def occupied (v : Option Voice) : Bool := v.isSome

end Sys2Proof.Machine
end

