-- ==== Sys2Proof/Machine/Envelope.lean ====
section
/-! DEFINITION. The Envelope Generator: its step, its note events, its setters, and `SETENV`, `SETQ`, `SETMODE`,
`SETSIL` (42_envelope.md R160 to R188). -/

namespace Sys2Proof.Machine

/-! ### The per-sample step -/

/-- `STAGE_SCALE(stage)` (00_scope.md R5). -/
def stageScaleOf (c : Config) : Stage → F32
  | .attack  => c.stageScale.attack
  | .decay   => c.stageScale.decay
  | .sustain => c.stageScale.sustain
  | .release => c.stageScale.release
  | .silent  => c.stageScale.silent

/-- `timeOf(k, stage)` (R164). -/
def timeOf (e : Env) : Stage → F32
  | .attack  => e.attackTime
  | .decay   => e.decayTime
  | .sustain => e.sustainLoopTime
  | .release => e.releaseTime
  | .silent  => e.silentTime

/-- `stepOf(k, stage)` (R163). -/
def stepOf (c : Config) (e : Env) (stage : Stage) : F32 :=
  fdiv (fsub c.adsrMax (timeOf e stage)) (stageScaleOf c stage)

/-- The gain at the current phase index (R166 to R171). Sustain and Silent read no table. -/
def envValue (c : Config) (m : Memory) (k : Slot) (e : Env) : Except Fault F32 :=
  match e.stage with
  | .attack => do
    let idx ← floorIndex e.phaseIndex
    m.read (.ea k) idx
  | .decay => do
    let idx ← floorIndex e.phaseIndex
    let t ← m.read (.ed k) idx
    .ok (fadd t (fmul e.resultVolume (numPow (xOf idx.toNat c.M) e.decayQ)))
  | .sustain => .ok e.resultVolume
  | .release => do
    let idx ← floorIndex e.phaseIndex
    let t ← m.read (.er k) idx
    .ok (fmul t e.resultVolume)
  | .silent => .ok F32.zero

/-- The advance of one sample (R165, R172): frozen, or the phase index moved by the stage's step and, when it
passes the table end, reduced once and the stage transition made. -/
def envAdvance (c : Config) (e : Env) : Env :=
  if e.frozen then e
  else
    let p := fadd e.phaseIndex (stepOf c e e.stage)
    if fge p (i2f c.M) then { e with phaseIndex := fsub p (i2f c.M), stage := e.nextStage }
    else { e with phaseIndex := p }

/-- `envStep(k)` (R162): the value first, then the advance. -/
def envStep (c : Config) (m : Memory) (k : Slot) (e : Env) : Except Fault (Env × F32) := do
  let v ← envValue c m k e
  .ok (envAdvance c e, v)

/-- One sample of `envBlock`: the buffer's element times the gain (R188). -/
def envApply (c : Config) (m : Memory) (k : Slot) (e : Env) (x : F32) : Except Fault (Env × F32) := do
  let (e1, v) ← envStep c m k e
  .ok (e1, fmul x v)

/-- `envBlock(k, buf, n)` (R188). -/
def envBlock (c : Config) (m : Memory) (k : Slot) : Env → List F32 → Except Fault (Env × List F32) :=
  runBlock (envApply c m k)

/-! ### Note events -/

/-- Envelope `noteOn(k, velocity)` (R178): three writes, the phase index is kept. -/
def envNoteOn (c : Config) (velocity : F32) (e : Env) : Env :=
  { e with
    resultVolume := fdiv (fmul e.sustainLevel velocity) c.velocityMax
    stage := .attack
    noteOnFlag := true }

/-- Envelope `noteOff(k)` (R179, R180): the phase index is kept. -/
def envNoteOff (e : Env) : Env := { e with stage := e.noteOffStage, noteOnFlag := false }

/-! ### The setters -/

/-- `setADSR(k, a, d, s, r)` (R181): each component on its own, no table rebuilt. -/
def setADSR (k : Slot) (a d su r : F32) (s : State) : State :=
  let e := (s.slots.get k).env
  s.setEnv k
    { e with
      attackTime   := accept (inUnit a) a e.attackTime
      decayTime    := accept (inUnit d) d e.decayTime
      sustainLevel := accept (inUnit su) su e.sustainLevel
      releaseTime  := accept (inUnit r) r e.releaseTime }

/-- The three curve tables of slot `k`, rebuilt from an envelope's Q-factors (R182, 40_table_generator.md
R116). -/
def rebuildCurves (c : Config) (k : Slot) (e : Env) (m : Memory) : Memory :=
  ((m.replace (.ea k) (slopeUp c.M e.attackQ)).replace (.ed k) (slopeDown c.M e.decayQ)).replace (.er k)
    (slopeDown c.M e.releaseQ)

/-- An envelope with the accepted ones of three Q-factors (R182). -/
def acceptQ (qa qd qr : F32) (e : Env) : Env :=
  { e with
    attackQ  := accept (positive qa) qa e.attackQ
    decayQ   := accept (positive qd) qd e.decayQ
    releaseQ := accept (positive qr) qr e.releaseQ }

/-- `setQ(k, qa, qd, qr)` (R182): the accepted components are stored, then all three tables are rebuilt. -/
def setQ (k : Slot) (qa qd qr : F32) (s : State) : State :=
  let e := acceptQ qa qd qr (s.slots.get k).env
  (s.setEnv k e).setMem (rebuildCurves s.cfg k e s.mem)

/-- `setSilentAndSustainTime(k, silent, sustainLoop)` (R183). -/
def setSilentAndSustainTime (k : Slot) (silent sustainLoop : F32) (s : State) : State :=
  let e := (s.slots.get k).env
  s.setEnv k
    { e with
      silentTime      := accept (positive silent) silent e.silentTime
      sustainLoopTime := accept (positive sustainLoop) sustainLoop e.sustainLoopTime }

/-- The envelope mode of slot `k` written; any immediate but 0 and 1 is rejected (R186). -/
def setEnvMode (k : Slot) (imm : BitVec 16) (s : State) : State :=
  match envModeOf imm with
  | some mode => s.setEnv k { (s.slots.get k).env with mode := mode }
  | none => s

/-! ### The commands -/

/-- `SETENV slot, attack, decay, sustain, release` (R184). -/
def execSetenv (slot : BitVec 8) (a d su r : F32) (s : State) : Host.Outcome State Fault Refusal :=
  .next ((onSlot slot (fun k t => setADSR k a d su r t) s).advance 5)

/-- `SETQ slot, qa, qd, qr` (R185). -/
def execSetq (slot : BitVec 8) (qa qd qr : F32) (s : State) : Host.Outcome State Fault Refusal :=
  .next ((onSlot slot (fun k t => setQ k qa qd qr t) s).advance 4)

/-- `SETMODE slot, mode` (R186). -/
def execSetmode (slot : BitVec 8) (mode : BitVec 16) (s : State) : Host.Outcome State Fault Refusal :=
  .next ((onSlot slot (fun k t => setEnvMode k mode t) s).advance 1)

/-- `SETSIL slot, silent, sustainLoop` (R187). -/
def execSetsil (slot : BitVec 8) (silent sustainLoop : F32) (s : State) :
    Host.Outcome State Fault Refusal :=
  .next ((onSlot slot (fun k t => setSilentAndSustainTime k silent sustainLoop t) s).advance 3)

end Sys2Proof.Machine
end

