-- ==== Sys2Proof/Machine/Oscillator.lean ====
section
/-! DEFINITION. The Oscillator: its step in the five modes, its setters, and `SETFACTOR`, `SETAMP`, `LOADTAB`
(41_oscillator.md R130 to R148). -/

namespace Sys2Proof.Machine

/-! ### The per-sample step -/

/-- The phase increment of a mode (R132 to R136). -/
def oscInc (mode : OscMode) (o : Osc) (x : F32) : F32 :=
  match mode with
  | .modulatorNoInput   => o.frequency
  | .modulatorWithInput => fmul (fadd F32.one x) o.frequency
  | .carrierNoInput     => o.frequency
  | .carrierWithInput   => fmul (fadd F32.one x) o.frequency
  | .sumWithInput       => o.frequency

/-- The mode's own sample, from the table sample `t` and the input `x` (R132 to R136). -/
def oscSample (mode : OscMode) (t x : F32) : F32 :=
  match mode with
  | .modulatorNoInput   => t
  | .modulatorWithInput => t
  | .carrierNoInput     => t
  | .carrierWithInput   => t
  | .sumWithInput       => fmul (fadd t x) F32.half

/-- `oscStep(k, mode, x)` (R131): lookup at the phase before the increment, then the mode's sample and
increment, the phase update with its single wrap correction, and the amplitude scaling (R137 to R139). -/
def oscStep (c : Config) (m : Memory) (k : Slot) (mode : OscMode) (o : Osc) (x : F32) :
    Except Fault (Osc × F32) := do
  let idx ← floorIndex o.phase
  let t ← m.read (.wt k) idx
  .ok ({ o with phase := advancePhase c.N o.phase (oscInc mode o x) },
       fmul o.amplitude (oscSample mode t x))

/-- `oscBlock(k, mode, buf, n)` (R140). -/
def oscBlock (c : Config) (m : Memory) (k : Slot) (mode : OscMode) :
    Osc → List F32 → Except Fault (Osc × List F32) :=
  runBlock (oscStep c m k mode)

/-! ### The setters -/

/-- `setFrequency(k, f)` (R143): a primitive that no command invokes (30_encoding.md R92). -/
def setFrequency (k : Slot) (f : F32) (s : State) : State :=
  let o := (s.slots.get k).osc
  s.setOsc k { o with frequency := accept (positive f) f o.frequency }

/-- `setAmplitude(k, a)` (R144). -/
def setAmplitude (k : Slot) (a : F32) (s : State) : State :=
  let o := (s.slots.get k).osc
  s.setOsc k { o with amplitude := accept (inUnit a) a o.amplitude }

/-- `setFrequencyFactor(k, master, factor)` (R145): the product is written without a test of its own. -/
def setFrequencyFactor (k : Slot) (master factor : F32) (s : State) : State :=
  let o := (s.slots.get k).osc
  if positive factor then
    s.setOsc k { o with frequencyFactor := factor, frequency := fmul factor master }
  else s

/-- The samples become `WT[k]` if there are `N` of them; else the current table is retained (R148). -/
def loadWaveTable (k : Slot) (samples : List F32) (s : State) : State :=
  if samples.length = s.cfg.N then s.setMem (s.mem.replace (.wt k) samples) else s

/-! ### The commands -/

/-- `SETFACTOR slot, factor` (R146). -/
def execSetfactor (slot : BitVec 8) (factor : F32) (s : State) : Host.Outcome State Fault Refusal :=
  .next ((onSlot slot (fun k t => setFrequencyFactor k t.masterFrequency factor t) s).advance 2)

/-- `SETAMP slot, amp` (R147). -/
def execSetamp (slot : BitVec 8) (amp : F32) (s : State) : Host.Outcome State Fault Refusal :=
  .next ((onSlot slot (fun k t => setAmplitude k amp t) s).advance 2)

/-- `LOADTAB slot ; s0 .. s(count-1)` (R148): the `count` words are consumed in every case. -/
def execLoadtab (slot : BitVec 8) (samples : List F32) (s : State) : Host.Outcome State Fault Refusal :=
  .next ((onSlot slot (fun k t => loadWaveTable k samples t) s).advance (1 + samples.length))

end Sys2Proof.Machine
end

