-- ==== Sys2Proof/Machine/VoiceManager.lean ====
section
/-! DEFINITION. The Voice Manager: allocation, the shared modulator, the voices and their mix
(43_voice_manager.md R200 to R208). -/

namespace Sys2Proof.Machine

/-! ### Allocation -/

/-- A voice as allocation leaves it (R202). -/
def newVoice (frequency velocity : F32) : Voice :=
  { frequency := frequency, velocity := velocity, phase := F32.zero, envIdx := 0 }

/-- The pool with its lowest-numbered unoccupied voice occupied by `v` (R201); unchanged when every voice is
occupied, the note being dropped (R203). -/
def allocate (v : Voice) : List (Option Voice) → List (Option Voice)
  | [] => []
  | none :: rest => some v :: rest
  | some w :: rest => some w :: allocate v rest

/-- `vmNoteOn(freq, vel)` (R202): a frequency that is not `> 0` allocates nothing. -/
def vmNoteOn (frequency velocity : F32) (voices : List (Option Voice)) : List (Option Voice) :=
  if positive frequency then allocate (newVoice frequency velocity) voices else voices

/-! ### The per-sample mix -/

/-- `vmodStep()` (R205): the modulator's value, read at the phase before the advance, and the new phase. -/
def vmodStep (c : Config) (m : Memory) (phase : F32) : Except Fault (F32 × F32) := do
  let idx ← floorIndex phase
  let t ← m.read .sine idx
  .ok (advancePhase c.N phase c.vmModFreq, fmul c.vmModAmp t)

/-- A voice after its envelope index advanced by one: freed when the curve is exhausted (R207). -/
def recycle (c : Config) (v : Voice) : Option Voice :=
  if c.C ≤ v.envIdx + 1 then none else some { v with envIdx := v.envIdx + 1 }

/-- `voiceStep(j, m)` (R206) with modulator value `mo`: the voice afterwards and its contribution. -/
def voiceStep (c : Config) (m : Memory) (mo : F32) (v : Voice) : Except Fault (Option Voice × F32) := do
  let idx ← floorIndex v.phase
  let t ← m.read .sine idx
  let g ← m.read .vmcurve v.envIdx
  .ok (recycle c { v with phase := advancePhase c.N v.phase (fmul (fadd F32.one mo) v.frequency) },
       fmul (fmul t v.velocity) g)

/-- The occupied voices added into one buffer element, in ascending index order (R208). -/
def mixVoices (c : Config) (m : Memory) (mo : F32) :
    List (Option Voice) → F32 → Except Fault (List (Option Voice) × F32)
  | [], b => .ok ([], b)
  | none :: rest, b => do
    let (rest1, b1) ← mixVoices c m mo rest b
    .ok (none :: rest1, b1)
  | some v :: rest, b => do
    let (v1, y) ← voiceStep c m mo v
    let (rest1, b1) ← mixVoices c m mo rest (fadd b y)
    .ok (v1 :: rest1, b1)

/-- What the Voice Manager carries from sample to sample. -/
structure VmRegs where
  phase  : F32
  voices : List (Option Voice)
  deriving DecidableEq, Repr

/-- `vmSample(i)` (R208): the modulator steps on every sample, whether or not a voice is occupied. -/
def vmSample (c : Config) (m : Memory) (st : VmRegs) (b : F32) : Except Fault (VmRegs × F32) := do
  let (phase, mo) ← vmodStep c m st.phase
  let (voices, b1) ← mixVoices c m mo st.voices b
  .ok (⟨phase, voices⟩, b1)

/-- `vmSample(i)` for `i` in `0..n-1` (44_router.md R242). -/
def vmBlock (c : Config) (m : Memory) : VmRegs → List F32 → Except Fault (VmRegs × List F32) :=
  runBlock (vmSample c m)

end Sys2Proof.Machine
end

