-- ==== Sys2Proof/Machine/Router.lean ====
section
/-! DEFINITION. The Algorithm Router: the algorithm table, `PROCESS`, `SETALG`, `TOGGLE`, `SETMFREQ`, `SETMAMP`,
`NOTEON`, `NOTEOFF` (44_router.md R230 to R249). -/

namespace Sys2Proof.Machine

/-! ### The algorithm table -/

/-- `ALG(id)`: the oscillator mode of each slot (R232 to R236). -/
def modesOf (c : Config) : Algorithm → Slots OscMode
  | .a1 => ⟨.carrierNoInput, .modulatorWithInput, .modulatorWithInput, .modulatorWithInput⟩
  | .a2 => c.alg2
  | .a3 => c.alg3
  | .a4 => ⟨.carrierNoInput, .sumWithInput, .sumWithInput, .sumWithInput⟩

/-! ### The block -/

/-- One slot's part of a block (R238, R240): an inactive slot is skipped whole; an active one runs its
oscillator and then, if its envelope is active, its envelope. -/
def slotBlock (c : Config) (m : Memory) (k : Slot) (mode : OscMode) (r : SlotRegs) (buf : List F32) :
    Except Fault (SlotRegs × List F32) :=
  if r.oscActive then do
    let (o, buf1) ← oscBlock c m k mode r.osc buf
    if r.envActive then do
      let (e, buf2) ← envBlock c m k r.env buf1
      .ok ({ r with osc := o, env := e }, buf2)
    else .ok ({ r with osc := o }, buf1)
  else .ok (r, buf)

/-- The slots in the order 1, 2, 3, 4 over the running buffer (R231, R239). -/
def routerBlock (c : Config) (m : Memory) (modes : Slots OscMode) (slots : Slots SlotRegs) (buf : List F32) :
    Except Fault (Slots SlotRegs × List F32) := do
  let (r1, buf1) ← slotBlock c m .s1 modes.s1 slots.s1 buf
  let (r2, buf2) ← slotBlock c m .s2 modes.s2 slots.s2 buf1
  let (r3, buf3) ← slotBlock c m .s3 modes.s3 slots.s3 buf2
  let (r4, buf4) ← slotBlock c m .s4 modes.s4 slots.s4 buf3
  .ok (⟨r1, r2, r3, r4⟩, buf4)

/-- The final gain stage (R241). -/
def masterGain (amplitude : F32) (buf : List F32) : List F32 := buf.map (fun b => fmul b amplitude)

/-- What a block writes. -/
structure BlockResult where
  slots  : Slots SlotRegs
  vm     : VmRegs
  output : List F32
  deriving DecidableEq, Repr

/-- A whole block (R237 to R243): the buffer starts as the input words; the slots of the current algorithm;
the master gain; the voices. -/
def processBlock (s : State) (samples : List F32) : Except Fault BlockResult := do
  let (slots, buf) ← routerBlock s.cfg s.mem (modesOf s.cfg s.currentAlgorithm) s.slots samples
  let (vm, output) ← vmBlock s.cfg s.mem ⟨s.vmodPhase, s.voices⟩ (masterGain s.masterAmplitude buf)
  .ok ⟨slots, vm, output⟩

/-- The state with what a block wrote; its samples are appended to `out` (R243). -/
def State.commitBlock (s : State) (b : BlockResult) : State :=
  { s with slots := b.slots, vmodPhase := b.vm.phase, voices := b.vm.voices, out := s.out ++ b.output }

/-- `PROCESS n ; in[0..n-1]` (R238). -/
def execProcess (samples : List F32) (s : State) : Host.Outcome State Fault Refusal :=
  match processBlock s samples with
  | .ok b => .next ((s.commitBlock b).advance (1 + samples.length))
  | .error f => .fault f

/-! ### Configuration commands -/

/-- `SETALG id` (R244). -/
def execSetalg (id : BitVec 16) (s : State) : Host.Outcome State Fault Refusal :=
  match algorithmOf id with
  | some a => .next (State.advance { s with currentAlgorithm := a } 1)
  | none => .next (s.advance 1)

/-- The flag of slot `k` that the immediate names, inverted; any immediate but 0 and 1 is rejected (R245). -/
def toggleActive (k : Slot) (kind : BitVec 16) (s : State) : State :=
  match toggleKindOf kind with
  | some t => s.setSlot k ((s.slots.get k).toggle t)
  | none => s

/-- `TOGGLE slot, kind` (R245). -/
def execToggle (slot : BitVec 8) (kind : BitVec 16) (s : State) : Host.Outcome State Fault Refusal :=
  .next ((onSlot slot (fun k t => toggleActive k kind t) s).advance 1)

/-- A slot's frequency after a master frequency was set: `factor·f` (R246). -/
def followMaster (f : F32) (r : SlotRegs) : SlotRegs :=
  { r with osc := { r.osc with frequency := fmul r.osc.frequencyFactor f } }

/-- The effect of `SETMFREQ`: all four slots follow, active or not (R246). -/
def setMasterFrequency (f : F32) (s : State) : State :=
  if positive f then { s with masterFrequency := f, slots := s.slots.map (followMaster f) } else s

/-- `SETMFREQ f` (R246). -/
def execSetmfreq (f : F32) (s : State) : Host.Outcome State Fault Refusal :=
  .next ((setMasterFrequency f s).advance 2)

/-- `SETMAMP a` (R247). -/
def execSetmamp (a : F32) (s : State) : Host.Outcome State Fault Refusal :=
  .next (State.advance { s with masterAmplitude := accept (inUnit a) a s.masterAmplitude } 2)

/-! ### Note commands -/

/-- `noteOn` delivered to all four envelopes, whatever their active flags (R248). -/
def routerNoteOn (velocity : F32) (s : State) : State :=
  { s with slots := s.slots.map (fun r => { r with env := envNoteOn s.cfg velocity r.env }) }

/-- `noteOff` delivered to all four envelopes (R249). -/
def routerNoteOff (s : State) : State :=
  { s with slots := s.slots.map (fun r => { r with env := envNoteOff r.env }) }

/-- The Voice Manager's side of `NOTEON` (R248). -/
def voiceNoteOn (frequency velocity : F32) (s : State) : State :=
  { s with voices := vmNoteOn frequency velocity s.voices }

/-- `NOTEON frequency, velocity` (R248). -/
def execNoteon (targets : BitVec 16) (frequency velocity : F32) (s : State) :
    Host.Outcome State Fault Refusal :=
  let s1 := if targetsRouter targets then routerNoteOn velocity s else s
  let s2 := if targetsVoices targets then voiceNoteOn frequency velocity s1 else s1
  .next (s2.advance 3)

/-- `NOTEOFF` (R249): target bit 1 has no effect (43_voice_manager.md R204). -/
def execNoteoff (targets : BitVec 16) (s : State) : Host.Outcome State Fault Refusal :=
  .next ((if targetsRouter targets then routerNoteOff s else s).advance 1)

end Sys2Proof.Machine
end

