-- ==== Sys2Proof/Machine/Dispatch.lean ====
section
/-! DEFINITION. One arm per command, each a call of its meaning. -/

namespace Sys2Proof.Machine

/-- What a command does to a state. -/
def exec (i : Instr) (s : State) : Host.Outcome State Fault Refusal :=
  match i with
  | .process samples => Sys2Proof.Machine.execProcess samples s
  | .noteon targets frequency velocity => Sys2Proof.Machine.execNoteon targets frequency velocity s
  | .noteoff targets => Sys2Proof.Machine.execNoteoff targets s
  | .setfactor slot factor => Sys2Proof.Machine.execSetfactor slot factor s
  | .setamp slot amp => Sys2Proof.Machine.execSetamp slot amp s
  | .setmfreq f => Sys2Proof.Machine.execSetmfreq f s
  | .setmamp a => Sys2Proof.Machine.execSetmamp a s
  | .setenv slot attack decay sustain release => Sys2Proof.Machine.execSetenv slot attack decay sustain release s
  | .setq slot qa qd qr => Sys2Proof.Machine.execSetq slot qa qd qr s
  | .setmode slot mode => Sys2Proof.Machine.execSetmode slot mode s
  | .setsil slot silent sustainLoop => Sys2Proof.Machine.execSetsil slot silent sustainLoop s
  | .setalg id => Sys2Proof.Machine.execSetalg id s
  | .loadtab slot samples => Sys2Proof.Machine.execLoadtab slot samples s
  | .toggle slot kind => Sys2Proof.Machine.execToggle slot kind s

end Sys2Proof.Machine
end

