-- ==== Sys2Proof/Machine/Step.lean ====
section
/-! DEFINITION. One step: the command at the command pointer is decoded and executed (10_state.md R30,
20_memory.md R70). -/

namespace Sys2Proof.Machine

/-- One command of the stream. A reserved header word is skipped as a command of one word (30_encoding.md R87);
a stream cut inside a command is a model fault and the cut command has no effect (10_state.md R30); at the
end of the stream the block waits, unchanged (70_reset_and_hazards.md R290; DEDUCED, log 9, safe). -/
def step (s : State) : Host.Outcome State Fault Refusal :=
  match decode s.fetch with
  | .command i _ => exec i s
  | .reserved _ _ => .next s.skipReserved
  | .truncated _ => .fault .truncatedCommand
  | .ended => .next s

/-- The state with one instruction's words, zero from bit `nbits` on, at the place where `step` reads its next
command; the stream is otherwise kept (log 10, log 21). -/
def State.withFetchWord (s : State) (nbits w : Nat) : State := s.deliverAtCp (tableWords nbits w)

end Sys2Proof.Machine
end

