-- ==== Sys2Proof/Machine/Construct.lean ====
section
/-! DEFINITION. `construct`: which configurations the model starts from (70_reset_and_hazards.md R290, R291;
00_scope.md R9). -/

namespace Sys2Proof

open Sys2Proof.Machine

/-- A stage scale that is neither zero nor NaN. -/
def scaleValid (v : F32) : Bool := !isNaN v && magBits v != 0

def StageScale.valid (x : StageScale) : Bool :=
  scaleValid x.attack && scaleValid x.decay && scaleValid x.sustain && scaleValid x.release &&
    scaleValid x.silent

/-- `NUM.sinTab` on `0..N-1` has the two named properties of R9: P-sin-0, and P-sin-range, whose bounds make an
element finite. -/
def sinTabValid (N : Nat) (t : List F32) : Bool :=
  decide (t.length = N) && decide (t.head? = some F32.zero) && t.all signedUnit

/-- The conditions of R291, with the named properties of the sine function. That `ALG2` and `ALG3` are tuples
of valid modes is their type. -/
def Config.valid (c : Config) : Bool :=
  decide (1 ≤ c.N) && decide (c.N ≤ 65535) && decide (1 ≤ c.M) && decide (c.M ≤ 2 ^ 24) &&
    decide (1 ≤ c.pool) && decide (1 ≤ c.C) && positive c.masterFreqReset && c.stageScale.valid &&
    isFinite c.adsrMax && isFinite c.vmModFreq && isFinite c.vmModAmp && c.vmCurve.all isFinite &&
    sinTabValid c.N c.sinTab

/-- Reset with a configuration record (R290): the model refuses to start from one outside R291. -/
def Machine.construct (c : Config) : Host.Outcome State Fault Refusal :=
  if c.valid then .next (State.resetWith c) else .refused .invalidConfiguration

end Sys2Proof
end

