-- ==== Sys2Proof/Safety.lean ====
section
/-! DEFINITION. What the claims are stated in: the legal states, and the states in which a block runs without a
model fault. -/

namespace Sys2Proof

/-- The modes in which the input sample does not enter the phase (41_oscillator.md R130). -/
def OscMode.freeRunning : OscMode → Bool
  | .modulatorNoInput => true
  | .modulatorWithInput => false
  | .carrierNoInput => true
  | .carrierWithInput => false
  | .sumWithInput => true

/-- The place of a stage in the forward order Attack, Decay, Sustain, Release, Silent (42_envelope.md R160). -/
def Stage.rank : Stage → Nat
  | .attack => 0
  | .decay => 1
  | .sustain => 2
  | .release => 3
  | .silent => 4

/-- The `slot` field of a slot-addressed command (30_encoding.md R84). -/
def Instr.slotField : Instr → Option (BitVec 8)
  | .process _ => none
  | .noteon _ _ _ => none
  | .noteoff _ => none
  | .setfactor slot _ => some slot
  | .setamp slot _ => some slot
  | .setmfreq _ => none
  | .setmamp _ => none
  | .setenv slot _ _ _ _ => some slot
  | .setq slot _ _ _ => some slot
  | .setmode slot _ => some slot
  | .setsil slot _ _ => some slot
  | .setalg _ => none
  | .loadtab slot _ => some slot
  | .toggle slot _ => some slot

/-- The number of samples a command outputs: `n` for `PROCESS n`, none for every other (30_encoding.md R90). -/
def Instr.outputs : Instr → Nat
  | .process samples => samples.length
  | .noteon _ _ _ => 0
  | .noteoff _ => 0
  | .setfactor _ _ => 0
  | .setamp _ _ => 0
  | .setmfreq _ => 0
  | .setmamp _ => 0
  | .setenv _ _ _ _ _ => 0
  | .setq _ _ _ _ => 0
  | .setmode _ _ => 0
  | .setsil _ _ _ => 0
  | .setalg _ => 0
  | .loadtab _ _ => 0
  | .toggle _ _ => 0

/-- The `op` values of the opcode map (30_encoding.md R86); every other is reserved (R87). -/
def assignedOps : List (BitVec 8) :=
  [0x01#8, 0x02#8, 0x03#8, 0x10#8, 0x11#8, 0x12#8, 0x13#8, 0x20#8, 0x21#8, 0x22#8, 0x23#8, 0x30#8, 0x31#8,
   0x32#8]

end Sys2Proof

namespace Sys2Proof.Machine

/-- An occupied voice is legal: its frequency passed the test and its envelope index is below `C`
(10_state.md R28). -/
def Voice.legal (c : Config) (v : Voice) : Bool := positive v.frequency && decide (v.envIdx < c.C)

/-- The registers of a slot are in the legal-value columns of 10_state.md R24 and R26, as far as the acceptance
tests keep them: the frequency is the product of factor and master frequency (41_oscillator.md R145,
44_router.md R246), which may underflow or overflow (92_eei_decisions.md D41). -/
def SlotRegs.legal (masterFrequency : F32) (r : SlotRegs) : Bool :=
  inUnit r.osc.amplitude && positive r.osc.frequencyFactor &&
    decide (r.osc.frequency = fmul r.osc.frequencyFactor masterFrequency) &&
    inUnit r.env.attackTime && inUnit r.env.decayTime && inUnit r.env.sustainLevel &&
    inUnit r.env.releaseTime && positive r.env.attackQ && positive r.env.decayQ &&
    positive r.env.releaseQ && positive r.env.silentTime && positive r.env.sustainLoopTime

/-- The curve tables of a slot are what its Q-factors say (40_table_generator.md R116). -/
def curvesMatch (c : Config) (m : Memory) (k : Slot) (e : Env) : Prop :=
  m.table (.ea k) = slopeUp c.M e.attackQ ∧ m.table (.ed k) = slopeDown c.M e.decayQ ∧
    m.table (.er k) = slopeDown c.M e.releaseQ

/-- The invariant of the machine: what the spec says of every state between two commands. -/
structure State.Legal (s : State) : Prop where
  /-- The configuration meets R291. -/
  config : s.cfg.valid = true
  /-- Every table memory has its size (20_memory.md R60). -/
  memory : s.mem.wf s.cfg = true
  /-- `SINE` is read-only (20_memory.md R64). -/
  sine : s.mem.table .sine = sineTable s.cfg
  /-- `VMCURVE` is read-only (20_memory.md R64). -/
  vmcurve : s.mem.table .vmcurve = s.cfg.vmCurve
  /-- The curves are a function of the Q registers (40_table_generator.md R116). -/
  curves : ∀ k, curvesMatch s.cfg s.mem k (s.slots.get k).env
  /-- `masterFrequency > 0` (10_state.md R22). -/
  masterFrequency : positive s.masterFrequency = true
  /-- `masterAmplitude` in `[0, 1]` (10_state.md R22). -/
  masterAmplitude : inUnit s.masterAmplitude = true
  /-- The slots' registers (10_state.md R24, R26). -/
  slots : ∀ k, (s.slots.get k).legal s.masterFrequency = true
  /-- The pool never changes its size (43_voice_manager.md R200). -/
  pool : s.voices.length = s.cfg.pool
  /-- Every occupied voice is legal (10_state.md R28). -/
  voices : ∀ v, some v ∈ s.voices → v.legal s.cfg = true

/-- A phase in `[0, size)` (10_state.md R25). -/
def inRange (size : Nat) (v : F32) : Bool := isFinite v && fge v F32.zero && flt v (i2f size)

/-- The host's duties for one slot, where no input sample enters its phase (70_reset_and_hazards.md R296 to
R298): nothing is asked of a slot or envelope that does not take part. -/
structure SlotReady (c : Config) (mode : OscMode) (r : SlotRegs) : Prop where
  mode : r.oscActive = true → mode.freeRunning = true
  phase : r.oscActive = true → inRange c.N r.osc.phase = true
  increment : r.oscActive = true → inRange c.N r.osc.frequency = true
  phaseIndex : r.oscActive = true → r.envActive = true → inRange c.M r.env.phaseIndex = true
  steps : r.oscActive = true → r.envActive = true → ∀ stage, inRange c.M (stepOf c r.env stage) = true

/-- The duties for an occupied voice (R299): its phase and every increment the modulator can give it. -/
structure VoiceReady (c : Config) (v : Voice) : Prop where
  phase : inRange c.N v.phase = true
  envIdx : v.envIdx < c.C
  increment : ∀ t ∈ c.sinTab,
    inRange c.N (fmul (fadd F32.one (fmul c.vmModAmp t)) v.frequency) = true

/-- The duties of 70_reset_and_hazards.md R299 for the shared modulator and every occupied voice. -/
structure State.VmReady (s : State) : Prop where
  phase : inRange s.cfg.N s.vmodPhase = true
  increment : inRange s.cfg.N s.cfg.vmModFreq = true
  voices : ∀ v, some v ∈ s.voices → VoiceReady s.cfg v

/-- The preconditions of 70_reset_and_hazards.md R296 to R299, for the blocks in which no input sample enters a
phase. -/
structure State.BlockReady (s : State) : Prop where
  slots : ∀ k, SlotReady s.cfg ((modesOf s.cfg s.currentAlgorithm).get k) (s.slots.get k)
  vm : s.VmReady

/-- The duties for one slot in any mode, where the running buffer stays in `[-1, 1]`
(70_reset_and_hazards.md R296 to R298): its table and its envelope keep the buffer there, and in the WithInput
modes even the largest increment, `2·frequency`, is below the table size. -/
structure SlotUnitReady (c : Config) (m : Memory) (k : Slot) (mode : OscMode) (r : SlotRegs) : Prop where
  phase : r.oscActive = true → inRange c.N r.osc.phase = true
  increment : r.oscActive = true → inRange c.N r.osc.frequency = true
  inputIncrement : r.oscActive = true → mode.freeRunning = false →
    inRange c.N (fmul F32.two r.osc.frequency) = true
  table : r.oscActive = true → ∀ v ∈ m.table (.wt k), signedUnit v = true
  phaseIndex : r.oscActive = true → r.envActive = true → inRange c.M r.env.phaseIndex = true
  steps : r.oscActive = true → r.envActive = true → ∀ stage, inRange c.M (stepOf c r.env stage) = true
  volume : r.oscActive = true → r.envActive = true → inUnit r.env.resultVolume = true
  curves : r.oscActive = true → r.envActive = true →
    isFinite r.env.attackQ = true ∧ isFinite r.env.decayQ = true ∧ isFinite r.env.releaseQ = true

/-- The preconditions of 70_reset_and_hazards.md R296 to R299 for a block of input samples in `[-1, 1]`, under
every algorithm. -/
structure State.UnitReady (s : State) : Prop where
  slots : ∀ k, SlotUnitReady s.cfg s.mem k ((modesOf s.cfg s.currentAlgorithm).get k) (s.slots.get k)
  vm : s.VmReady

/-- One sample of one slot: its oscillator's step, then its envelope's if it is active (the sample-wise order of
44_router.md R239). -/
def slotSample (c : Config) (m : Memory) (k : Slot) (mode : OscMode) (r : SlotRegs) (x : F32) :
    Except Fault (SlotRegs × F32) :=
  if r.oscActive then do
    let (o, y) ← oscStep c m k mode r.osc x
    if r.envActive then do
      let (e, z) ← envApply c m k r.env y
      .ok ({ r with osc := o, env := e }, z)
    else .ok ({ r with osc := o }, y)
  else .ok (r, x)

/-- The magnitude from which a rounded result is infinite, in units: halfway between the largest finite value,
`(2^24 - 1)·2^253` units, and the next power of two (IEEE 754, log 16). -/
abbrev overflowUnits : Nat := (2 ^ 25 - 1) * 2 ^ 252

/-- `r` is the exact value `num / den` (in units) rounded to nearest, ties to even (00_scope.md R6; IEEE 754, log 16):
`r` is finite exactly below the overflow threshold; then no finite value is nearer, and an equally near one means
that the last fraction bit of `r` is 0. From the threshold on, `r` is infinite with the sign of the exact value. -/
def NearestEven (num : Int) (den : Nat) (r : F32) : Prop :=
  (isFinite r = true ↔ num.natAbs < overflowUnits * den) ∧
  (isFinite r = true → ∀ v, isFinite v = true →
    (units r * den - num).natAbs ≤ (units v * den - num).natAbs ∧
    ((units r * den - num).natAbs = (units v * den - num).natAbs → units v ≠ units r → magBits r % 2 = 0)) ∧
  (isFinite r = false → isInf r = true ∧ signBit r = decide (num < 0) ∧
    ∀ v, isFinite v = true → (units v * den).natAbs < num.natAbs)

/-- The zero with the given sign bit. -/
def zeroOf (neg : Bool) : F32 := if neg then 0x80000000#32 else 0x00000000#32

/-- The infinity with the given sign bit. -/
def infinityOf (neg : Bool) : F32 := if neg then 0xFF800000#32 else 0x7F800000#32

/-- `n` steps lead from `s` to `t` without a model fault: a safe run of 60_exceptions.md R279. -/
def State.runsTo : Nat → State → State → Prop
  | 0, s, t => t = s
  | n + 1, s, t => ∃ u, step s = .next u ∧ State.runsTo n u t

/-- No model fault within `n` steps. -/
def State.safeFor (n : Nat) (s : State) : Prop := ∃ t, s.runsTo n t

end Sys2Proof.Machine
end

