-- ==== Sys2Proof/Certificates/Slice0/Obligations.lean ====
section
/-! DEFINITION. The statements for the provers. Each docstring names the rules of spec/ the statement rests on; where
a clause rests on a decision of the spec (D<n>) or on a choice of the model (log <n>), it says so. -/

section

open Sys2Proof Sys2Proof.Machine

/-! ### The encoding -/

/-- Decoding an encoded command gives it back, whatever follows it in the stream (30_encoding.md R81, R83, R86; the
encoding is the spec's own, D3). No operand value is shut out: every value of every field and word. -/
def Obligations.DecodeOfEncodedCommand : Prop :=
  ∀ (i : Instr) (rest : List Word), i.wellFormed = true → decode (encode i ++ rest) = .command i rest

/-- What is decoded has an encoding of the same length, with the same opcode and the same operand words, and the
words after the command are left over (R81, R83, R86; D3). -/
def Obligations.EncodeOfDecodedCommand : Prop :=
  ∀ (ws rest : List Word) (i : Instr), decode ws = .command i rest →
    i.wellFormed = true ∧ (encode i).length = i.length ∧ ws.length = i.length + rest.length ∧
      ws.drop i.length = rest ∧ (encode i).tail = (ws.take i.length).tail ∧
      (encode i).head?.map headerOp = ws.head?.map headerOp

/-- R83: the operand count of every opcode, its dependence on `op` and `imm` only, and that an executed command,
accepted or rejected, advances the pointer by `1 + nops`. -/
def Obligations.CommandLengthComesFromOpAndImm : Prop :=
  (∀ h : Word,
    (headerOp h = 0x01#8 → headerNops h = (headerImm h).toNat) ∧
    (headerOp h = 0x02#8 → headerNops h = 2) ∧
    (headerOp h = 0x03#8 → headerNops h = 0) ∧
    (headerOp h = 0x10#8 → headerNops h = 1) ∧
    (headerOp h = 0x11#8 → headerNops h = 1) ∧
    (headerOp h = 0x12#8 → headerNops h = 1) ∧
    (headerOp h = 0x13#8 → headerNops h = 1) ∧
    (headerOp h = 0x20#8 → headerNops h = 4) ∧
    (headerOp h = 0x21#8 → headerNops h = 3) ∧
    (headerOp h = 0x22#8 → headerNops h = 0) ∧
    (headerOp h = 0x23#8 → headerNops h = 2) ∧
    (headerOp h = 0x30#8 → headerNops h = 0) ∧
    (headerOp h = 0x31#8 → headerNops h = (headerImm h).toNat) ∧
    (headerOp h = 0x32#8 → headerNops h = 0) ∧
    (headerOp h ∉ assignedOps → headerNops h = 0)) ∧
  (∀ h h' : Word, headerOp h = headerOp h' → headerImm h = headerImm h' → headerNops h = headerNops h') ∧
  (∀ (s t : State) (h : Word) (rest : List Word), s.fetch = h :: rest → step s = .next t →
    t.cp = s.cp + (1 + headerNops h))

/-- R81: the three fields of a header word are bits 31:24, 23:16 and 15:0, each the unsigned integer it spells, and
together they are the whole word. -/
def Obligations.HeaderWordHasThreeUnsignedFields : Prop :=
  ∀ w : Word,
    (headerOp w).toNat = w.toNat / 2 ^ 24 ∧ (headerSlot w).toNat = w.toNat / 2 ^ 16 % 2 ^ 8 ∧
      (headerImm w).toNat = w.toNat % 2 ^ 16 ∧
      w.toNat = (headerOp w).toNat * 2 ^ 24 + (headerSlot w).toNat * 2 ^ 16 + (headerImm w).toNat

/-- Every `op` outside the opcode map is a command of one word without effect (30_encoding.md R87, decision D6); the
all-zero word is one. -/
def Obligations.ReservedOpcodeHasNoEffect : Prop :=
  (∀ (s : State) (h : Word) (rest : List Word), s.fetch = h :: rest → headerOp h ∉ assignedOps →
    step s = .next { s with cp := s.cp + 1 }) ∧
  headerOp 0#32 ∉ assignedOps

/-- The `slot` field of a command that is not slot-addressed, the `imm` field of a command that does not use it,
and bits 15:2 of a target mask have no effect (30_encoding.md R88, decision D6). -/
def Obligations.IgnoredFieldsHaveNoEffect : Prop :=
  (∀ (o : Op) (slot slot' : BitVec 8) (imm : BitVec 16) (rest : List Word),
    o ∈ [Op.process, .noteon, .noteoff, .setmfreq, .setmamp, .setalg] → nops o imm ≤ rest.length →
    decode (header o.code slot imm :: rest) = decode (header o.code slot' imm :: rest)) ∧
  (∀ (o : Op) (slot : BitVec 8) (imm imm' : BitVec 16) (rest : List Word),
    o ∈ [Op.setfactor, .setamp, .setmfreq, .setmamp, .setenv, .setq, .setsil] → nops o imm ≤ rest.length →
    decode (header o.code slot imm :: rest) = decode (header o.code slot imm' :: rest)) ∧
  (∀ (mask mask' : BitVec 16) (f v : F32) (s : State), mask.extractLsb' 0 2 = mask'.extractLsb' 0 2 →
    exec (.noteon mask f v) s = exec (.noteon mask' f v) s ∧ exec (.noteoff mask) s = exec (.noteoff mask') s)

/-- The worked encodings of 30_encoding.md R93, in both directions. -/
def Obligations.WorkedEncodings : Prop :=
  (∀ p ∈ [
    (([0x11020000#32, 0x3F000000#32] : List Word), Instr.setamp 2#8 F32.half),
    ([0x12000000#32, 0x3F800000#32], .setmfreq F32.one),
    ([0x20010000#32, 0x3F000000#32, 0x3F000000#32, 0x3F000000#32, 0x3F000000#32],
      .setenv 1#8 F32.half F32.half F32.half F32.half),
    ([0x22030001#32], .setmode 3#8 1#16),
    ([0x30000004#32], .setalg 4#16),
    ([0x32010000#32], .toggle 1#8 0#16),
    ([0x32010001#32], .toggle 1#8 1#16),
    ([0x02000003#32, 0x3F800000#32, 0x43000000#32], .noteon 3#16 F32.one F32.oneTwentyEight),
    ([0x03000001#32], .noteoff 1#16),
    ([0x31010004#32, 0x00000000#32, 0x3F800000#32, 0x00000000#32, 0xBF800000#32],
      .loadtab 1#8 [F32.zero, F32.one, F32.zero, F32.negOne]),
    ([0x01000002#32, 0x00000000#32, 0x3E800000#32], .process [F32.zero, 0x3E800000#32])],
    decode p.1 = .command p.2 [] ∧ encode p.2 = p.1)

/-- Words carried as bytes are little-endian and lose nothing (20_memory.md R65, decision D4). -/
def Obligations.WordsAreCarriedLittleEndian : Prop :=
  (∀ w : Word, ∃ b0 b1 b2 b3 : Byte, bytesOfWord w = [b0, b1, b2, b3] ∧
    w.toNat = b0.toNat + 2 ^ 8 * b1.toNat + 2 ^ 16 * b2.toNat + 2 ^ 24 * b3.toNat) ∧
  (∀ ws : List Word, wordsOfBytes (bytesOfWords ws) = some ws) ∧
  (∀ (bs : List Byte) (ws : List Word), wordsOfBytes bs = some ws → bytesOfWords ws = bs)

/-! ### Steps and streams -/

/-- A step runs the command decoded at the command pointer, and the words after it are read next (10_state.md R30,
20_memory.md R70; decision D36). -/
def Obligations.StepRunsTheCommandAtThePointer : Prop :=
  ∀ (s : State) (i : Instr) (rest : List Word), decode s.fetch = .command i rest →
    step s = exec i s ∧ ∀ t, exec i s = .next t → t.fetch = rest

/-- A stream that ends inside a command is the model fault `TruncatedCommand`, with no effect, and nothing else is
(10_state.md R30, 60_exceptions.md R279; decision D36). At the end of the stream the block waits, unchanged:
the model's choice (log 9) from R30 and 70_reset_and_hazards.md R290. -/
def Obligations.StreamEndFaultsOnlyInsideACommand : Prop :=
  (∀ (s : State) (h : Word) (rest : List Word), s.fetch = h :: rest →
    (step s = .fault .truncatedCommand ↔ rest.length < headerNops h)) ∧
  (∀ s : State, s.cmd.length ≤ s.cp → step s = .next s)

/-- The instruction that the decoder reads from an opcode-table row's bits is the one that a step runs where those
bits are delivered at the command pointer (the model's delivery, log 10). -/
def Obligations.DeliveredTableWordIsTheNextStep : Prop :=
  ∀ (s : State) (nbits w : Nat) (i : Instr), decodeTableWord nbits w = some i →
    step (s.withFetchWord nbits w) = exec i (s.withFetchWord nbits w)

/-- A stream of whole commands without `PROCESS` runs to its end: one step a command, none of which stops the run, and
then the pointer stands at the end of the stream (10_state.md R30, 60_exceptions.md R270, R279; decision D36). -/
def Obligations.StreamsWithoutProcessRunToTheirEnd : Prop :=
  ∀ (s : State) (prog : List Instr), (∀ i ∈ prog, i.wellFormed = true ∧ ∀ xs, i ≠ .process xs) →
    s.fetch = prog.flatMap encode → s.safeFor prog.length ∧
      ∃ t, s.runsTo prog.length t ∧ t.cmd = s.cmd ∧ t.fetch = [] ∧ (s.cp ≤ s.cmd.length → t.cp = s.cmd.length)

/-- What every completed command does to the constants and the streams: the parameters are never written (10_state.md
R21), the pointer advances by the command's length (R30, 30_encoding.md R83), the command stream is kept, and
only `PROCESS n` outputs, exactly `n` words at the end of the stream (30_encoding.md R90, decision D44). -/
def Obligations.CommandsKeepConstantsAndAppendOutputs : Prop :=
  ∀ (i : Instr) (s t : State), exec i s = .next t →
    t.cfg = s.cfg ∧ t.cmd = s.cmd ∧ t.cp = s.cp + i.length ∧
      ∃ ys, t.out = s.out ++ ys ∧ ys.length = i.outputs

/-- Each register is written only by the commands that the tables of 10_state.md R22, R23, R24, R26, R28 and R29
name for it. Of an occupied voice, `NOTEON` alone writes the frequency and the velocity, and without it no voice
becomes occupied. -/
def Obligations.EachRegisterIsWrittenByItsCommandsOnly : Prop :=
  ∀ (i : Instr) (s t : State), exec i s = .next t →
    ((∀ f, i ≠ .setmfreq f) → t.masterFrequency = s.masterFrequency) ∧
    ((∀ a, i ≠ .setmamp a) → t.masterAmplitude = s.masterAmplitude) ∧
    ((∀ id, i ≠ .setalg id) → t.currentAlgorithm = s.currentAlgorithm) ∧
    ((∀ xs, i ≠ .process xs) → t.vmodPhase = s.vmodPhase) ∧
    ((∀ xs, i ≠ .process xs) → (∀ m f v, i ≠ .noteon m f v) → t.voices = s.voices) ∧
    ((∀ m f v, i ≠ .noteon m f v) → ∀ (j : Nat) (w : Voice), t.voices[j]? = some (some w) →
      ∃ v, s.voices[j]? = some (some v) ∧ w.frequency = v.frequency ∧ w.velocity = v.velocity) ∧
    ∀ k : Slot,
      ((∀ b n, i ≠ .toggle b n) → (t.slots.get k).oscActive = (s.slots.get k).oscActive ∧
        (t.slots.get k).envActive = (s.slots.get k).envActive) ∧
      ((∀ xs, i ≠ .process xs) → (t.slots.get k).osc.phase = (s.slots.get k).osc.phase ∧
        (t.slots.get k).env.phaseIndex = (s.slots.get k).env.phaseIndex) ∧
      ((∀ b f, i ≠ .setfactor b f) → (∀ f, i ≠ .setmfreq f) →
        (t.slots.get k).osc.frequency = (s.slots.get k).osc.frequency) ∧
      ((∀ b f, i ≠ .setfactor b f) →
        (t.slots.get k).osc.frequencyFactor = (s.slots.get k).osc.frequencyFactor) ∧
      ((∀ b a, i ≠ .setamp b a) → (t.slots.get k).osc.amplitude = (s.slots.get k).osc.amplitude) ∧
      ((∀ b a d u r, i ≠ .setenv b a d u r) →
        (t.slots.get k).env.attackTime = (s.slots.get k).env.attackTime ∧
        (t.slots.get k).env.decayTime = (s.slots.get k).env.decayTime ∧
        (t.slots.get k).env.sustainLevel = (s.slots.get k).env.sustainLevel ∧
        (t.slots.get k).env.releaseTime = (s.slots.get k).env.releaseTime) ∧
      ((∀ b qa qd qr, i ≠ .setq b qa qd qr) →
        (t.slots.get k).env.attackQ = (s.slots.get k).env.attackQ ∧
        (t.slots.get k).env.decayQ = (s.slots.get k).env.decayQ ∧
        (t.slots.get k).env.releaseQ = (s.slots.get k).env.releaseQ) ∧
      ((∀ b x y, i ≠ .setsil b x y) →
        (t.slots.get k).env.silentTime = (s.slots.get k).env.silentTime ∧
        (t.slots.get k).env.sustainLoopTime = (s.slots.get k).env.sustainLoopTime) ∧
      ((∀ b n, i ≠ .setmode b n) → (t.slots.get k).env.mode = (s.slots.get k).env.mode) ∧
      ((∀ m f v, i ≠ .noteon m f v) →
        (t.slots.get k).env.resultVolume = (s.slots.get k).env.resultVolume) ∧
      ((∀ m f v, i ≠ .noteon m f v) → (∀ m, i ≠ .noteoff m) →
        (t.slots.get k).env.noteOnFlag = (s.slots.get k).env.noteOnFlag) ∧
      ((∀ xs, i ≠ .process xs) → (∀ m f v, i ≠ .noteon m f v) → (∀ m, i ≠ .noteoff m) →
        (t.slots.get k).env.stage = (s.slots.get k).env.stage)

/-- A `slot` field names the slot whose number it spells; 0 and 5 to 255 name none, and then a slot-addressed command
is rejected whole and still advances by its length (30_encoding.md R84, 60_exceptions.md R271; decision D7). -/
def Obligations.SlotFieldSelectsOneSlotOrRejects : Prop :=
  (∀ (field : BitVec 8) (k : Slot), slotOf field = some k ↔ field.toNat = k.number) ∧
  (∀ field : BitVec 8, slotOf field = none ↔ field.toNat = 0 ∨ 5 ≤ field.toNat) ∧
  (∀ (i : Instr) (field : BitVec 8) (s : State), i.slotField = some field → slotOf field = none →
    exec i s = .next { s with cp := s.cp + i.length })

/-! ### The invariant and reset -/

/-- Every step keeps the state legal: configuration, sizes of the tables, read-only tables, curves as functions of
the Q registers, and the registers in their legal-value columns as far as the acceptance tests keep them: of an
oscillator's frequency only that it is the product of factor and master frequency (decision D41), of the phases,
the phase indices and `resultVolume`, whose columns rest on the host's preconditions, nothing (10_state.md R22, R24,
R26, R28, 20_memory.md R60, R63, R64, 40_table_generator.md R116). -/
def Obligations.EveryStepKeepsTheStateLegal : Prop :=
  ∀ s t : State, s.Legal → step s = .next t → t.Legal

/-- The state after reset of the model's reset configuration (log 1) is legal. -/
def Obligations.ResetStateIsLegal : Prop :=
  State.reset.Legal

/-- `construct` refuses exactly the configurations outside 70_reset_and_hazards.md R291 (decision D8) or without the two
named properties of the sine function; that it refuses for those, which 00_scope.md R9 only lets a model assume, is
the model's choice (log 17). From every other, with the reset values that 10_state.md R33 decides (log 7), reset
gives a legal state; where `VM_MOD_FREQ` is in `[0, N)`, it meets the duties of 70_reset_and_hazards.md R296 to
R299, so that a block can follow. -/
def Obligations.ConstructAdmitsExactlyTheLegalConfigurations : Prop :=
  (∀ c : Config, Machine.construct c = .refused .invalidConfiguration ↔
    ¬ ((1 ≤ c.N ∧ c.N ≤ 65535) ∧ (1 ≤ c.M ∧ c.M ≤ 2 ^ 24) ∧ 1 ≤ c.pool ∧ 1 ≤ c.C ∧
      fgt c.masterFreqReset F32.zero = true ∧
      (∀ stage, isNaN (stageScaleOf c stage) = false ∧ units (stageScaleOf c stage) ≠ 0) ∧
      isFinite c.adsrMax = true ∧ isFinite c.vmModFreq = true ∧ isFinite c.vmModAmp = true ∧
      (∀ v ∈ c.vmCurve, isFinite v = true) ∧
      c.sinTab.length = c.N ∧ c.sinTab.head? = some F32.zero ∧
      (∀ v ∈ c.sinTab, fle F32.negOne v = true ∧ fle v F32.one = true))) ∧
  (∀ c : Config, c.valid = true → c.resetValues = ResetValues.decided →
    Machine.construct c = .next (State.resetWith c) ∧ (State.resetWith c).Legal ∧
      (inRange c.N c.vmModFreq = true → (State.resetWith c).BlockReady))

/-- The state after reset, every register and table (10_state.md R33, 70_reset_and_hazards.md R290; the source gives
the default ADSR, the sine table and the master frequency, the spec's decisions D9 to D12 and D28 the rest,
log 7). -/
def Obligations.ResetValuesOfEveryRegister : Prop :=
  ∀ c : Config, c.resetValues = ResetValues.decided →
    let s := State.resetWith c
    s.cfg = c ∧ s.masterFrequency = c.masterFreqReset ∧ s.masterAmplitude = F32.one ∧
    s.currentAlgorithm = .a1 ∧ s.vmodPhase = F32.zero ∧ s.voices = List.replicate c.pool none ∧
    s.cp = 0 ∧ s.out = [] ∧ s.mem.table .sine = c.sinTab ∧ s.mem.table .vmcurve = c.vmCurve ∧
    ∀ k : Slot,
      (s.slots.get k).oscActive = false ∧ (s.slots.get k).envActive = false ∧
      (s.slots.get k).osc = ⟨F32.zero, fmul F32.one c.masterFreqReset, F32.one, F32.one⟩ ∧
      (s.slots.get k).env =
        { phaseIndex := F32.zero, attackTime := F32.half, decayTime := F32.half, sustainLevel := F32.half,
          releaseTime := F32.half, attackQ := F32.one, decayQ := F32.one, releaseQ := F32.one,
          stage := .silent, mode := .trigger, resultVolume := F32.zero, noteOnFlag := false,
          silentTime := F32.half, sustainLoopTime := F32.half } ∧
      s.mem.table (.wt k) = c.sinTab ∧ s.mem.table (.ea k) = slopeUp c.M F32.one ∧
      s.mem.table (.ed k) = slopeDown c.M F32.one ∧ s.mem.table (.er k) = slopeDown c.M F32.one

/-! ### Arithmetic -/

/-- The four operations on finite operands round the exact result to nearest, ties to even, once, to infinity from the
overflow threshold on (00_scope.md R6, decision D1). The sign of a zero result, and the results on infinite and NaN
operands, are those of IEEE 754, which the spec takes from general knowledge (log 16); which NaN it is is free
(log 3). -/
def Obligations.FourOperationsRoundToNearestEven : Prop :=
  (∀ a b : F32, isFinite a = true → isFinite b = true →
    NearestEven (units a + units b) 1 (fadd a b) ∧
    NearestEven (units a - units b) 1 (fsub a b) ∧
    NearestEven (units a * units b) unitsPerOne (fmul a b) ∧
    (units b ≠ 0 → NearestEven (units a * unitsPerOne * (units b).sign) (units b).natAbs (fdiv a b)) ∧
    (units a + units b = 0 → fadd a b = zeroOf (signBit a && signBit b)) ∧
    (units a - units b = 0 → fsub a b = zeroOf (signBit a && !signBit b)) ∧
    signBit (fmul a b) = (signBit a != signBit b) ∧
    (units b ≠ 0 → signBit (fdiv a b) = (signBit a != signBit b)) ∧
    (units b = 0 → units a ≠ 0 → fdiv a b = infinityOf (signBit a != signBit b)) ∧
    (units b = 0 → units a = 0 → isNaN (fdiv a b) = true)) ∧
  (∀ a b : F32, isNaN a = true ∨ isNaN b = true →
    isNaN (fadd a b) = true ∧ isNaN (fsub a b) = true ∧ isNaN (fmul a b) = true ∧ isNaN (fdiv a b) = true) ∧
  (∀ a b : F32, isInf a = true → isFinite b = true →
    fadd a b = a ∧ fadd b a = a ∧ fsub a b = a ∧ fsub b a = infinityOf (!signBit a) ∧
    (units b ≠ 0 → fmul a b = infinityOf (signBit a != signBit b) ∧
      fmul b a = infinityOf (signBit a != signBit b)) ∧
    (units b = 0 → isNaN (fmul a b) = true ∧ isNaN (fmul b a) = true) ∧
    fdiv a b = infinityOf (signBit a != signBit b) ∧ fdiv b a = zeroOf (signBit a != signBit b)) ∧
  (∀ a b : F32, isInf a = true → isInf b = true →
    (signBit a = signBit b → fadd a b = a ∧ isNaN (fsub a b) = true) ∧
    (signBit a ≠ signBit b → isNaN (fadd a b) = true ∧ fsub a b = a) ∧
    fmul a b = infinityOf (signBit a != signBit b) ∧ isNaN (fdiv a b) = true)

/-- The ordered comparisons and the two acceptance tests (00_scope.md R8; decision D1 and IEEE 754, log 16): false on
NaN, otherwise the order of the exact values for finite operands, so the two zeros are equal; the tests reject
every NaN, and treat `+Inf` and `-0.0` as the rule says. `clamp01` (R12, decision D16): NaN and `-0.0` stay, and
every other value lands in `[0, 1]`, unchanged if it was there. -/
def Obligations.ComparisonsTestsAndClamp : Prop :=
  (∀ a b : F32, isNaN a = true ∨ isNaN b = true →
    flt a b = false ∧ fle a b = false ∧ fgt a b = false ∧ fge a b = false) ∧
  (∀ a b : F32, isFinite a = true → isFinite b = true →
    (flt a b = true ↔ units a < units b) ∧ (fle a b = true ↔ units a ≤ units b) ∧
    (fgt a b = true ↔ units b < units a) ∧ (fge a b = true ↔ units b ≤ units a)) ∧
  fle 0x80000000#32 F32.zero = true ∧ fge 0x80000000#32 F32.zero = true ∧
  (∀ v : F32, isNaN v = true → positive v = false ∧ inUnit v = false) ∧
  positive 0x7F800000#32 = true ∧ positive 0x80000000#32 = false ∧ positive F32.zero = false ∧
  inUnit 0x80000000#32 = true ∧ inUnit F32.one = true ∧ inUnit 0x3F800001#32 = false ∧
  (∀ v : F32, isNaN v = true → clamp01 v = v) ∧ clamp01 0x80000000#32 = 0x80000000#32 ∧
  (∀ v : F32, isNaN v = false → inUnit (clamp01 v) = true) ∧ (∀ v : F32, inUnit v = true → clamp01 v = v) ∧
  (∀ v : F32, flt v F32.zero = true → clamp01 v = F32.zero) ∧
  (∀ v : F32, fgt v F32.one = true → clamp01 v = F32.one)

/-- `floor_idx` is the greatest integer not above a finite value and has no value otherwise; `i2f` is exact
(00_scope.md R11, decision D43). -/
def Obligations.FloorAndIntegerConversionAreExact : Prop :=
  (∀ v : F32, isFinite v = false → floorIdx v = none) ∧
  (∀ v : F32, isFinite v = true → ∃ i : Int, floorIdx v = some i ∧
    i * (unitsPerOne : Int) ≤ units v ∧ units v < (i + 1) * (unitsPerOne : Int)) ∧
  floorIdx 0x80000000#32 = some 0 ∧
  (∀ n : Nat, n ≤ 2 ^ 24 → isFinite (i2f n) = true ∧ units (i2f n) = (n : Int) * (unitsPerOne : Int) ∧
    floorIdx (i2f n) = some (n : Int))

/-- `NUM.pow` has its four named properties (00_scope.md R10, decision D2); beyond them it is free (log 4). -/
def Obligations.PowHasItsNamedProperties : Prop :=
  ∀ q : F32, fgt q F32.zero = true → isFinite q = true →
    numPow F32.zero q = F32.zero ∧ numPow F32.one q = F32.one ∧
    (∀ x : F32, fle F32.zero x = true → fle x F32.one = true →
      fle F32.zero (numPow x q) = true ∧ fle (numPow x q) F32.one = true) ∧
    (∀ x : F32, isFinite x = true → fge x F32.zero = true → numPow x F32.one = x)

/-! ### Table Generator and table memories -/

/-- The two curves (40_table_generator.md R110 to R114, decision D16): every element by its formula, the first one
exact, every one in `[0, 1]` for a finite Q. -/
def Obligations.CurvesFollowTheirFormulaInsideTheUnitRange : Prop :=
  ∀ (size : Nat) (q : F32), 1 ≤ size → size ≤ 2 ^ 24 → fgt q F32.zero = true →
    (slopeUp size q).length = size ∧ (slopeDown size q).length = size ∧
    (∀ i, i < size → fge (xOf i size) F32.zero = true ∧ flt (xOf i size) F32.one = true ∧
      (slopeUp size q)[i]? = some (clamp01 (numPow (fdiv (i2f i) (i2f size)) q)) ∧
      (slopeDown size q)[i]? = some (clamp01 (fsub F32.one (numPow (fdiv (i2f i) (i2f size)) q)))) ∧
    (isFinite q = true → (slopeUp size q)[0]? = some F32.zero ∧ (slopeDown size q)[0]? = some F32.one ∧
      (∀ v ∈ slopeUp size q, inUnit v = true) ∧ (∀ v ∈ slopeDown size q, inUnit v = true))

/-- A curve table changes only by `SETQ` for its slot, a wave table only by `LOADTAB` for its slot, `SINE` and `VMCURVE`
by no command (40_table_generator.md R117), and a table that changes is replaced whole. What `SETQ` leaves in the
curves is R116 and 42_envelope.md R182, by the spec's decisions D17 and D24 (log 24). Read element by element. -/
def Obligations.TablesChangeOnlyBySetqAndLoadtab : Prop :=
  ∀ (i : Instr) (s t : State), exec i s = .next t →
    (∀ idx, t.mem.read .sine idx = s.mem.read .sine idx ∧ t.mem.read .vmcurve idx = s.mem.read .vmcurve idx) ∧
    ∀ k : Slot,
      ((∀ b qa qd qr, i = .setq b qa qd qr → slotOf b ≠ some k) → ∀ idx,
        t.mem.read (.ea k) idx = s.mem.read (.ea k) idx ∧ t.mem.read (.ed k) idx = s.mem.read (.ed k) idx ∧
        t.mem.read (.er k) idx = s.mem.read (.er k) idx) ∧
      ((∀ b qa qd qr, i = .setq b qa qd qr → slotOf b = some k →
        t.mem.table (.ea k) = slopeUp s.cfg.M (t.slots.get k).env.attackQ ∧
        t.mem.table (.ed k) = slopeDown s.cfg.M (t.slots.get k).env.decayQ ∧
        t.mem.table (.er k) = slopeDown s.cfg.M (t.slots.get k).env.releaseQ)) ∧
      ((∀ b xs, i = .loadtab b xs → slotOf b ≠ some k) → ∀ idx,
        t.mem.read (.wt k) idx = s.mem.read (.wt k) idx) ∧
      (∀ b xs, i = .loadtab b xs → t.mem.table (.wt k) = s.mem.table (.wt k) ∨ t.mem.table (.wt k) = xs)

/-- `SETQ` with the current values is idempotent: it changes nothing (40_table_generator.md R118). Legal states only:
the curves of a state that no run reaches need not be those of its Q registers. -/
def Obligations.SetqWithUnchangedValuesChangesNothing : Prop :=
  ∀ (s : State) (field : BitVec 8) (k : Slot), s.Legal → slotOf field = some k →
    exec (.setq field (s.slots.get k).env.attackQ (s.slots.get k).env.decayQ (s.slots.get k).env.releaseQ) s =
      .next { s with cp := s.cp + 4 }

/-! ### Oscillator -/

/-- The oscillator's step in each of the five modes, from the table sample `e` at the phase before the increment
(41_oscillator.md R131 to R136, R138, R139, R141; decisions D14 and D15). -/
def Obligations.OscillatorStepInEachMode : Prop :=
  ∀ (c : Config) (m : Memory) (k : Slot) (o : Osc) (x e : F32) (idx : Int),
    floorIdx o.phase = some idx → m.read (.wt k) idx = .ok e →
    let wrapped := fun p : F32 => if fge p (i2f c.N) then fsub p (i2f c.N) else p
    let free : Osc := { o with phase := wrapped (fadd o.phase o.frequency) }
    let modulated : Osc := { o with phase := wrapped (fadd o.phase (fmul (fadd F32.one x) o.frequency)) }
    oscStep c m k .modulatorNoInput o x = .ok (free, fmul o.amplitude e) ∧
    oscStep c m k .modulatorWithInput o x = .ok (modulated, fmul o.amplitude e) ∧
    oscStep c m k .carrierNoInput o x = .ok (free, fmul o.amplitude e) ∧
    oscStep c m k .carrierWithInput o x = .ok (modulated, fmul o.amplitude e) ∧
    oscStep c m k .sumWithInput o x = .ok (free, fmul o.amplitude (fmul (fadd e x) F32.half))

/-- R137: the lookup. The index is the floor of the phase, without interpolation, into the slot's own table; a phase
that is no number or infinite, or negative, or not below `N`, is the model fault the rule names. -/
def Obligations.OscillatorLookupFloorsThePhase : Prop :=
  ∀ (c : Config) (m : Memory) (k : Slot) (mode : OscMode) (o : Osc) (x : F32),
    m.wf c = true → c.N ≤ 65535 →
    (isFinite o.phase = false → oscStep c m k mode o x = .error .indexUndefined) ∧
    (isFinite o.phase = true → flt o.phase F32.zero = true ∨ fge o.phase (i2f c.N) = true →
      oscStep c m k mode o x = .error .tableIndexOutOfRange) ∧
    (inRange c.N o.phase = true → ∃ (idx : Nat) (e : F32) (o' : Osc),
      idx < c.N ∧ (idx : Int) * (unitsPerOne : Int) ≤ units o.phase ∧
      units o.phase < ((idx : Int) + 1) * (unitsPerOne : Int) ∧ (m.table (.wt k))[idx]? = some e ∧
      oscStep c m k mode o x = .ok (o', fmul o.amplitude (oscSample mode e x)))

/-- A phase in `[0, N)` and an increment in `[0, N)` give a phase in `[0, N)`, in every mode, and nothing else of the
oscillator changes (10_state.md R25, 41_oscillator.md R138, R142); a phase index in `[0, M)` and a step in
`[0, M)` give a phase index in `[0, M)` (42_envelope.md R172). Consequences the spec derives. -/
def Obligations.PhasesStayInsideTheirTables : Prop :=
  (∀ (c : Config) (m : Memory) (k : Slot) (mode : OscMode) (o o' : Osc) (x y : F32),
    c.N ≤ 65535 → inRange c.N o.phase = true → inRange c.N (oscInc mode o x) = true →
    oscStep c m k mode o x = .ok (o', y) →
    inRange c.N o'.phase = true ∧ o' = { o with phase := o'.phase }) ∧
  (∀ (c : Config) (m : Memory) (k : Slot) (e : Env), m.wf c = true → c.M ≤ 2 ^ 24 →
    inRange c.M e.phaseIndex = true → inRange c.M (stepOf c e e.stage) = true →
    ∃ e' v, envStep c m k e = .ok (e', v) ∧ inRange c.M e'.phaseIndex = true)

/-- Amplitude scaling is linear, exactly for one step (41_oscillator.md R149 b, R139, decision D14), and an amplitude
never enters the phase. -/
def Obligations.AmplitudeScalesTheWholeSample : Prop :=
  ∀ (c : Config) (m : Memory) (k : Slot) (mode : OscMode) (o o1 : Osc) (x y1 a : F32),
    oscStep c m k mode { o with amplitude := F32.one } x = .ok (o1, y1) → isNaN y1 = false →
    oscStep c m k mode { o with amplitude := a } x = .ok ({ o1 with amplitude := a }, fmul a y1)

/-- At frequency 1 from phase 0, one block of `N` samples in a NoInput mode reads the table in order and ends at phase
0 again (the source's scenario 2, 95_test_vectors.md S2; 41_oscillator.md R132, R134, R140). -/
def Obligations.UnitFrequencyReadsTheTableInOrder : Prop :=
  ∀ (c : Config) (m : Memory) (k : Slot) (mode : OscMode) (o : Osc) (xs : List F32),
    m.wf c = true → 1 ≤ c.N → c.N ≤ 65535 → mode = .modulatorNoInput ∨ mode = .carrierNoInput →
    o.phase = F32.zero → o.frequency = F32.one → xs.length = c.N →
    oscBlock c m k mode o xs = .ok (o, (m.table (.wt k)).map (fun e => fmul o.amplitude e))

/-- R143: `setFrequency` writes the frequency iff it is greater than 0; `+Inf` is accepted and makes the next step
fault, both zeros and every NaN are rejected. -/
def Obligations.SetFrequencyAcceptsPositiveValues : Prop :=
  (∀ (k : Slot) (f : F32) (s : State),
    (fgt f F32.zero = true → setFrequency k f s = { s with
        slots := s.slots.set k { s.slots.get k with osc := { (s.slots.get k).osc with frequency := f } } }) ∧
    (fgt f F32.zero = false → setFrequency k f s = s)) ∧
  (fgt 0x7F800000#32 F32.zero = true ∧ fgt 0x80000000#32 F32.zero = false ∧
    fgt F32.zero F32.zero = false ∧ ∀ f, isNaN f = true → fgt f F32.zero = false) ∧
  (∀ (c : Config) (m : Memory) (k : Slot) (mode : OscMode) (o o' : Osc) (x y x' : F32),
    c.N ≤ 65535 → o.frequency = 0x7F800000#32 → oscStep c m k mode o x = .ok (o', y) →
    oscStep c m k mode o' x' = .error .indexUndefined)

/-- R144 and R147: `SETAMP` writes the slot's amplitude iff it is in `[0, 1]`, `-0.0` included; otherwise, and when
the field names no slot, it only advances. Its encoding is opcode `0x11`, the slot field and one operand word. -/
def Obligations.SetampResult : Prop :=
  (∀ (slot : BitVec 8) (imm : BitVec 16) (w : Word) (rest : List Word),
    decode (header 0x11#8 slot imm :: w :: rest) = .command (.setamp slot w) rest) ∧
  (∀ (s : State) (field : BitVec 8) (a : F32),
    (∀ k, slotOf field = some k → fge a F32.zero = true → fle a F32.one = true →
      exec (.setamp field a) s = .next { s with
        slots := s.slots.set k { s.slots.get k with osc := { (s.slots.get k).osc with amplitude := a } }
        cp := s.cp + 2 }) ∧
    (fge a F32.zero = false ∨ fle a F32.one = false ∨ slotOf field = none →
      exec (.setamp field a) s = .next { s with cp := s.cp + 2 })) ∧
  (inUnit F32.zero = true ∧ inUnit F32.one = true ∧ inUnit 0x80000000#32 = true ∧ inUnit 0x3F800001#32 = false ∧
    (∀ a, flt a F32.zero = true → inUnit a = false) ∧ ∀ a, isNaN a = true → inUnit a = false)

/-- `SETFACTOR` writes the factor and its product with the master frequency iff the factor is greater than 0
(41_oscillator.md R145, R146; the product untested by decision D41). -/
def Obligations.SetfactorResult : Prop :=
  ∀ (s : State) (field : BitVec 8) (f : F32),
    (∀ k, slotOf field = some k → fgt f F32.zero = true →
      exec (.setfactor field f) s = .next { s with
        slots := s.slots.set k { s.slots.get k with
          osc := { (s.slots.get k).osc with frequencyFactor := f, frequency := fmul f s.masterFrequency } }
        cp := s.cp + 2 }) ∧
    (fgt f F32.zero = false ∨ slotOf field = none →
      exec (.setfactor field f) s = .next { s with cp := s.cp + 2 })

/-- `LOADTAB` with `N` samples replaces the slot's wave table and nothing else, element by element and unchecked; any
other count, or a field that names no slot, consumes its words and changes nothing (41_oscillator.md R148,
20_memory.md R62, R69; decision D33). -/
def Obligations.LoadtabResult : Prop :=
  ∀ (s : State) (field : BitVec 8) (xs : List F32),
    (∀ k, slotOf field = some k → xs.length = s.cfg.N → ∃ mem',
      exec (.loadtab field xs) s = .next { s with mem := mem', cp := s.cp + (1 + xs.length) } ∧
      (∀ i : Nat, i < xs.length → ∃ v, xs[i]? = some v ∧ mem'.read (.wt k) i = .ok v) ∧
      (∀ (sp : Space) (idx : Int), sp ≠ .wt k → mem'.read sp idx = s.mem.read sp idx) ∧
      (∀ idx : Int, idx < 0 ∨ (s.cfg.N : Int) ≤ idx → mem'.read (.wt k) idx = .error .tableIndexOutOfRange)) ∧
    (xs.length ≠ s.cfg.N ∨ slotOf field = none →
      exec (.loadtab field xs) s = .next { s with cp := s.cp + (1 + xs.length) })

/-! ### Envelope -/

/-- The gain of each stage (42_envelope.md R166 to R171; the index of Decay by decision D18). Sustain and Silent read
no table, so their gain exists whatever the phase index is; in the three other stages a phase index that is NaN or
infinite, or finite and outside `[0, M)`, is the model fault that R166 names. -/
def Obligations.EnvelopeGainPerStage : Prop :=
  ∀ (c : Config) (m : Memory) (k : Slot) (e : Env),
    (e.stage = .sustain → envValue c m k e = .ok e.resultVolume) ∧
    (e.stage = .silent → envValue c m k e = .ok F32.zero) ∧
    (∀ idx : Int, floorIdx e.phaseIndex = some idx →
      (∀ v, e.stage = .attack → m.read (.ea k) idx = .ok v → envValue c m k e = .ok v) ∧
      (∀ v, e.stage = .decay → m.read (.ed k) idx = .ok v → envValue c m k e =
        .ok (fadd v (fmul e.resultVolume (numPow (fdiv (i2f idx.toNat) (i2f c.M)) e.decayQ)))) ∧
      (∀ v, e.stage = .release → m.read (.er k) idx = .ok v → envValue c m k e = .ok (fmul v e.resultVolume))) ∧
    (m.wf c = true → c.M ≤ 2 ^ 24 → e.stage = .attack ∨ e.stage = .decay ∨ e.stage = .release →
      (isFinite e.phaseIndex = false → envStep c m k e = .error .indexUndefined) ∧
      (isFinite e.phaseIndex = true → inRange c.M e.phaseIndex = false →
        envStep c m k e = .error .tableIndexOutOfRange))

/-- R174, R176, R177 (with R172, R173): when the wrap happens the stage moves as each rule says, in both modes where
the rule says so; the remainder is kept and nothing else is written; without a wrap the stage stays. -/
def Obligations.EnvelopeTransitionsAtTheWrap : Prop :=
  ∀ (c : Config) (m : Memory) (k : Slot) (e e' : Env) (v : F32),
    envStep c m k e = .ok (e', v) → e.frozen = false →
    let p := fadd e.phaseIndex (stepOf c e e.stage)
    (fge p (i2f c.M) = true →
      ∃ stage', e' = { e with phaseIndex := fsub p (i2f c.M), stage := stage' } ∧
        (e.stage = .attack → stage' = .decay) ∧ (e.stage = .decay → stage' = .sustain) ∧
        (e.stage = .sustain → e.mode = .loop ∧ stage' = .release) ∧ (e.stage = .release → stage' = .silent) ∧
        (e.stage = .silent → e.mode = .loop ∧
          (e.noteOnFlag = true → stage' = .attack) ∧ (e.noteOnFlag = false → stage' = .silent))) ∧
    (fge p (i2f c.M) = false → e' = { e with phaseIndex := p })

/-- R160: the per-sample step moves the stage only forward along the order, with the one exception of Loop mode's
re-entry gated by the note flag; a note on sets Attack, a note off Release (or leaves Silent in Loop mode). -/
def Obligations.StageMovesOnlyForwardExceptReentry : Prop :=
  (∀ (c : Config) (m : Memory) (k : Slot) (e e' : Env) (v : F32), envStep c m k e = .ok (e', v) →
    e'.stage = e.stage ∨ e'.stage.rank = e.stage.rank + 1 ∨
      (e.mode = .loop ∧ e.stage = .silent ∧ e.noteOnFlag = true ∧ e'.stage = .attack)) ∧
  (∀ (c : Config) (velocity : F32) (e : Env), (envNoteOn c velocity e).stage = .attack) ∧
  (∀ e : Env, (envNoteOff e).stage = .release ∨ (e.mode = .loop ∧ e.stage = .silent ∧ (envNoteOff e).stage = .silent)) ∧
  Stage.attack.rank < Stage.decay.rank ∧ Stage.decay.rank < Stage.sustain.rank ∧
  Stage.sustain.rank < Stage.release.rank ∧ Stage.release.rank < Stage.silent.rank

/-- R175: the wrap in Sustain gives Release, only in Loop mode; in Trigger mode Sustain ends by no command but a note
command, not even by a long block. Silent holds the same way (42_envelope.md R161, R165). -/
def Obligations.TriggerHoldEndsOnlyByANote : Prop :=
  (∀ (c : Config) (m : Memory) (k : Slot) (e e' : Env) (v : F32), envStep c m k e = .ok (e', v) →
    e.stage = .sustain →
    (e.mode = .trigger → e' = e) ∧
    (e.mode = .loop → fge (fadd e.phaseIndex (stepOf c e .sustain)) (i2f c.M) = true → e'.stage = .release) ∧
    (e'.stage = .release → e.mode = .loop)) ∧
  (∀ (i : Instr) (s t : State) (k : Slot), exec i s = .next t →
    (s.slots.get k).env.mode = .trigger →
    (s.slots.get k).env.stage = .sustain ∨ (s.slots.get k).env.stage = .silent →
    (∀ m f v, i ≠ .noteon m f v) → (∀ m, i ≠ .noteoff m) →
    (t.slots.get k).env.stage = (s.slots.get k).env.stage ∧
      (t.slots.get k).env.phaseIndex = (s.slots.get k).env.phaseIndex)

/-- A frozen envelope gives its stage's gain to every sample of a block and keeps its registers (42_envelope.md R165,
R188; decisions D19, D30); in Loop mode nothing freezes: every sample advances the phase index by the stage's step,
with the single wrap, and Silent without the note flag goes on so and stays Silent. -/
def Obligations.FrozenEnvelopeAppliesOneGain : Prop :=
  (∀ (c : Config) (m : Memory) (k : Slot) (e : Env) (xs : List F32), e.mode = .trigger →
    (e.stage = .sustain → envBlock c m k e xs = .ok (e, xs.map (fun x => fmul x e.resultVolume))) ∧
    (e.stage = .silent → envBlock c m k e xs = .ok (e, xs.map (fun x => fmul x F32.zero)))) ∧
  (∀ (c : Config) (m : Memory) (k : Slot) (e e' : Env) (v : F32), e.mode = .loop →
    envStep c m k e = .ok (e', v) → e'.phaseIndex = advancePhase c.M e.phaseIndex (stepOf c e e.stage)) ∧
  (∀ (c : Config) (m : Memory) (k : Slot) (e : Env) (xs : List F32), e.mode = .loop → e.stage = .silent →
    e.noteOnFlag = false → envBlock c m k e xs =
      .ok ({ e with phaseIndex := xs.foldl (fun p _ => advancePhase c.M p (stepOf c e .silent)) e.phaseIndex },
        xs.map (fun x => fmul x F32.zero)))

/-- The envelope's gain is in `[0, 1]` in every stage, for finite Q-factors and a volume in `[0, 1]`
(42_envelope.md R189, 10_state.md R27; a consequence the spec derives). -/
def Obligations.EnvelopeGainStaysInTheUnitRange : Prop :=
  ∀ (c : Config) (m : Memory) (k : Slot) (e : Env), 1 ≤ c.M → c.M ≤ 2 ^ 24 → curvesMatch c m k e →
    positive e.attackQ = true → positive e.decayQ = true → positive e.releaseQ = true →
    isFinite e.attackQ = true → isFinite e.decayQ = true → isFinite e.releaseQ = true →
    inUnit e.resultVolume = true → inRange c.M e.phaseIndex = true →
    ∃ v, envValue c m k e = .ok v ∧ inUnit v = true

/-- With a step of 1 the Attack stage applies the rest of its curve in order and becomes Decay exactly when the table
is used up, at phase index 0 (the source's scenario 1, 95_test_vectors.md S1; 42_envelope.md R167, R172, R173). -/
def Obligations.AttackAtUnitStepUsesUpItsCurve : Prop :=
  ∀ (c : Config) (m : Memory) (k : Slot) (e : Env) (p : Nat) (xs : List F32),
    m.wf c = true → c.M ≤ 2 ^ 24 → e.stage = .attack → stepOf c e .attack = F32.one → e.phaseIndex = i2f p →
    p < c.M → p + xs.length ≤ c.M →
    envBlock c m k e xs =
      .ok (if p + xs.length = c.M then { e with phaseIndex := F32.zero, stage := .decay }
           else { e with phaseIndex := i2f (p + xs.length) },
        List.zipWith fmul xs ((m.table (.ea k)).drop p))

/-- `SETENV`, `SETMODE` and `SETSIL`: each component on its own, written iff its test accepts it, and no table rebuilt
(42_envelope.md R181, R183, R184, R186, R187, 60_exceptions.md R276; the range of the times by decision D23, no
upper bound of the Loop times by D25, the mode's immediates by D32). -/
def Obligations.EnvelopeParameterCommandsResult : Prop :=
  (∀ (s : State) (field : BitVec 8) (a d u r : F32),
    (∀ k, slotOf field = some k →
      let e := (s.slots.get k).env
      exec (.setenv field a d u r) s = .next { s with
        slots := s.slots.set k { s.slots.get k with
          env := { e with
            attackTime := if fge a F32.zero && fle a F32.one then a else e.attackTime
            decayTime := if fge d F32.zero && fle d F32.one then d else e.decayTime
            sustainLevel := if fge u F32.zero && fle u F32.one then u else e.sustainLevel
            releaseTime := if fge r F32.zero && fle r F32.one then r else e.releaseTime } }
        cp := s.cp + 5 }) ∧
    (slotOf field = none → exec (.setenv field a d u r) s = .next { s with cp := s.cp + 5 })) ∧
  (∀ (s : State) (field : BitVec 8) (imm : BitVec 16),
    (∀ k, slotOf field = some k → imm = 0#16 ∨ imm = 1#16 →
      exec (.setmode field imm) s = .next { s with
        slots := s.slots.set k { s.slots.get k with
          env := { (s.slots.get k).env with mode := if imm = 0#16 then .trigger else .loop } }
        cp := s.cp + 1 }) ∧
    ((imm ≠ 0#16 ∧ imm ≠ 1#16) ∨ slotOf field = none →
      exec (.setmode field imm) s = .next { s with cp := s.cp + 1 })) ∧
  (∀ (s : State) (field : BitVec 8) (x y : F32),
    (∀ k, slotOf field = some k →
      let e := (s.slots.get k).env
      exec (.setsil field x y) s = .next { s with
        slots := s.slots.set k { s.slots.get k with
          env := { e with
            silentTime := if fgt x F32.zero then x else e.silentTime
            sustainLoopTime := if fgt y F32.zero then y else e.sustainLoopTime } }
        cp := s.cp + 3 }) ∧
    (slotOf field = none → exec (.setsil field x y) s = .next { s with cp := s.cp + 3 }))

/-- `SETQ`: each component on its own, written iff it is greater than 0, then the slot's three curve tables are
rebuilt from the registers and no other table changes (42_envelope.md R182, R185, 40_table_generator.md R116; the
rebuild from a retained value by decision D24, the shapes by D17). -/
def Obligations.SetqResult : Prop :=
  ∀ (s : State) (field : BitVec 8) (qa qd qr : F32),
    (∀ k, slotOf field = some k →
      let e := (s.slots.get k).env
      let qa' := if fgt qa F32.zero then qa else e.attackQ
      let qd' := if fgt qd F32.zero then qd else e.decayQ
      let qr' := if fgt qr F32.zero then qr else e.releaseQ
      ∃ mem', exec (.setq field qa qd qr) s = .next { s with
          slots := s.slots.set k { s.slots.get k with
            env := { e with attackQ := qa', decayQ := qd', releaseQ := qr' } }
          mem := mem'
          cp := s.cp + 4 } ∧
        mem'.table (.ea k) = slopeUp s.cfg.M qa' ∧ mem'.table (.ed k) = slopeDown s.cfg.M qd' ∧
        mem'.table (.er k) = slopeDown s.cfg.M qr' ∧
        ∀ (sp : Space) (idx : Int), sp ≠ .ea k → sp ≠ .ed k → sp ≠ .er k →
          mem'.read sp idx = s.mem.read sp idx) ∧
    (slotOf field = none → exec (.setq field qa qd qr) s = .next { s with cp := s.cp + 4 })

/-! ### Notes and voices -/

/-- `NOTEON` (42_envelope.md R178, 43_voice_manager.md R201 to R203, 44_router.md R248; decisions D22, D26 to D28, D34).
With target bit 0 all four envelopes, active or not, get volume, Attack and the note flag and keep their phase
index; the frequency has no part in it. With target bit 1 the lowest-numbered free voice gets the note, at phase
0 and index 0; with no free voice, a frequency that is not greater than 0, or without the bit, no voice changes. -/
def Obligations.NoteonResult : Prop :=
  ∀ (s : State) (mask : BitVec 16) (f v : F32), ∃ voices',
    exec (.noteon mask f v) s = .next { s with
      slots := if mask.getLsbD 0 then
          s.slots.map (fun r => { r with env := { r.env with
            resultVolume := fdiv (fmul r.env.sustainLevel v) s.cfg.velocityMax
            stage := .attack
            noteOnFlag := true } })
        else s.slots
      voices := voices'
      cp := s.cp + 3 } ∧
    (mask.getLsbD 1 = false ∨ fgt f F32.zero = false → voices' = s.voices) ∧
    (mask.getLsbD 1 = true → fgt f F32.zero = true →
      (∀ j : Nat, s.voices[j]? = some none → (∀ i : Nat, i < j → s.voices[i]? ≠ some none) →
        voices' = s.voices.set j (some ⟨f, v, F32.zero, 0⟩)) ∧
      ((∀ j : Nat, s.voices[j]? ≠ some none) → voices' = s.voices))

/-- `NOTEOFF`: in Trigger mode Release from every stage, in Loop mode Release unless Silent, the note flag cleared in
both, the phase index kept; the voices never change, whatever target bit 1 says (42_envelope.md R179, R180,
43_voice_manager.md R204, 44_router.md R249; decisions D22, D26). -/
def Obligations.NoteoffResult : Prop :=
  ∀ (s : State) (mask : BitVec 16),
    exec (.noteoff mask) s = .next { s with
      slots := if mask.getLsbD 0 then
          s.slots.map (fun r => { r with env := { r.env with
            stage := if r.env.mode = .loop ∧ r.env.stage = .silent then .silent else .release
            noteOnFlag := false } })
        else s.slots
      cp := s.cp + 1 }

/-- A note within the velocity range gives every envelope a volume in `[0, 1]` (42_envelope.md R178, 10_state.md R26
column `resultVolume`), and one without target bit 0 keeps every volume (44_router.md R248). -/
def Obligations.NoteVolumeStaysInTheUnitRange : Prop :=
  (∀ (s t : State) (mask : BitVec 16) (f v : F32), s.Legal → isFinite s.cfg.velocityMax = true →
    positive s.cfg.velocityMax = true → fge v F32.zero = true → fle v s.cfg.velocityMax = true →
    mask.getLsbD 0 = true → exec (.noteon mask f v) s = .next t →
    ∀ k, inUnit (t.slots.get k).env.resultVolume = true) ∧
  (∀ (s t : State) (mask : BitVec 16) (f v : F32), mask.getLsbD 0 = false → exec (.noteon mask f v) s = .next t →
    ∀ k, (t.slots.get k).env.resultVolume = (s.slots.get k).env.resultVolume)

/-- The shared modulator's and a voice's step (43_voice_manager.md R205 to R207), and the mix, which adds the occupied
voices' contributions into the sample in ascending index order, each addition rounded, and skips the free ones
(R208). Decision D28. A phase that is NaN or infinite, or finite and outside `[0, N)`, is the model fault of R205 and
R206 (names as in 60_exceptions.md R279, decision D43). -/
def Obligations.VoiceStepsAndTheirMix : Prop :=
  (∀ (c : Config) (m : Memory) (p t : F32) (idx : Int), floorIdx p = some idx → m.read .sine idx = .ok t →
    vmodStep c m p = .ok (
      (let q := fadd p c.vmModFreq; if fge q (i2f c.N) then fsub q (i2f c.N) else q), fmul c.vmModAmp t)) ∧
  (∀ (c : Config) (m : Memory) (mo t g : F32) (v : Voice) (idx : Int), floorIdx v.phase = some idx →
    m.read .sine idx = .ok t → m.read .vmcurve v.envIdx = .ok g →
    let q := fadd v.phase (fmul (fadd F32.one mo) v.frequency)
    voiceStep c m mo v = .ok (
      if c.C ≤ v.envIdx + 1 then none
      else some { v with phase := if fge q (i2f c.N) then fsub q (i2f c.N) else q, envIdx := v.envIdx + 1 },
      fmul (fmul t v.velocity) g)) ∧
  (∀ (c : Config) (m : Memory) (mo b b' : F32) (vs vs' : List (Option Voice)),
    mixVoices c m mo vs b = .ok (vs', b') →
    vs'.length = vs.length ∧ ∃ ys : List (Option F32), ys.length = vs.length ∧
      b' = (ys.filterMap id).foldl fadd b ∧
      ∀ j : Nat,
        (vs[j]? = some none → vs'[j]? = some none ∧ ys[j]? = some none) ∧
        (∀ v, vs[j]? = some (some v) → ∃ v' y, voiceStep c m mo v = .ok (v', y) ∧ vs'[j]? = some v' ∧
          ys[j]? = some (some y))) ∧
  (∀ (c : Config) (m : Memory) (p mo : F32) (v : Voice), m.wf c = true → c.N ≤ 65535 →
    (isFinite p = false → vmodStep c m p = .error .indexUndefined) ∧
    (isFinite p = true → inRange c.N p = false → vmodStep c m p = .error .tableIndexOutOfRange) ∧
    (isFinite v.phase = false → voiceStep c m mo v = .error .indexUndefined) ∧
    (isFinite v.phase = true → inRange c.N v.phase = false → voiceStep c m mo v = .error .tableIndexOutOfRange))

/-- A voice sounds for exactly the rest of its curve: after a block of `n` samples its index has advanced by `n`, or
it is free once the curve is used up, and frequency and velocity are kept; a free voice stays free
(43_voice_manager.md R207, decision D28). A note starts at index 0, so it sounds for `C` samples. -/
def Obligations.VoiceSoundsForTheRestOfItsCurve : Prop :=
  ∀ (s t : State) (xs : List F32) (j : Nat), exec (.process xs) s = .next t →
    (s.voices[j]? = some none → t.voices[j]? = some none) ∧
    (∀ v, s.voices[j]? = some (some v) → v.envIdx < s.cfg.C →
      (v.envIdx + xs.length < s.cfg.C → ∃ p, t.voices[j]? =
        some (some { v with phase := p, envIdx := v.envIdx + xs.length })) ∧
      (s.cfg.C ≤ v.envIdx + xs.length → t.voices[j]? = some none))

/-! ### The router and `PROCESS` -/

/-- The algorithm table and the slots' part in a block (44_router.md R230, R232 to R236, R240; decisions D30, D31):
algorithms 2 and 3 are the configuration's. -/
def Obligations.AlgorithmTableAndInactiveSlots : Prop :=
  (∀ c : Config,
    modesOf c .a1 = ⟨.carrierNoInput, .modulatorWithInput, .modulatorWithInput, .modulatorWithInput⟩ ∧
    modesOf c .a2 = c.alg2 ∧ modesOf c .a3 = c.alg3 ∧
    modesOf c .a4 = ⟨.carrierNoInput, .sumWithInput, .sumWithInput, .sumWithInput⟩) ∧
  (∀ (c : Config) (m : Memory) (k : Slot) (mode : OscMode) (r : SlotRegs) (buf : List F32),
    (r.oscActive = false → slotBlock c m k mode r buf = .ok (r, buf)) ∧
    (∀ o buf1, r.oscActive = true → oscBlock c m k mode r.osc buf = .ok (o, buf1) →
      (r.envActive = false → slotBlock c m k mode r buf = .ok ({ r with osc := o }, buf1)) ∧
      (∀ e buf2, r.envActive = true → envBlock c m k r.env buf1 = .ok (e, buf2) →
        slotBlock c m k mode r buf = .ok ({ r with osc := o, env := e }, buf2))))

/-- `PROCESS` completes exactly when the slots run in the order 1, 2, 3, 4 over the running buffer that starts as the
input, each with its mode of the current algorithm, and the voices then run over the buffer times the master
amplitude; the state it leaves is the one they leave (44_router.md R231, R237 to R239, R242, R243; decisions D29,
D31). -/
def Obligations.ProcessRunsSlotsThenGainThenVoices : Prop :=
  ∀ (s t : State) (xs : List F32), exec (.process xs) s = .next t ↔
    ∃ (r1 r2 r3 r4 : SlotRegs) (b1 b2 b3 b4 ys : List F32) (vm : VmRegs),
      slotBlock s.cfg s.mem .s1 (modesOf s.cfg s.currentAlgorithm).s1 s.slots.s1 xs = .ok (r1, b1) ∧
      slotBlock s.cfg s.mem .s2 (modesOf s.cfg s.currentAlgorithm).s2 s.slots.s2 b1 = .ok (r2, b2) ∧
      slotBlock s.cfg s.mem .s3 (modesOf s.cfg s.currentAlgorithm).s3 s.slots.s3 b2 = .ok (r3, b3) ∧
      slotBlock s.cfg s.mem .s4 (modesOf s.cfg s.currentAlgorithm).s4 s.slots.s4 b3 = .ok (r4, b4) ∧
      vmBlock s.cfg s.mem ⟨s.vmodPhase, s.voices⟩ (b4.map (fun b => fmul b s.masterAmplitude)) = .ok (vm, ys) ∧
      t = { s with
        slots := ⟨r1, r2, r3, r4⟩
        vmodPhase := vm.phase
        voices := vm.voices
        out := s.out ++ ys
        cp := s.cp + (1 + xs.length) }

/-- R241: the master gain multiplies every sample of the block once, after the last slot, and changes no oscillator or
envelope state: two runs that differ only in the master amplitude leave the same slots. -/
def Obligations.MasterGainTouchesTheOutputOnly : Prop :=
  (∀ (s t : State) (xs : List F32), exec (.process xs) s = .next t →
    ∃ (buf ys : List F32) (vm : VmRegs),
      routerBlock s.cfg s.mem (modesOf s.cfg s.currentAlgorithm) s.slots xs = .ok (t.slots, buf) ∧
      vmBlock s.cfg s.mem ⟨s.vmodPhase, s.voices⟩ (buf.map (fun b => fmul b s.masterAmplitude)) = .ok (vm, ys) ∧
      t.out = s.out ++ ys) ∧
  (∀ (s t : State) (xs : List F32) (a : F32), exec (.process xs) s = .next t →
    ∃ t', exec (.process xs) { s with masterAmplitude := a } = .next t' ∧ t'.slots = t.slots ∧
      t'.vmodPhase = t.vmodPhase ∧ t'.voices = t.voices)

/-- The frame of `PROCESS`: it writes the phase of active oscillators, the phase index and stage of applied envelopes,
the modulator's phase, the voices and the output, and nothing else (44_router.md R238, R240, 20_memory.md R67). -/
def Obligations.ProcessFrame : Prop :=
  ∀ (s t : State) (xs : List F32), exec (.process xs) s = .next t →
    t.cfg = s.cfg ∧ t.masterFrequency = s.masterFrequency ∧ t.masterAmplitude = s.masterAmplitude ∧
    t.currentAlgorithm = s.currentAlgorithm ∧ t.cmd = s.cmd ∧ t.voices.length = s.voices.length ∧
    (∀ (sp : Space) (idx : Int), t.mem.read sp idx = s.mem.read sp idx) ∧
    ∀ k : Slot,
      t.slots.get k = { s.slots.get k with
        osc := { (s.slots.get k).osc with phase := (t.slots.get k).osc.phase }
        env := { (s.slots.get k).env with
          phaseIndex := (t.slots.get k).env.phaseIndex
          stage := (t.slots.get k).env.stage } } ∧
      ((s.slots.get k).oscActive = false → t.slots.get k = s.slots.get k) ∧
      ((s.slots.get k).envActive = false → (t.slots.get k).env = (s.slots.get k).env)

/-- With no active slot and no occupied voice the output is the input times the master amplitude, and only the
modulator's phase moves (44_router.md R238, R242, 70_reset_and_hazards.md R292; decision D28). -/
def Obligations.IdleBlockScalesItsInput : Prop :=
  ∀ (s : State) (xs : List F32), s.Legal → (∀ k, (s.slots.get k).oscActive = false) →
    (∀ v ∈ s.voices, v = none) → inRange s.cfg.N s.vmodPhase = true → inRange s.cfg.N s.cfg.vmModFreq = true →
    ∃ p, inRange s.cfg.N p = true ∧ (xs = [] → p = s.vmodPhase) ∧
      exec (.process xs) s = .next { s with
        vmodPhase := p
        out := s.out ++ xs.map (fun x => fmul x s.masterAmplitude)
        cp := s.cp + (1 + xs.length) }

/-- Under the preconditions of 70_reset_and_hazards.md R296 to R299, in the modes whose phase no input enters, every
block completes, whatever its input samples, and the preconditions hold again after it. -/
def Obligations.ReadyBlockCompletes : Prop :=
  ∀ (s : State) (xs : List F32), s.Legal → s.BlockReady →
    ∃ t, exec (.process xs) s = .next t ∧ t.Legal ∧ t.BlockReady ∧ t.out.length = s.out.length + xs.length

/-- Under the preconditions of 70_reset_and_hazards.md R296 to R299 with tables and inputs in `[-1, 1]`, under every
algorithm, every block completes, the preconditions hold again after it, and with no voice occupied every output
sample is in `[-1, 1]`. -/
def Obligations.UnitBlockCompletesUnderEveryAlgorithm : Prop :=
  ∀ (s : State) (xs : List F32), s.Legal → s.UnitReady → (∀ x ∈ xs, signedUnit x = true) →
    ∃ t ys, exec (.process xs) s = .next t ∧ t.Legal ∧ t.UnitReady ∧ t.out = s.out ++ ys ∧
      ys.length = xs.length ∧ ((∀ v ∈ s.voices, v = none) → ∀ y ∈ ys, signedUnit y = true)

/-- A lookup outside its table is the model fault that 60_exceptions.md R279 names (decision D43). An inactive slot or
envelope looks nothing up, the slots run in the order 1, 2, 3, 4 and the voices last (44_router.md R231, R238, R240;
decisions D30, D31), and of several faults a block reports the first in that order (log 14). A block of at least one
sample stops at the first active slot whose phase is no table position; wherever a slot's part of a block is reached,
a bad phase of the oscillator or, after its samples, a bad index of an active envelope in Attack, Decay or Release
(42_envelope.md R166) stops it; and so do, after the slots, a bad phase of the modulator (43_voice_manager.md R205)
and, the modulator's being good, of the lowest-numbered occupied voice (R206). -/
def Obligations.ProcessFaultsAtABadPhase : Prop :=
  (∀ (s : State) (k : Slot) (x : F32) (xs : List F32), s.mem.wf s.cfg = true → s.cfg.N ≤ 65535 →
    (∀ j : Slot, j.number < k.number → (s.slots.get j).oscActive = false) → (s.slots.get k).oscActive = true →
    (isFinite (s.slots.get k).osc.phase = false → exec (.process (x :: xs)) s = .fault .indexUndefined) ∧
    (isFinite (s.slots.get k).osc.phase = true → inRange s.cfg.N (s.slots.get k).osc.phase = false →
      exec (.process (x :: xs)) s = .fault .tableIndexOutOfRange)) ∧
  (∀ (s : State) (xs : List F32) (f : Fault),
    let part := fun (k : Slot) (buf : List F32) =>
      slotBlock s.cfg s.mem k ((modesOf s.cfg s.currentAlgorithm).get k) (s.slots.get k) buf
    exec (.process xs) s = .fault f ↔
      part .s1 xs = .error f ∨ ∃ r1 b1, part .s1 xs = .ok (r1, b1) ∧
      (part .s2 b1 = .error f ∨ ∃ r2 b2, part .s2 b1 = .ok (r2, b2) ∧
      (part .s3 b2 = .error f ∨ ∃ r3 b3, part .s3 b2 = .ok (r3, b3) ∧
      (part .s4 b3 = .error f ∨ ∃ r4 b4, part .s4 b3 = .ok (r4, b4) ∧
      vmBlock s.cfg s.mem ⟨s.vmodPhase, s.voices⟩ (b4.map (fun b => fmul b s.masterAmplitude)) = .error f)))) ∧
  (∀ (c : Config) (m : Memory) (k : Slot) (mode : OscMode) (r : SlotRegs) (x : F32) (xs : List F32),
    m.wf c = true → c.N ≤ 65535 → c.M ≤ 2 ^ 24 → r.oscActive = true →
    (isFinite r.osc.phase = false → slotBlock c m k mode r (x :: xs) = .error .indexUndefined) ∧
    (isFinite r.osc.phase = true → inRange c.N r.osc.phase = false →
      slotBlock c m k mode r (x :: xs) = .error .tableIndexOutOfRange) ∧
    (∀ o buf, oscBlock c m k mode r.osc (x :: xs) = .ok (o, buf) → r.envActive = true →
      r.env.stage = .attack ∨ r.env.stage = .decay ∨ r.env.stage = .release →
      (isFinite r.env.phaseIndex = false → slotBlock c m k mode r (x :: xs) = .error .indexUndefined) ∧
      (isFinite r.env.phaseIndex = true → inRange c.M r.env.phaseIndex = false →
        slotBlock c m k mode r (x :: xs) = .error .tableIndexOutOfRange))) ∧
  (∀ (c : Config) (m : Memory) (p : F32) (voices : List (Option Voice)) (b : F32) (bs : List F32),
    m.wf c = true → c.N ≤ 65535 →
    (isFinite p = false → vmBlock c m ⟨p, voices⟩ (b :: bs) = .error .indexUndefined) ∧
    (isFinite p = true → inRange c.N p = false →
      vmBlock c m ⟨p, voices⟩ (b :: bs) = .error .tableIndexOutOfRange) ∧
    (∀ (j : Nat) (v : Voice), inRange c.N p = true → voices[j]? = some (some v) →
      (∀ i : Nat, i < j → voices[i]? = some none) →
      (isFinite v.phase = false → vmBlock c m ⟨p, voices⟩ (b :: bs) = .error .indexUndefined) ∧
      (isFinite v.phase = true → inRange c.N v.phase = false →
        vmBlock c m ⟨p, voices⟩ (b :: bs) = .error .tableIndexOutOfRange)))

/-- Splitting a run of samples into two blocks changes neither the outputs nor the end state (70_reset_and_hazards.md
R306, decision D40): only the pointer differs, by the second header word. Where a result is NaN, that both runs
yield the same NaN is the model's choice (log 3). -/
def Obligations.BlockSplittingChangesNothing : Prop :=
  ∀ (s t : State) (xs ys : List F32), exec (.process (xs ++ ys)) s = .next t ↔
    ∃ s1 t1, exec (.process xs) s = .next s1 ∧ exec (.process ys) s1 = .next t1 ∧
      t = { t1 with cp := s.cp + (1 + (xs ++ ys).length) }

/-- Running a slot block-wise (all oscillator steps, then all envelope steps) and sample-wise gives the same samples
and the same end state, and the one completes exactly when the other does (44_router.md R239). Where a result is
NaN, that both runs yield the same NaN is the model's choice (log 3). -/
def Obligations.BlockwiseEqualsSamplewise : Prop :=
  ∀ (c : Config) (m : Memory) (k : Slot) (mode : OscMode) (r r' : SlotRegs) (xs ys : List F32),
    slotBlock c m k mode r xs = .ok (r', ys) ↔ runBlock (slotSample c m k mode) r xs = .ok (r', ys)

/-- `SETALG`, `TOGGLE`, `SETMFREQ`, `SETMAMP` (44_router.md R244 to R247, 30_encoding.md R85; decisions D13, D32): the
algorithm for an identifier of 1 to 4; one flag of one slot inverted for a kind of 0 or 1, so that two equal
toggles restore it; a master frequency greater than 0, every slot's frequency becoming its factor times it; a
master amplitude in `[0, 1]`. Anything else only advances. -/
def Obligations.RouterConfigurationCommandsResult : Prop :=
  (∀ (s : State) (imm : BitVec 16),
    (imm = 1#16 → exec (.setalg imm) s = .next { s with currentAlgorithm := .a1, cp := s.cp + 1 }) ∧
    (imm = 2#16 → exec (.setalg imm) s = .next { s with currentAlgorithm := .a2, cp := s.cp + 1 }) ∧
    (imm = 3#16 → exec (.setalg imm) s = .next { s with currentAlgorithm := .a3, cp := s.cp + 1 }) ∧
    (imm = 4#16 → exec (.setalg imm) s = .next { s with currentAlgorithm := .a4, cp := s.cp + 1 }) ∧
    (imm = 0#16 ∨ 5 ≤ imm.toNat → exec (.setalg imm) s = .next { s with cp := s.cp + 1 })) ∧
  (∀ (s : State) (field : BitVec 8) (imm : BitVec 16),
    (∀ k, slotOf field = some k →
      (imm = 0#16 → exec (.toggle field imm) s = .next { s with
        slots := s.slots.set k { s.slots.get k with oscActive := !(s.slots.get k).oscActive }
        cp := s.cp + 1 }) ∧
      (imm = 1#16 → exec (.toggle field imm) s = .next { s with
        slots := s.slots.set k { s.slots.get k with envActive := !(s.slots.get k).envActive }
        cp := s.cp + 1 })) ∧
    (2 ≤ imm.toNat ∨ slotOf field = none → exec (.toggle field imm) s = .next { s with cp := s.cp + 1 }) ∧
    (∀ t u, exec (.toggle field imm) s = .next t → exec (.toggle field imm) t = .next u →
      u = { s with cp := s.cp + 2 })) ∧
  (∀ (s : State) (f : F32),
    (fgt f F32.zero = true → exec (.setmfreq f) s = .next { s with
      masterFrequency := f
      slots := s.slots.map (fun r =>
        { r with osc := { r.osc with frequency := fmul r.osc.frequencyFactor f } })
      cp := s.cp + 2 }) ∧
    (fgt f F32.zero = false → exec (.setmfreq f) s = .next { s with cp := s.cp + 2 })) ∧
  (∀ (s : State) (a : F32),
    (fge a F32.zero = true → fle a F32.one = true →
      exec (.setmamp a) s = .next { s with masterAmplitude := a, cp := s.cp + 2 }) ∧
    (fge a F32.zero = false ∨ fle a F32.one = false →
      exec (.setmamp a) s = .next { s with cp := s.cp + 2 }))

end
end

