-- ==== Sys2Proof/Laws/State.lean ====
section
/-! SUPPORT. What each named update of the state writes and keeps: one lemma per field per update, and the laws of
the per-slot containers. -/

namespace Sys2Proof

/-! ### Slots -/

@[simp] theorem Slots.get_set_same {α : Type} (x : Slots α) (k : Slot) (v : α) : (x.set k v).get k = v := by
  cases k <;> rfl

theorem Slots.get_set_other {α : Type} (x : Slots α) {k j : Slot} (v : α) (h : j ≠ k) :
    (x.set k v).get j = x.get j := by
  cases k <;> cases j <;> first | rfl | exact absurd rfl h

theorem Slots.get_set {α : Type} (x : Slots α) (k j : Slot) (v : α) :
    (x.set k v).get j = if j = k then v else x.get j := by
  cases k <;> cases j <;> rfl

@[simp] theorem Slots.get_map {α β : Type} (f : α → β) (x : Slots α) (k : Slot) :
    (x.map f).get k = f (x.get k) := by
  cases k <;> rfl

@[simp] theorem Slots.get_all {α : Type} (v : α) (k : Slot) : (Slots.all v).get k = v := by
  cases k <;> rfl

@[simp] theorem Slots.set_get {α : Type} (x : Slots α) (k : Slot) : x.set k (x.get k) = x := by
  cases k <;> rfl

/-- Four equal components make equal containers. -/
theorem Slots.ext_get {α : Type} {x y : Slots α} (h : ∀ k, x.get k = y.get k) : x = y := by
  have h1 := h .s1
  have h2 := h .s2
  have h3 := h .s3
  have h4 := h .s4
  cases x; cases y
  simp only [Slots.get] at h1 h2 h3 h4
  subst h1 h2 h3 h4
  rfl

end Sys2Proof

namespace Sys2Proof.Machine

/-! ### `State.advance` -/

@[simp] theorem State.advance_cfg (s : State) (n : Nat) : (s.advance n).cfg = s.cfg := rfl
@[simp] theorem State.advance_masterFrequency (s : State) (n : Nat) : (s.advance n).masterFrequency = s.masterFrequency := rfl
@[simp] theorem State.advance_masterAmplitude (s : State) (n : Nat) : (s.advance n).masterAmplitude = s.masterAmplitude := rfl
@[simp] theorem State.advance_currentAlgorithm (s : State) (n : Nat) : (s.advance n).currentAlgorithm = s.currentAlgorithm := rfl
@[simp] theorem State.advance_slots (s : State) (n : Nat) : (s.advance n).slots = s.slots := rfl
@[simp] theorem State.advance_vmodPhase (s : State) (n : Nat) : (s.advance n).vmodPhase = s.vmodPhase := rfl
@[simp] theorem State.advance_voices (s : State) (n : Nat) : (s.advance n).voices = s.voices := rfl
@[simp] theorem State.advance_mem (s : State) (n : Nat) : (s.advance n).mem = s.mem := rfl
@[simp] theorem State.advance_cp (s : State) (n : Nat) : (s.advance n).cp = s.cp + n := rfl
@[simp] theorem State.advance_cmd (s : State) (n : Nat) : (s.advance n).cmd = s.cmd := rfl
@[simp] theorem State.advance_out (s : State) (n : Nat) : (s.advance n).out = s.out := rfl

/-! ### `State.setSlot` -/

@[simp] theorem State.setSlot_cfg (s : State) (k : Slot) (r : SlotRegs) : (s.setSlot k r).cfg = s.cfg := rfl
@[simp] theorem State.setSlot_masterFrequency (s : State) (k : Slot) (r : SlotRegs) : (s.setSlot k r).masterFrequency = s.masterFrequency := rfl
@[simp] theorem State.setSlot_masterAmplitude (s : State) (k : Slot) (r : SlotRegs) : (s.setSlot k r).masterAmplitude = s.masterAmplitude := rfl
@[simp] theorem State.setSlot_currentAlgorithm (s : State) (k : Slot) (r : SlotRegs) : (s.setSlot k r).currentAlgorithm = s.currentAlgorithm := rfl
@[simp] theorem State.setSlot_slots (s : State) (k : Slot) (r : SlotRegs) : (s.setSlot k r).slots = s.slots.set k r := rfl
@[simp] theorem State.setSlot_vmodPhase (s : State) (k : Slot) (r : SlotRegs) : (s.setSlot k r).vmodPhase = s.vmodPhase := rfl
@[simp] theorem State.setSlot_voices (s : State) (k : Slot) (r : SlotRegs) : (s.setSlot k r).voices = s.voices := rfl
@[simp] theorem State.setSlot_mem (s : State) (k : Slot) (r : SlotRegs) : (s.setSlot k r).mem = s.mem := rfl
@[simp] theorem State.setSlot_cp (s : State) (k : Slot) (r : SlotRegs) : (s.setSlot k r).cp = s.cp := rfl
@[simp] theorem State.setSlot_cmd (s : State) (k : Slot) (r : SlotRegs) : (s.setSlot k r).cmd = s.cmd := rfl
@[simp] theorem State.setSlot_out (s : State) (k : Slot) (r : SlotRegs) : (s.setSlot k r).out = s.out := rfl

/-! ### `State.setOsc` -/

@[simp] theorem State.setOsc_cfg (s : State) (k : Slot) (o : Osc) : (s.setOsc k o).cfg = s.cfg := rfl
@[simp] theorem State.setOsc_masterFrequency (s : State) (k : Slot) (o : Osc) : (s.setOsc k o).masterFrequency = s.masterFrequency := rfl
@[simp] theorem State.setOsc_masterAmplitude (s : State) (k : Slot) (o : Osc) : (s.setOsc k o).masterAmplitude = s.masterAmplitude := rfl
@[simp] theorem State.setOsc_currentAlgorithm (s : State) (k : Slot) (o : Osc) : (s.setOsc k o).currentAlgorithm = s.currentAlgorithm := rfl
@[simp] theorem State.setOsc_slots (s : State) (k : Slot) (o : Osc) : (s.setOsc k o).slots = s.slots.set k { s.slots.get k with osc := o } := rfl
@[simp] theorem State.setOsc_vmodPhase (s : State) (k : Slot) (o : Osc) : (s.setOsc k o).vmodPhase = s.vmodPhase := rfl
@[simp] theorem State.setOsc_voices (s : State) (k : Slot) (o : Osc) : (s.setOsc k o).voices = s.voices := rfl
@[simp] theorem State.setOsc_mem (s : State) (k : Slot) (o : Osc) : (s.setOsc k o).mem = s.mem := rfl
@[simp] theorem State.setOsc_cp (s : State) (k : Slot) (o : Osc) : (s.setOsc k o).cp = s.cp := rfl
@[simp] theorem State.setOsc_cmd (s : State) (k : Slot) (o : Osc) : (s.setOsc k o).cmd = s.cmd := rfl
@[simp] theorem State.setOsc_out (s : State) (k : Slot) (o : Osc) : (s.setOsc k o).out = s.out := rfl

/-! ### `State.setEnv` -/

@[simp] theorem State.setEnv_cfg (s : State) (k : Slot) (e : Env) : (s.setEnv k e).cfg = s.cfg := rfl
@[simp] theorem State.setEnv_masterFrequency (s : State) (k : Slot) (e : Env) : (s.setEnv k e).masterFrequency = s.masterFrequency := rfl
@[simp] theorem State.setEnv_masterAmplitude (s : State) (k : Slot) (e : Env) : (s.setEnv k e).masterAmplitude = s.masterAmplitude := rfl
@[simp] theorem State.setEnv_currentAlgorithm (s : State) (k : Slot) (e : Env) : (s.setEnv k e).currentAlgorithm = s.currentAlgorithm := rfl
@[simp] theorem State.setEnv_slots (s : State) (k : Slot) (e : Env) : (s.setEnv k e).slots = s.slots.set k { s.slots.get k with env := e } := rfl
@[simp] theorem State.setEnv_vmodPhase (s : State) (k : Slot) (e : Env) : (s.setEnv k e).vmodPhase = s.vmodPhase := rfl
@[simp] theorem State.setEnv_voices (s : State) (k : Slot) (e : Env) : (s.setEnv k e).voices = s.voices := rfl
@[simp] theorem State.setEnv_mem (s : State) (k : Slot) (e : Env) : (s.setEnv k e).mem = s.mem := rfl
@[simp] theorem State.setEnv_cp (s : State) (k : Slot) (e : Env) : (s.setEnv k e).cp = s.cp := rfl
@[simp] theorem State.setEnv_cmd (s : State) (k : Slot) (e : Env) : (s.setEnv k e).cmd = s.cmd := rfl
@[simp] theorem State.setEnv_out (s : State) (k : Slot) (e : Env) : (s.setEnv k e).out = s.out := rfl

/-! ### `State.setMem` -/

@[simp] theorem State.setMem_cfg (s : State) (m : Memory) : (s.setMem m).cfg = s.cfg := rfl
@[simp] theorem State.setMem_masterFrequency (s : State) (m : Memory) : (s.setMem m).masterFrequency = s.masterFrequency := rfl
@[simp] theorem State.setMem_masterAmplitude (s : State) (m : Memory) : (s.setMem m).masterAmplitude = s.masterAmplitude := rfl
@[simp] theorem State.setMem_currentAlgorithm (s : State) (m : Memory) : (s.setMem m).currentAlgorithm = s.currentAlgorithm := rfl
@[simp] theorem State.setMem_slots (s : State) (m : Memory) : (s.setMem m).slots = s.slots := rfl
@[simp] theorem State.setMem_vmodPhase (s : State) (m : Memory) : (s.setMem m).vmodPhase = s.vmodPhase := rfl
@[simp] theorem State.setMem_voices (s : State) (m : Memory) : (s.setMem m).voices = s.voices := rfl
@[simp] theorem State.setMem_mem (s : State) (m : Memory) : (s.setMem m).mem = m := rfl
@[simp] theorem State.setMem_cp (s : State) (m : Memory) : (s.setMem m).cp = s.cp := rfl
@[simp] theorem State.setMem_cmd (s : State) (m : Memory) : (s.setMem m).cmd = s.cmd := rfl
@[simp] theorem State.setMem_out (s : State) (m : Memory) : (s.setMem m).out = s.out := rfl

/-! ### `State.skipReserved` -/

@[simp] theorem State.skipReserved_cfg (s : State) : s.skipReserved.cfg = s.cfg := rfl
@[simp] theorem State.skipReserved_masterFrequency (s : State) : s.skipReserved.masterFrequency = s.masterFrequency := rfl
@[simp] theorem State.skipReserved_masterAmplitude (s : State) : s.skipReserved.masterAmplitude = s.masterAmplitude := rfl
@[simp] theorem State.skipReserved_currentAlgorithm (s : State) : s.skipReserved.currentAlgorithm = s.currentAlgorithm := rfl
@[simp] theorem State.skipReserved_slots (s : State) : s.skipReserved.slots = s.slots := rfl
@[simp] theorem State.skipReserved_vmodPhase (s : State) : s.skipReserved.vmodPhase = s.vmodPhase := rfl
@[simp] theorem State.skipReserved_voices (s : State) : s.skipReserved.voices = s.voices := rfl
@[simp] theorem State.skipReserved_mem (s : State) : s.skipReserved.mem = s.mem := rfl
@[simp] theorem State.skipReserved_cp (s : State) : s.skipReserved.cp = s.cp + 1 := rfl
@[simp] theorem State.skipReserved_cmd (s : State) : s.skipReserved.cmd = s.cmd := rfl
@[simp] theorem State.skipReserved_out (s : State) : s.skipReserved.out = s.out := rfl

/-! ### `State.commitBlock` -/

@[simp] theorem State.commitBlock_cfg (s : State) (b : BlockResult) : (s.commitBlock b).cfg = s.cfg := rfl
@[simp] theorem State.commitBlock_masterFrequency (s : State) (b : BlockResult) : (s.commitBlock b).masterFrequency = s.masterFrequency := rfl
@[simp] theorem State.commitBlock_masterAmplitude (s : State) (b : BlockResult) : (s.commitBlock b).masterAmplitude = s.masterAmplitude := rfl
@[simp] theorem State.commitBlock_currentAlgorithm (s : State) (b : BlockResult) : (s.commitBlock b).currentAlgorithm = s.currentAlgorithm := rfl
@[simp] theorem State.commitBlock_slots (s : State) (b : BlockResult) : (s.commitBlock b).slots = b.slots := rfl
@[simp] theorem State.commitBlock_vmodPhase (s : State) (b : BlockResult) : (s.commitBlock b).vmodPhase = b.vm.phase := rfl
@[simp] theorem State.commitBlock_voices (s : State) (b : BlockResult) : (s.commitBlock b).voices = b.vm.voices := rfl
@[simp] theorem State.commitBlock_mem (s : State) (b : BlockResult) : (s.commitBlock b).mem = s.mem := rfl
@[simp] theorem State.commitBlock_cp (s : State) (b : BlockResult) : (s.commitBlock b).cp = s.cp := rfl
@[simp] theorem State.commitBlock_cmd (s : State) (b : BlockResult) : (s.commitBlock b).cmd = s.cmd := rfl
@[simp] theorem State.commitBlock_out (s : State) (b : BlockResult) : (s.commitBlock b).out = s.out ++ b.output := rfl

/-! ### `State.deliverAtCp` -/

@[simp] theorem State.deliverAtCp_cfg (s : State) (ws : List Word) : (s.deliverAtCp ws).cfg = s.cfg := rfl
@[simp] theorem State.deliverAtCp_masterFrequency (s : State) (ws : List Word) : (s.deliverAtCp ws).masterFrequency = s.masterFrequency := rfl
@[simp] theorem State.deliverAtCp_masterAmplitude (s : State) (ws : List Word) : (s.deliverAtCp ws).masterAmplitude = s.masterAmplitude := rfl
@[simp] theorem State.deliverAtCp_currentAlgorithm (s : State) (ws : List Word) : (s.deliverAtCp ws).currentAlgorithm = s.currentAlgorithm := rfl
@[simp] theorem State.deliverAtCp_slots (s : State) (ws : List Word) : (s.deliverAtCp ws).slots = s.slots := rfl
@[simp] theorem State.deliverAtCp_vmodPhase (s : State) (ws : List Word) : (s.deliverAtCp ws).vmodPhase = s.vmodPhase := rfl
@[simp] theorem State.deliverAtCp_voices (s : State) (ws : List Word) : (s.deliverAtCp ws).voices = s.voices := rfl
@[simp] theorem State.deliverAtCp_mem (s : State) (ws : List Word) : (s.deliverAtCp ws).mem = s.mem := rfl
@[simp] theorem State.deliverAtCp_cp (s : State) (ws : List Word) : (s.deliverAtCp ws).cp = s.cp := rfl
@[simp] theorem State.deliverAtCp_out (s : State) (ws : List Word) : (s.deliverAtCp ws).out = s.out := rfl

/-- The delivered words are what the next step reads first. -/
theorem State.fetch_deliverAtCp (s : State) (ws : List Word) :
    (s.deliverAtCp ws).fetch = ws ++ s.cmd.drop (s.cp + ws.length) := by
  have h : (s.cmd.take s.cp ++ List.replicate (s.cp - s.cmd.length) 0#32).length = s.cp := by
    simp; omega
  rw [State.fetch, State.deliverAtCp]
  simp only [List.append_assoc]
  rw [← List.append_assoc (List.take _ _)]
  exact List.drop_left' h

end Sys2Proof.Machine
end

