-- ==== Sys2Proof/Laws/Block.lean ====
section
/-! SUPPORT. Laws of computations that may end in a model fault, and of a step run over a block of samples: what
holds of one sample holds of the block. -/

namespace Sys2Proof.Machine

/-! ### Computations that may fault -/

/-- A sequence succeeds exactly when both parts do. -/
theorem bind_eq_ok {α β : Type} {x : Except Fault α} {f : α → Except Fault β} {b : β} :
    (x >>= f) = .ok b ↔ ∃ a, x = .ok a ∧ f a = .ok b := by
  cases x with
  | ok a => simp [bind, Except.bind]
  | error e => simp [bind, Except.bind]

theorem bind_eq_error {α β : Type} {x : Except Fault α} {f : α → Except Fault β} {e : Fault} :
    (x >>= f) = .error e ↔ x = .error e ∨ ∃ a, x = .ok a ∧ f a = .error e := by
  cases x with
  | ok a => simp [bind, Except.bind]
  | error e' => simp [bind, Except.bind]

@[simp] theorem ok_bind {α β : Type} (a : α) (f : α → Except Fault β) : (Except.ok a >>= f) = f a := rfl

@[simp] theorem error_bind {α β : Type} (e : Fault) (f : α → Except Fault β) :
    ((Except.error e : Except Fault α) >>= f) = .error e := rfl

/-! ### `runBlock` -/

section
variable {σ : Type} {f : σ → F32 → Except Fault (σ × F32)}

@[simp] theorem runBlock_nil (st : σ) : runBlock f st [] = .ok (st, []) := rfl

/-- A block of at least one sample runs exactly when its first sample and the rest do. -/
theorem runBlock_cons_ok {st st' : σ} {x : F32} {xs ys : List F32} :
    runBlock f st (x :: xs) = .ok (st', ys) ↔
      ∃ st1 y zs, f st x = .ok (st1, y) ∧ runBlock f st1 xs = .ok (st', zs) ∧ ys = y :: zs := by
  simp only [runBlock, bind_eq_ok, Except.ok.injEq, Prod.mk.injEq, Prod.exists]
  constructor
  · rintro ⟨s1, y, h1, s2, zs, h2, rfl, rfl⟩; exact ⟨s1, y, zs, h1, h2, rfl⟩
  · rintro ⟨s1, y, zs, h1, h2, rfl⟩; exact ⟨s1, y, h1, st', zs, h2, rfl, rfl⟩

/-- A block split in two runs exactly when the two parts do, one after the other (70_reset_and_hazards.md
R306). -/
theorem runBlock_append_ok {st st' : σ} {xs xs' ys : List F32} :
    runBlock f st (xs ++ xs') = .ok (st', ys) ↔
      ∃ st1 zs zs', runBlock f st xs = .ok (st1, zs) ∧ runBlock f st1 xs' = .ok (st', zs') ∧
        ys = zs ++ zs' := by
  induction xs generalizing st ys with
  | nil =>
    constructor
    · intro h; exact ⟨st, [], ys, rfl, h, rfl⟩
    · rintro ⟨s1, zs, zs', h1, h2, rfl⟩
      cases h1; exact h2
  | cons x xs ih =>
    rw [List.cons_append, runBlock_cons_ok]
    constructor
    · rintro ⟨s1, y, zs, h1, h2, rfl⟩
      obtain ⟨s2, us, us', h3, h4, rfl⟩ := ih.1 h2
      exact ⟨s2, y :: us, us', runBlock_cons_ok.2 ⟨s1, y, us, h1, h3, rfl⟩, h4, rfl⟩
    · rintro ⟨s2, us, us', h1, h2, rfl⟩
      obtain ⟨s1, y, zs, h3, h4, rfl⟩ := runBlock_cons_ok.1 h1
      exact ⟨s1, y, zs ++ us', h3, ih.2 ⟨s2, zs, us', h4, h2, rfl⟩, rfl⟩

/-- A block that runs yields one sample for each of its samples. -/
theorem runBlock_length {st st' : σ} {xs ys : List F32} (h : runBlock f st xs = .ok (st', ys)) :
    ys.length = xs.length := by
  induction xs generalizing st ys with
  | nil => cases h; rfl
  | cons x xs ih =>
    obtain ⟨s1, y, zs, _, h2, rfl⟩ := runBlock_cons_ok.1 h
    simp [ih h2]

/-- What every sample keeps, the block keeps. -/
theorem runBlock_invariant {P : σ → Prop} (hstep : ∀ st x st' y, P st → f st x = .ok (st', y) → P st')
    {st st' : σ} {xs ys : List F32} (h0 : P st) (h : runBlock f st xs = .ok (st', ys)) : P st' := by
  induction xs generalizing st ys with
  | nil => cases h; exact h0
  | cons x xs ih =>
    obtain ⟨s1, y, zs, h1, h2, rfl⟩ := runBlock_cons_ok.1 h
    exact ih (hstep st x s1 y h0 h1) h2

/-- Where every sample runs and keeps what lets the next one run, the block runs. -/
theorem runBlock_total {P : σ → Prop} (hstep : ∀ st x, P st → ∃ st' y, f st x = .ok (st', y) ∧ P st')
    {st : σ} (xs : List F32) (h0 : P st) : ∃ st' ys, runBlock f st xs = .ok (st', ys) ∧ P st' := by
  induction xs generalizing st with
  | nil => exact ⟨st, [], rfl, h0⟩
  | cons x xs ih =>
    obtain ⟨s1, y, h1, h2⟩ := hstep st x h0
    obtain ⟨s2, ys, h3, h4⟩ := ih h2
    exact ⟨s2, y :: ys, runBlock_cons_ok.2 ⟨s1, y, ys, h1, h3, rfl⟩, h4⟩

/-- A first sample that faults makes the block fault. -/
theorem runBlock_first_fault {st : σ} {x : F32} {xs : List F32} {e : Fault} (h : f st x = .error e) :
    runBlock f st (x :: xs) = .error e := by
  simp [runBlock, h]

/-- A block faults only as one of its samples does. -/
theorem runBlock_error {Q : Fault → Prop} (hstep : ∀ st x e, f st x = .error e → Q e) {st : σ} {xs : List F32}
    {e : Fault} (h : runBlock f st xs = .error e) : Q e := by
  induction xs generalizing st with
  | nil => cases h
  | cons x xs ih =>
    rw [runBlock, bind_eq_error] at h
    rcases h with h | ⟨⟨s1, y⟩, _, h⟩
    · exact hstep _ _ _ h
    · simp only [bind_eq_error] at h
      rcases h with h | ⟨⟨s2, ys⟩, _, h⟩
      · exact ih h
      · cases h

end

end Sys2Proof.Machine
end

