-- ==== Sys2Proof/Laws/Commands.lean ====
section
/-! SUPPORT. What each setter and note event can write: its frame as one equation over the state, and the slots it
leaves alone. -/

namespace Sys2Proof.Machine

/-! ### Slot selection -/

theorem onSlot_some {field : BitVec 8} {k : Slot} (h : slotOf field = some k) (f : Slot → State → State) (s : State) :
    onSlot field f s = f k s := by
  simp [onSlot, h]

theorem onSlot_none {field : BitVec 8} (h : slotOf field = none) (f : Slot → State → State) (s : State) :
    onSlot field f s = s := by
  simp [onSlot, h]

/-- What holds of the state as it is and of the effect on every slot holds of a slot-addressed effect. -/
theorem onSlot_induction {P : State → Prop} {field : BitVec 8} {f : Slot → State → State} {s : State} (h0 : P s)
    (h1 : ∀ k, slotOf field = some k → P (f k s)) : P (onSlot field f s) := by
  cases h : slotOf field with
  | none => rw [onSlot_none h]; exact h0
  | some k => rw [onSlot_some h]; exact h1 k h

/-! ### Frames: a setter writes the registers of its own slot only -/

theorem setFrequency_frame (k : Slot) (f : F32) (s : State) :
    setFrequency k f s = { s with slots := (setFrequency k f s).slots } := rfl

theorem setAmplitude_frame (k : Slot) (a : F32) (s : State) :
    setAmplitude k a s = { s with slots := (setAmplitude k a s).slots } := rfl

theorem setFrequencyFactor_frame (k : Slot) (master factor : F32) (s : State) :
    setFrequencyFactor k master factor s =
      { s with slots := (setFrequencyFactor k master factor s).slots } := by
  unfold setFrequencyFactor; dsimp only; split <;> rfl

theorem setADSR_frame (k : Slot) (a d su r : F32) (s : State) :
    setADSR k a d su r s = { s with slots := (setADSR k a d su r s).slots } := rfl

theorem setSilentAndSustainTime_frame (k : Slot) (x y : F32) (s : State) :
    setSilentAndSustainTime k x y s = { s with slots := (setSilentAndSustainTime k x y s).slots } := rfl

theorem setEnvMode_frame (k : Slot) (imm : BitVec 16) (s : State) :
    setEnvMode k imm s = { s with slots := (setEnvMode k imm s).slots } := by
  unfold setEnvMode; split <;> rfl

theorem toggleActive_frame (k : Slot) (kind : BitVec 16) (s : State) :
    toggleActive k kind s = { s with slots := (toggleActive k kind s).slots } := by
  unfold toggleActive; split <;> rfl

/-- `setQ` also writes the table memories. -/
theorem setQ_frame (k : Slot) (qa qd qr : F32) (s : State) :
    setQ k qa qd qr s = { s with slots := (setQ k qa qd qr s).slots, mem := (setQ k qa qd qr s).mem } := rfl

theorem loadWaveTable_frame (k : Slot) (samples : List F32) (s : State) :
    loadWaveTable k samples s = { s with mem := (loadWaveTable k samples s).mem } := by
  unfold loadWaveTable; split <;> rfl

theorem setMasterFrequency_frame (f : F32) (s : State) :
    setMasterFrequency f s = { s with
      masterFrequency := (setMasterFrequency f s).masterFrequency, slots := (setMasterFrequency f s).slots } := by
  unfold setMasterFrequency; split <;> rfl

/-! ### The other slots -/

theorem setFrequency_other {k j : Slot} (h : j ≠ k) (f : F32) (s : State) :
    (setFrequency k f s).slots.get j = s.slots.get j := Slots.get_set_other _ _ h

theorem setAmplitude_other {k j : Slot} (h : j ≠ k) (a : F32) (s : State) :
    (setAmplitude k a s).slots.get j = s.slots.get j := Slots.get_set_other _ _ h

theorem setFrequencyFactor_other {k j : Slot} (h : j ≠ k) (master factor : F32) (s : State) :
    (setFrequencyFactor k master factor s).slots.get j = s.slots.get j := by
  unfold setFrequencyFactor; dsimp only; split
  · exact Slots.get_set_other _ _ h
  · rfl

theorem setADSR_other {k j : Slot} (h : j ≠ k) (a d su r : F32) (s : State) :
    (setADSR k a d su r s).slots.get j = s.slots.get j := Slots.get_set_other _ _ h

theorem setSilentAndSustainTime_other {k j : Slot} (h : j ≠ k) (x y : F32) (s : State) :
    (setSilentAndSustainTime k x y s).slots.get j = s.slots.get j := Slots.get_set_other _ _ h

theorem setEnvMode_other {k j : Slot} (h : j ≠ k) (imm : BitVec 16) (s : State) :
    (setEnvMode k imm s).slots.get j = s.slots.get j := by
  unfold setEnvMode; split
  · exact Slots.get_set_other _ _ h
  · rfl

theorem toggleActive_other {k j : Slot} (h : j ≠ k) (kind : BitVec 16) (s : State) :
    (toggleActive k kind s).slots.get j = s.slots.get j := by
  unfold toggleActive; split
  · exact Slots.get_set_other _ _ h
  · rfl

theorem setQ_other {k j : Slot} (h : j ≠ k) (qa qd qr : F32) (s : State) :
    (setQ k qa qd qr s).slots.get j = s.slots.get j := Slots.get_set_other _ _ h

/-! ### The slot itself -/

theorem setAmplitude_same (k : Slot) (a : F32) (s : State) :
    (setAmplitude k a s).slots.get k = { s.slots.get k with
      osc := { (s.slots.get k).osc with amplitude := accept (inUnit a) a (s.slots.get k).osc.amplitude } } :=
  Slots.get_set_same _ _ _

theorem setFrequencyFactor_same (k : Slot) (master factor : F32) (s : State) :
    (setFrequencyFactor k master factor s).slots.get k =
      if positive factor then { s.slots.get k with
        osc := { (s.slots.get k).osc with frequencyFactor := factor, frequency := fmul factor master } }
      else s.slots.get k := by
  unfold setFrequencyFactor; dsimp only; split
  · exact Slots.get_set_same _ _ _
  · rfl

theorem setADSR_same (k : Slot) (a d su r : F32) (s : State) :
    (setADSR k a d su r s).slots.get k = { s.slots.get k with
      env := { (s.slots.get k).env with
        attackTime   := accept (inUnit a) a (s.slots.get k).env.attackTime
        decayTime    := accept (inUnit d) d (s.slots.get k).env.decayTime
        sustainLevel := accept (inUnit su) su (s.slots.get k).env.sustainLevel
        releaseTime  := accept (inUnit r) r (s.slots.get k).env.releaseTime } } :=
  Slots.get_set_same _ _ _

theorem setSilentAndSustainTime_same (k : Slot) (x y : F32) (s : State) :
    (setSilentAndSustainTime k x y s).slots.get k = { s.slots.get k with
      env := { (s.slots.get k).env with
        silentTime      := accept (positive x) x (s.slots.get k).env.silentTime
        sustainLoopTime := accept (positive y) y (s.slots.get k).env.sustainLoopTime } } :=
  Slots.get_set_same _ _ _

theorem setQ_same (k : Slot) (qa qd qr : F32) (s : State) :
    (setQ k qa qd qr s).slots.get k = { s.slots.get k with env := acceptQ qa qd qr (s.slots.get k).env } :=
  Slots.get_set_same _ _ _

theorem setEnvMode_same (k : Slot) (imm : BitVec 16) (s : State) :
    (setEnvMode k imm s).slots.get k = { s.slots.get k with
      env := { (s.slots.get k).env with mode := (envModeOf imm).getD (s.slots.get k).env.mode } } := by
  unfold setEnvMode
  cases h : envModeOf imm with
  | none => simp
  | some mode => exact Slots.get_set_same _ _ _

theorem toggleActive_same (k : Slot) (kind : BitVec 16) (s : State) :
    (toggleActive k kind s).slots.get k =
      ((toggleKindOf kind).map (s.slots.get k).toggle).getD (s.slots.get k) := by
  unfold toggleActive
  cases h : toggleKindOf kind with
  | none => rfl
  | some t => exact Slots.get_set_same _ _ _

@[simp] theorem SlotRegs.toggle_osc (r : SlotRegs) (t : ToggleKind) : (r.toggle t).osc = r.osc := by cases t <;> rfl

@[simp] theorem SlotRegs.toggle_env (r : SlotRegs) (t : ToggleKind) : (r.toggle t).env = r.env := by cases t <;> rfl

/-! ### The table memories after `setQ` and `loadWaveTable` -/

theorem setQ_mem (k : Slot) (qa qd qr : F32) (s : State) :
    (setQ k qa qd qr s).mem = rebuildCurves s.cfg k (acceptQ qa qd qr (s.slots.get k).env) s.mem := rfl

theorem loadWaveTable_mem (k : Slot) (samples : List F32) (s : State) :
    (loadWaveTable k samples s).mem =
      if samples.length = s.cfg.N then s.mem.replace (.wt k) samples else s.mem := by
  unfold loadWaveTable; split <;> rfl

/-! ### Acceptance -/

@[simp] theorem accept_true (argument prior : F32) : accept true argument prior = argument := rfl

@[simp] theorem accept_false (argument prior : F32) : accept false argument prior = prior := rfl

@[simp] theorem accept_self (test : Bool) (v : F32) : accept test v v = v := by cases test <;> rfl

/-- A slot written with its own registers is no write. -/
@[simp] theorem State.setOsc_self (s : State) (k : Slot) : s.setOsc k (s.slots.get k).osc = s := by
  have : s.slots.set k { s.slots.get k with osc := (s.slots.get k).osc } = s.slots := Slots.set_get _ _
  simp only [State.setOsc, State.setSlot, this]

@[simp] theorem State.setEnv_self (s : State) (k : Slot) : s.setEnv k (s.slots.get k).env = s := by
  have : s.slots.set k { s.slots.get k with env := (s.slots.get k).env } = s.slots := Slots.set_get _ _
  simp only [State.setEnv, State.setSlot, this]

@[simp] theorem State.setMem_self (s : State) : s.setMem s.mem = s := rfl

theorem accept_keeps {P : F32 → Prop} {test : Bool} {argument prior : F32} (h0 : P prior)
    (h1 : test = true → P argument) : P (accept test argument prior) := by
  unfold accept; split
  · exact h1 ‹_›
  · exact h0

end Sys2Proof.Machine
end

