-- ==== Sys2Proof/Laws/Construct.lean ====
section
/-! SUPPORT. What a valid configuration gives: the bounds of its sizes and the facts about its tables. -/

namespace Sys2Proof

open Sys2Proof.Machine

/-- The sizes of a valid configuration (70_reset_and_hazards.md R291). -/
theorem Config.valid_sizes {c : Config} (h : c.valid = true) :
    (1 ≤ c.N ∧ c.N ≤ 65535) ∧ (1 ≤ c.M ∧ c.M ≤ 2 ^ 24) ∧ 1 ≤ c.pool ∧ 1 ≤ c.C := by
  simp only [Config.valid, Bool.and_eq_true, decide_eq_true_eq] at h
  tauto

/-- The values of a valid configuration (70_reset_and_hazards.md R291). -/
theorem Config.valid_values {c : Config} (h : c.valid = true) :
    positive c.masterFreqReset = true ∧ c.stageScale.valid = true ∧ isFinite c.adsrMax = true ∧
      isFinite c.vmModFreq = true ∧ isFinite c.vmModAmp = true ∧ ∀ v ∈ c.vmCurve, isFinite v = true := by
  simp only [Config.valid, Bool.and_eq_true, List.all_eq_true] at h
  tauto

/-- The sine table of a valid configuration (00_scope.md R9). -/
theorem Config.valid_sinTab {c : Config} (h : c.valid = true) :
    c.sinTab.length = c.N ∧ c.sinTab.head? = some F32.zero ∧ ∀ v ∈ c.sinTab, signedUnit v = true := by
  simp only [Config.valid, sinTabValid, Bool.and_eq_true, decide_eq_true_eq, List.all_eq_true] at h
  tauto

end Sys2Proof
end

