-- ==== Sys2Proof/Laws/Memory.lean ====
section
/-! SUPPORT. Laws of the table memories: read after write, what a replacement keeps, and that every memory
operation keeps the canonical form. -/

namespace Sys2Proof.Machine

/-! ### Replacing a table -/

/-- A replaced writable space holds the new elements. -/
theorem Memory.table_replace_same (m : Memory) {sp : Space} (t : List F32) (h : sp.writable = true) :
    (m.replace sp t).table sp = t := by
  cases sp <;> simp_all [Memory.replace, Memory.table, Space.writable]

/-- Every other space keeps its elements. -/
theorem Memory.table_replace_other (m : Memory) {sp sp' : Space} (t : List F32) (h : sp' ≠ sp) :
    (m.replace sp t).table sp' = m.table sp' := by
  cases sp <;> cases sp' <;> simp [Memory.replace, Memory.table] <;>
    first | exact absurd rfl h | exact Slots.get_set_other _ _ (fun e => h (by rw [e]))

/-- A replacement of a space by its own elements changes nothing. -/
theorem Memory.replace_table (m : Memory) (sp : Space) : m.replace sp (m.table sp) = m := by
  cases sp <;> simp [Memory.replace, Memory.table]

/-- Memories with equal tables are equal data. -/
theorem Memory.ext_table {m m' : Memory} (h : ∀ sp, m.table sp = m'.table sp) : m = m' := by
  have h1 : m.wt = m'.wt := Slots.ext_get fun k => h (.wt k)
  have h2 : m.ea = m'.ea := Slots.ext_get fun k => h (.ea k)
  have h3 : m.ed = m'.ed := Slots.ext_get fun k => h (.ed k)
  have h4 : m.er = m'.er := Slots.ext_get fun k => h (.er k)
  have h5 : m.sine = m'.sine := h .sine
  have h6 : m.vmcurve = m'.vmcurve := h .vmcurve
  cases m; cases m'
  simp only at h1 h2 h3 h4 h5 h6
  subst h1 h2 h3 h4 h5 h6
  rfl

/-! ### The canonical form -/

/-- The canonical form: every space has its size. -/
theorem Memory.wf_iff (c : Config) (m : Memory) :
    m.wf c = true ↔ ∀ sp, (m.table sp).length = sp.size c := by
  constructor
  · intro h sp
    simp [Memory.wf, and_assoc] at h
    rcases sp with k | k | k | k | _ | _ <;> first | (cases k <;> simp_all [Memory.table, Space.size]) | simp_all [Memory.table, Space.size]
  · intro h
    have hw := fun k => h (.wt k)
    have ha := fun k => h (.ea k)
    have hd := fun k => h (.ed k)
    have hr := fun k => h (.er k)
    have hs := h .sine
    have hv := h .vmcurve
    simp only [Memory.table, Space.size] at hw ha hd hr hs hv
    simp [Memory.wf, hw, ha, hd, hr, hs, hv]

/-- A replacement by a table of the right size keeps the canonical form. -/
theorem Memory.wf_replace {c : Config} {m : Memory} {sp : Space} {t : List F32} (h : m.wf c = true)
    (ht : t.length = sp.size c) : (m.replace sp t).wf c = true := by
  rw [Memory.wf_iff] at h ⊢
  intro sp'
  by_cases he : sp' = sp
  · subst he
    cases hw : sp'.writable
    · have : m.replace sp' t = m := by cases sp' <;> first | rfl | cases hw
      rw [this]; exact h sp'
    · rw [Memory.table_replace_same m t hw, ht]
  · rw [Memory.table_replace_other m t he]; exact h sp'

/-- The curves that `SETQ` builds have the size of their spaces. -/
theorem Memory.wf_rebuildCurves {c : Config} {m : Memory} (k : Slot) (e : Env) (h : m.wf c = true) :
    (rebuildCurves c k e m).wf c = true :=
  Memory.wf_replace (Memory.wf_replace (Memory.wf_replace h (by simp [slopeUp, build, Space.size]))
    (by simp [slopeDown, build, Space.size])) (by simp [slopeDown, build, Space.size])

/-- The memories of a valid configuration after reset are in canonical form. -/
theorem Memory.wf_reset {c : Config} (h : c.valid = true) : (Memory.reset c).wf c = true := by
  have hl : c.sinTab.length = c.N := by
    simp [Config.valid, sinTabValid] at h
    tauto
  rw [Memory.wf_iff]
  intro sp
  cases sp <;> simp [Memory.table, Memory.reset, Space.size, sineTable, slopeUp, slopeDown, build, hl]

/-! ### Element access -/

/-- `MemRead` in range is the element. -/
theorem Memory.read_of_lt (m : Memory) (sp : Space) {i : Nat} (h : i < (m.table sp).length) :
    m.read sp i = .ok (m.table sp)[i] := by
  simp [Memory.read, h]

/-- `MemRead` out of range is the model fault. -/
theorem Memory.read_out_of_range (m : Memory) (sp : Space) {i : Int}
    (h : i < 0 ∨ ((m.table sp).length : Int) ≤ i) : m.read sp i = .error .tableIndexOutOfRange := by
  unfold Memory.read
  split_ifs with h0
  · rfl
  · rw [List.getElem?_eq_none (by omega)]

/-- A write in range of a writable space replaces one element. -/
theorem Memory.write_of_lt (m : Memory) {sp : Space} {i : Nat} (v : F32) (hw : sp.writable = true)
    (h : i < (m.table sp).length) : m.write sp i v = .ok (m.replace sp ((m.table sp).set i v)) := by
  have : ¬ ((i : Int) < 0 ∨ ((m.table sp).length : Int) ≤ i ∨ sp.writable = false) := by
    simp [hw, h]
  rw [Memory.write, if_neg this]
  simp

/-- A write that succeeds keeps the canonical form. -/
theorem Memory.wf_write {c : Config} {m m' : Memory} {sp : Space} {i : Int} {v : F32}
    (h : m.wf c = true) (hw : m.write sp i v = .ok m') : m'.wf c = true := by
  unfold Memory.write at hw
  split_ifs at hw
  cases hw
  exact Memory.wf_replace h (by rw [List.length_set]; exact (Memory.wf_iff c m).1 h sp)

/-- Reading the element just written gives the value written. -/
theorem Memory.read_write_same {m m' : Memory} {sp : Space} {i : Int} {v : F32}
    (hw : m.write sp i v = .ok m') : m'.read sp i = .ok v := by
  unfold Memory.write at hw
  split_ifs at hw with hc
  cases hw
  push Not at hc
  have hi : ((i.toNat : Nat) : Int) = i := Int.toNat_of_nonneg (by omega)
  have hlt : i.toNat < (m.table sp).length := by omega
  rw [Memory.read, if_neg (by omega), Memory.table_replace_same _ _ (by simpa using hc.2.2)]
  simp [hlt]

/-- A write leaves every other element alone. -/
theorem Memory.read_write_other {m m' : Memory} {sp sp' : Space} {i j : Int} {v : F32}
    (hw : m.write sp i v = .ok m') (hne : sp' ≠ sp ∨ j ≠ i) : m'.read sp' j = m.read sp' j := by
  unfold Memory.write at hw
  split_ifs at hw with hc
  cases hw
  push Not at hc
  by_cases he : sp' = sp
  · subst he
    have hji : j ≠ i := hne.resolve_left (fun h => h rfl)
    unfold Memory.read
    rw [Memory.table_replace_same _ _ (by simpa using hc.2.2)]
    by_cases hj : j < 0
    · simp [hj]
    · rw [if_neg hj, if_neg hj, List.getElem?_set_ne (by omega)]
  · unfold Memory.read
    rw [Memory.table_replace_other _ _ he]

/-- The `MemWrite`s of `LOADTAB` (41_oscillator.md R148), one per element from index `i` on. -/
def Memory.writeFrom (sp : Space) : Nat → List F32 → Memory → Except Fault Memory
  | _, [], m => .ok m
  | i, v :: vs, m => do
    let m1 ← m.write sp i v
    Memory.writeFrom sp (i + 1) vs m1

theorem Memory.replace_replace (m : Memory) (sp : Space) (t t' : List F32) :
    (m.replace sp t).replace sp t' = m.replace sp t' := by
  apply Memory.ext_table
  intro sp'
  by_cases he : sp' = sp
  · subst he
    cases hw : sp'.writable
    · cases sp' <;> first | rfl | cases hw
    · rw [Memory.table_replace_same _ _ hw, Memory.table_replace_same _ _ hw]
  · rw [Memory.table_replace_other _ _ he, Memory.table_replace_other _ _ he,
      Memory.table_replace_other _ _ he]

theorem Memory.writeFrom_eq {sp : Space} (hw : sp.writable = true) (vs : List F32) (i : Nat) (m : Memory)
    (hl : i + vs.length = (m.table sp).length) :
    Memory.writeFrom sp i vs m = .ok (m.replace sp ((m.table sp).take i ++ vs)) := by
  induction vs generalizing i m with
  | nil =>
    have : (m.table sp).take i = m.table sp := List.take_of_length_le (by simp at hl; omega)
    rw [Memory.writeFrom, List.append_nil, this, Memory.replace_table]
  | cons v vs ih =>
    have hlt : i < (m.table sp).length := by simp at hl; omega
    have htab := Memory.table_replace_same m ((m.table sp).set i v) hw
    rw [Memory.writeFrom, Memory.write_of_lt m v hw hlt]
    show Memory.writeFrom sp (i + 1) vs _ = _
    rw [ih (i + 1) _ (by rw [htab, List.length_set]; simp at hl; omega), htab, Memory.replace_replace]
    congr 2
    rw [List.take_set, List.take_succ_eq_append_getElem hlt, List.set_append_right _ _ (by simp)]
    simp [Nat.min_eq_left (Nat.le_of_lt hlt)]

/-- Writing every element of a writable space in ascending order is the replacement of the whole space
(20_memory.md R69). -/
theorem Memory.writeFrom_zero_eq_replace {sp : Space} (hw : sp.writable = true) (vs : List F32) (m : Memory)
    (hl : vs.length = (m.table sp).length) : Memory.writeFrom sp 0 vs m = .ok (m.replace sp vs) := by
  rw [Memory.writeFrom_eq hw vs 0 m (by simpa using hl)]
  simp

end Sys2Proof.Machine
end

