-- ==== Sys2Proof/Laws/Float.lean ====
section
/-! SUPPORT. Laws of the binary32 arithmetic: exact values are ordered as the patterns are, rounding is
squeezed between representable values, and what the comparisons and operations say of finite values. -/

namespace Sys2Proof.Machine

/-! ### Patterns -/

theorem magBits_lt (v : F32) : magBits v < 2147483648 := Nat.mod_lt _ (by decide)

theorem signBit_eq (v : F32) : signBit v = decide (2147483648 ≤ v.toNat) := by
  have h := v.isLt
  rw [signBit, BitVec.getLsbD, Nat.testBit_eq_decide_div_mod_eq]
  congr 1
  have : v.toNat / 2 ^ 31 < 2 := by omega
  apply propext
  constructor <;> intro h' <;> omega

theorem ofSignMag_toNat (neg : Bool) {m : Nat} (h : m < 2147483648) :
    (ofSignMag neg m).toNat = (if neg then 2147483648 else 0) + m := by
  rw [ofSignMag, BitVec.toNat_ofNat]
  apply Nat.mod_eq_of_lt
  cases neg
  · simp; omega
  · simp; omega

@[simp] theorem magBits_ofSignMag (neg : Bool) {m : Nat} (h : m < 2147483648) :
    magBits (ofSignMag neg m) = m := by
  rw [magBits, ofSignMag_toNat neg h]
  cases neg
  · simp; omega
  · simp; omega

@[simp] theorem signBit_ofSignMag (neg : Bool) {m : Nat} (h : m < 2147483648) :
    signBit (ofSignMag neg m) = neg := by
  rw [signBit_eq, ofSignMag_toNat neg h]
  cases neg
  · simp; omega
  · simp

/-- A pattern is its sign bit and its magnitude. -/
theorem ofSignMag_signBit_magBits (v : F32) : ofSignMag (signBit v) (magBits v) = v := by
  apply BitVec.eq_of_toNat_eq
  rw [ofSignMag_toNat _ (magBits_lt v), signBit_eq, magBits]
  have h := v.isLt
  by_cases hs : 2147483648 ≤ v.toNat
  · simp [hs]; omega
  · simp [hs]; omega

@[simp] theorem magBits_fneg (v : F32) : magBits (fneg v) = magBits v :=
  magBits_ofSignMag _ (magBits_lt v)

@[simp] theorem signBit_fneg (v : F32) : signBit (fneg v) = !signBit v :=
  signBit_ofSignMag _ (magBits_lt v)

/-- Negation negates the exact value. -/
@[simp] theorem units_fneg (v : F32) : units (fneg v) = -units v := by
  simp only [units, magBits_fneg, signBit_fneg]
  cases signBit v <;> simp

theorem isFinite_iff (v : F32) : isFinite v = true ↔ magBits v < infMag := by simp [isFinite]

theorem not_isNaN_of_isFinite {v : F32} (h : isFinite v = true) : isNaN v = false := by
  simp [isFinite] at h
  simp [isNaN]; omega

theorem not_isInf_of_isFinite {v : F32} (h : isFinite v = true) : isInf v = false := by
  simp [isFinite] at h
  simp [isInf]; omega

/-- The free NaN results are NaNs. -/
theorem isNaN_nanResult (op : ArithOp) (a b : F32) : isNaN (nanResult op a b) = true := by
  have h := (Config.nanFraction op a b).isLt
  have hm : infMag + 1 + (Config.nanFraction op a b).val < 2147483648 := by
    simp only [infMag]; omega
  simp only [isNaN, nanResult, magBits_ofSignMag _ hm, decide_eq_true_eq]
  omega

/-! ### Exact values of magnitudes -/

/-- A magnitude with a significand of 24 bits: `c` times `2^k` units. -/
theorem unitsOfMag_scaled {c k : Nat} (h1 : 8388608 ≤ c) (h2 : c ≤ 16777216) :
    unitsOfMag (k * 8388608 + c) = c * 2 ^ k := by
  unfold unitsOfMag
  rw [if_neg (by omega)]
  rcases Nat.lt_or_eq_of_le h2 with h | rfl
  · have e1 : (k * 8388608 + c) % 8388608 = c - 8388608 := by omega
    have e2 : (k * 8388608 + c) / 8388608 = k + 1 := by omega
    rw [e1, e2, Nat.add_sub_cancel, show 8388608 + (c - 8388608) = c by omega]
  · have e1 : (k * 8388608 + 16777216) % 8388608 = 0 := by omega
    have e2 : (k * 8388608 + 16777216) / 8388608 - 1 = k + 1 := by omega
    rw [e1, e2, show (16777216 : Nat) = 8388608 * 2 by decide, Nat.add_zero, Nat.pow_succ', Nat.mul_assoc]

theorem unitsOfMag_small {m : Nat} (h : m ≤ 16777216) : unitsOfMag m = m := by
  by_cases h' : m < 8388608
  · rw [unitsOfMag, if_pos h']
  · simpa using unitsOfMag_scaled (c := m) (k := 0) (by omega) h

/-- Every magnitude of at least `2^23` has a 24-bit significand. -/
theorem mag_scaled {m : Nat} (h : 8388608 ≤ m) :
    ∃ k c, m = k * 8388608 + c ∧ 8388608 ≤ c ∧ c < 16777216 :=
  ⟨m / 8388608 - 1, m - (m / 8388608 - 1) * 8388608, by omega, by omega, by omega⟩

theorem unitsOfMag_lt_succ (m : Nat) : unitsOfMag m < unitsOfMag (m + 1) := by
  by_cases h : m < 8388608
  · rw [unitsOfMag_small (by omega), unitsOfMag_small (by omega)]; omega
  · obtain ⟨k, c, rfl, h1, h2⟩ := mag_scaled (m := m) (by omega)
    rw [unitsOfMag_scaled h1 (by omega), Nat.add_assoc, unitsOfMag_scaled (by omega) (by omega)]
    exact Nat.mul_lt_mul_of_pos_right (by omega) (Nat.two_pow_pos k)

theorem unitsOfMag_lt {a b : Nat} (h : a < b) : unitsOfMag a < unitsOfMag b := by
  induction h with
  | refl => exact unitsOfMag_lt_succ a
  | step _ ih => exact Nat.lt_trans ih (unitsOfMag_lt_succ _)

theorem unitsOfMag_le_iff {a b : Nat} : unitsOfMag a ≤ unitsOfMag b ↔ a ≤ b := by
  constructor
  · intro h
    by_contra hc
    have := unitsOfMag_lt (show b < a by omega)
    omega
  · intro h
    rcases Nat.lt_or_eq_of_le h with h | rfl
    · exact Nat.le_of_lt (unitsOfMag_lt h)
    · exact Nat.le_refl _

theorem unitsOfMag_lt_iff {a b : Nat} : unitsOfMag a < unitsOfMag b ↔ a < b := by
  have := unitsOfMag_le_iff (a := b) (b := a)
  omega

@[simp] theorem unitsOfMag_zero : unitsOfMag 0 = 0 := by decide

/-- Twice an exact value is an exact value. -/
theorem unitsOfMag_double (m : Nat) : ∃ m', unitsOfMag m' = 2 * unitsOfMag m := by
  by_cases h : m < 8388608
  · exact ⟨2 * m, by rw [unitsOfMag_small (by omega), unitsOfMag_small (by omega)]⟩
  · obtain ⟨k, c, rfl, h1, h2⟩ := mag_scaled (m := m) (by omega)
    refine ⟨(k + 1) * 8388608 + c, ?_⟩
    rw [unitsOfMag_scaled h1 (by omega), unitsOfMag_scaled h1 (by omega), Nat.pow_succ]
    ring

/-! ### Rounding -/

theorem roundHalfEven_le {num den q : Nat} (hd : 0 < den) (h : num ≤ q * den) :
    roundHalfEven num den ≤ q := by
  have e := Nat.div_add_mod num den
  have hr := Nat.mod_lt num hd
  unfold roundHalfEven
  by_cases hq : num / den < q
  · dsimp only; split_ifs <;> omega
  · have h1 : num / den ≤ q := by
      rw [Nat.div_le_iff_le_mul_add_pred hd]; nlinarith
    have h2 : num / den = q := by omega
    have h3 : num % den = 0 := by
      rw [h2, Nat.mul_comm] at e; omega
    simp only [h2, h3]
    rw [if_pos (by omega)]

theorem le_roundHalfEven {num den q : Nat} (hd : 0 < den) (h : q * den ≤ num) :
    q ≤ roundHalfEven num den := by
  have h1 : q ≤ num / den := (Nat.le_div_iff_mul_le hd).2 h
  unfold roundHalfEven
  dsimp only; split_ifs <;> omega

@[simp] theorem roundHalfEven_exact (q : Nat) {den : Nat} (hd : 0 < den) :
    roundHalfEven (q * den) den = q :=
  Nat.le_antisymm (roundHalfEven_le hd (Nat.le_refl _)) (le_roundHalfEven hd (Nat.le_refl _))

/-- Before it is limited to infinity, a rounded magnitude is its significand on its scale. -/
theorem round_scale {num den : Nat} (hd : 0 < den) :
    let k := Nat.log2 (num / den) - 23
    num < 16777216 * 2 ^ k * den ∧ (1 ≤ k → 8388608 * 2 ^ k * den ≤ num) := by
  intro k
  by_cases h0 : num / den = 0
  · have hk : k = 0 := by simp [k, h0]
    have := Nat.lt_of_div_eq_zero hd h0
    rw [hk]
    exact ⟨by omega, by omega⟩
  · have hlo := Nat.log2_self_le h0
    have hhi := Nat.lt_log2_self (n := num / den)
    constructor
    · have h1 : num / den < 16777216 * 2 ^ k := by
        refine Nat.lt_of_lt_of_le hhi ?_
        rw [show (16777216 : Nat) = 2 ^ 24 from rfl, ← Nat.pow_add]
        exact Nat.pow_le_pow_right (by decide) (by omega)
      exact (Nat.div_lt_iff_lt_mul hd).1 h1
    · intro hk
      have h1 : 8388608 * 2 ^ k ≤ num / den := by
        refine Nat.le_trans ?_ hlo
        rw [show (8388608 : Nat) = 2 ^ 23 from rfl, ← Nat.pow_add]
        exact Nat.pow_le_pow_right (by decide) (by omega)
      exact (Nat.le_div_iff_mul_le hd).1 h1

theorem roundUnits_le_infMag (num den : Nat) : roundUnits num den ≤ infMag := Nat.min_le_right _ _

/-- A value not above a representable one rounds to nothing above it. -/
theorem roundUnits_le {num den m : Nat} (hd : 0 < den) (h : num ≤ unitsOfMag m * den) :
    roundUnits num den ≤ m := by
  obtain ⟨_, hlo⟩ := round_scale (num := num) hd
  unfold roundUnits
  set k := Nat.log2 (num / den) - 23 with hk
  refine Nat.le_trans (Nat.min_le_left _ _) ?_
  have hdk : 0 < den * 2 ^ k := Nat.mul_pos hd (Nat.two_pow_pos k)
  by_cases hm : m < 8388608
  · rw [unitsOfMag_small (by omega)] at h
    rcases Nat.eq_zero_or_pos k with h0 | h0
    · rw [h0]; simp only [Nat.zero_mul, Nat.zero_add, Nat.pow_zero, Nat.mul_one]
      exact roundHalfEven_le hd h
    · have := hlo h0
      have hp := Nat.two_pow_pos k
      have : m * den < 8388608 * 2 ^ k * den := by
        apply Nat.mul_lt_mul_of_pos_right _ hd
        calc m < 8388608 * 1 := by omega
          _ ≤ 8388608 * 2 ^ k := Nat.mul_le_mul_left _ hp
      omega
  · obtain ⟨j, c, rfl, h1, h2⟩ := mag_scaled (m := m) (by omega)
    rw [unitsOfMag_scaled h1 (by omega)] at h
    rcases Nat.lt_trichotomy k j with hkj | hkj | hkj
    · have hr : roundHalfEven num (den * 2 ^ k) ≤ 16777216 := by
        apply roundHalfEven_le hdk
        have := (round_scale (num := num) hd).1
        rw [← hk] at this
        calc num ≤ 16777216 * 2 ^ k * den := by omega
          _ = 16777216 * (den * 2 ^ k) := by ring
      have : (k + 1) * 8388608 ≤ j * 8388608 := Nat.mul_le_mul_right _ hkj
      omega
    · have hr : roundHalfEven num (den * 2 ^ k) ≤ c := by
        apply roundHalfEven_le hdk
        rw [hkj]
        calc num ≤ c * 2 ^ j * den := h
          _ = c * (den * 2 ^ j) := by ring
      omega
    · exfalso
      have := hlo (by omega)
      have h3 : c * 2 ^ j < 8388608 * 2 ^ k := by
        calc c * 2 ^ j < 16777216 * 2 ^ j := Nat.mul_lt_mul_of_pos_right h2 (Nat.two_pow_pos j)
          _ = 8388608 * 2 ^ (j + 1) := by ring
          _ ≤ 8388608 * 2 ^ k :=
            Nat.mul_le_mul_left _ (Nat.pow_le_pow_right (by decide) (by omega))
      have h4 : c * 2 ^ j * den < 8388608 * 2 ^ k * den := Nat.mul_lt_mul_of_pos_right h3 hd
      omega

/-- A value not below a representable one rounds to nothing below it. -/
theorem le_roundUnits {num den m : Nat} (hd : 0 < den) (hm : m ≤ infMag)
    (h : unitsOfMag m * den ≤ num) : m ≤ roundUnits num den := by
  obtain ⟨hhi, hlo⟩ := round_scale (num := num) hd
  unfold roundUnits
  set k := Nat.log2 (num / den) - 23 with hk
  refine Nat.le_min.2 ⟨?_, hm⟩
  have hdk : 0 < den * 2 ^ k := Nat.mul_pos hd (Nat.two_pow_pos k)
  have hr0 : 1 ≤ k → 8388608 ≤ roundHalfEven num (den * 2 ^ k) := fun h0 => by
    apply le_roundHalfEven hdk
    calc 8388608 * (den * 2 ^ k) = 8388608 * 2 ^ k * den := by ring
      _ ≤ num := hlo h0
  by_cases hs : m < 8388608
  · rw [unitsOfMag_small (by omega)] at h
    rcases Nat.eq_zero_or_pos k with h0 | h0
    · rw [h0]; simp only [Nat.zero_mul, Nat.zero_add, Nat.pow_zero, Nat.mul_one]
      exact le_roundHalfEven hd h
    · have := hr0 h0
      omega
  · obtain ⟨j, c, rfl, h1, h2⟩ := mag_scaled (m := m) (by omega)
    rw [unitsOfMag_scaled h1 (by omega)] at h
    rcases Nat.lt_trichotomy k j with hkj | hkj | hkj
    · exfalso
      have h3 : 16777216 * 2 ^ k ≤ c * 2 ^ j := by
        calc 16777216 * 2 ^ k = 8388608 * 2 ^ (k + 1) := by ring
          _ ≤ 8388608 * 2 ^ j :=
            Nat.mul_le_mul_left _ (Nat.pow_le_pow_right (by decide) (by omega))
          _ ≤ c * 2 ^ j := Nat.mul_le_mul_right _ h1
      have h4 : 16777216 * 2 ^ k * den ≤ c * 2 ^ j * den := Nat.mul_le_mul_right _ h3
      omega
    · have hr : c ≤ roundHalfEven num (den * 2 ^ k) := by
        apply le_roundHalfEven hdk
        rw [hkj]
        calc c * (den * 2 ^ j) = c * 2 ^ j * den := by ring
          _ ≤ num := h
      omega
    · have := hr0 (by omega)
      have : (j + 1) * 8388608 ≤ k * 8388608 := Nat.mul_le_mul_right _ hkj
      omega

/-- A representable value rounds to itself. -/
theorem roundUnits_exact {m : Nat} (h : m ≤ infMag) : roundUnits (unitsOfMag m) 1 = m :=
  Nat.le_antisymm (roundUnits_le (by decide) (by omega)) (le_roundUnits (by decide) h (by omega))

/-- Rounding is monotone. -/
theorem roundHalfEven_mono {num num' den : Nat} (h : num ≤ num') :
    roundHalfEven num den ≤ roundHalfEven num' den := by
  have e := Nat.div_add_mod num den
  have e' := Nat.div_add_mod num' den
  have hq : num / den ≤ num' / den := Nat.div_le_div_right h
  unfold roundHalfEven
  dsimp only
  rcases Nat.lt_or_eq_of_le hq with hq | hq
  · split_ifs <;> omega
  · rw [hq] at e ⊢
    split_ifs <;> omega

/-- A larger exact value rounds to no smaller a magnitude. -/
theorem roundUnits_mono {num num' den : Nat} (hd : 0 < den) (h : num ≤ num') :
    roundUnits num den ≤ roundUnits num' den := by
  obtain ⟨h1, _⟩ := round_scale (num := num) hd
  obtain ⟨_, h2'⟩ := round_scale (num := num') hd
  have hk : Nat.log2 (num / den) - 23 ≤ Nat.log2 (num' / den) - 23 := by
    have hq : num / den ≤ num' / den := Nat.div_le_div_right h
    have : Nat.log2 (num / den) ≤ Nat.log2 (num' / den) := by
      rw [Nat.log2_eq_log_two, Nat.log2_eq_log_two]; exact Nat.log_mono_right hq
    omega
  unfold roundUnits
  dsimp only
  generalize Nat.log2 (num / den) - 23 = k at *
  generalize Nat.log2 (num' / den) - 23 = k' at *
  have hD := Nat.mul_pos hd (Nat.two_pow_pos k)
  have hD' := Nat.mul_pos hd (Nat.two_pow_pos k')
  refine min_le_min_right infMag ?_
  have key : k * 8388608 + roundHalfEven num (den * 2 ^ k) ≤ k' * 8388608 + roundHalfEven num' (den * 2 ^ k') := by
    rcases Nat.lt_or_eq_of_le hk with hlt | rfl
    · have a : roundHalfEven num (den * 2 ^ k) ≤ 16777216 := roundHalfEven_le hD (by
        calc num ≤ 16777216 * 2 ^ k * den := by omega
          _ = 16777216 * (den * 2 ^ k) := by ring)
      have b : 8388608 ≤ roundHalfEven num' (den * 2 ^ k') := le_roundHalfEven hD' (by
        calc 8388608 * (den * 2 ^ k') = 8388608 * 2 ^ k' * den := by ring
          _ ≤ num' := h2' (by omega))
      omega
    · exact Nat.add_le_add_left (roundHalfEven_mono h) _
  exact key

/-! ### Comparisons are comparisons of the exact values -/

theorem unitsOfMag_pos_iff {m : Nat} : 0 < unitsOfMag m ↔ 0 < m := by
  simpa using unitsOfMag_lt_iff (a := 0) (b := m)

theorem orderKey_lt_iff (a b : F32) : orderKey a < orderKey b ↔ units a < units b := by
  have h1 := unitsOfMag_lt_iff (a := magBits a) (b := magBits b)
  have h2 := unitsOfMag_lt_iff (a := magBits b) (b := magBits a)
  have ha := unitsOfMag_pos_iff (m := magBits a)
  have hb := unitsOfMag_pos_iff (m := magBits b)
  unfold orderKey units
  cases signBit a <;> cases signBit b <;> simp <;> omega

theorem flt_iff (a b : F32) :
    flt a b = true ↔ isNaN a = false ∧ isNaN b = false ∧ units a < units b := by
  simp [flt, orderKey_lt_iff, and_assoc]

theorem fle_iff (a b : F32) :
    fle a b = true ↔ isNaN a = false ∧ isNaN b = false ∧ units a ≤ units b := by
  have h := orderKey_lt_iff b a
  simp only [fle, Bool.and_eq_true, Bool.not_eq_true', decide_eq_true_eq, and_assoc]
  refine and_congr_right fun _ => and_congr_right fun _ => ?_
  omega

theorem fge_iff (a b : F32) :
    fge a b = true ↔ isNaN a = false ∧ isNaN b = false ∧ units b ≤ units a := by
  rw [fge, fle_iff]; tauto

/-- On operands that are no NaN, the comparisons are the order of the exact values. -/
theorem fge_eq_false_iff {a b : F32} (ha : isNaN a = false) (hb : isNaN b = false) :
    fge a b = false ↔ units a < units b := by
  have h := fge_iff a b
  cases hc : fge a b
  · simp [hc, ha, hb] at h ⊢; omega
  · simp [hc, ha, hb] at h ⊢; omega

@[simp] theorem units_zero : units F32.zero = 0 := by decide
@[simp] theorem isNaN_zero : isNaN F32.zero = false := by decide
@[simp] theorem isFinite_zero : isFinite F32.zero = true := by decide
@[simp] theorem isNaN_one : isNaN F32.one = false := by decide

/-! ### The rounded operations on finite operands -/

/-- A sum of finite operands is the rounded exact sum; a zero sum is `+0.0` unless both operands are
negative zeros. -/
theorem addNumbers_of_finite {a b : F32} (ha : isFinite a = true) (hb : isFinite b = true) :
    addNumbers a b =
      if units a + units b = 0 then ofSignMag (signBit a && signBit b) 0
      else ofSignMag (decide (units a + units b < 0)) (roundUnits (units a + units b).natAbs 1) := by
  simp [addNumbers, not_isInf_of_isFinite ha, not_isInf_of_isFinite hb]

theorem fadd_of_finite {a b : F32} (ha : isFinite a = true) (hb : isFinite b = true) :
    fadd a b = addNumbers a b := by
  simp [fadd, not_isNaN_of_isFinite ha, not_isNaN_of_isFinite hb, not_isInf_of_isFinite ha]

theorem fsub_of_finite {a b : F32} (ha : isFinite a = true) (hb : isFinite b = true) :
    fsub a b = addNumbers a (fneg b) := by
  simp [fsub, not_isNaN_of_isFinite ha, not_isNaN_of_isFinite hb, not_isInf_of_isFinite ha]

@[simp] theorem isFinite_fneg (v : F32) : isFinite (fneg v) = isFinite v := by simp [isFinite]

theorem infMag_lt : infMag < 2147483648 := by decide

/-- The magnitude of a rounded value. -/
@[simp] theorem magBits_rounded (neg : Bool) (num den : Nat) :
    magBits (ofSignMag neg (roundUnits num den)) = roundUnits num den :=
  magBits_ofSignMag neg (Nat.lt_of_le_of_lt (roundUnits_le_infMag num den) infMag_lt)

@[simp] theorem signBit_rounded (neg : Bool) (num den : Nat) :
    signBit (ofSignMag neg (roundUnits num den)) = neg :=
  signBit_ofSignMag neg (Nat.lt_of_le_of_lt (roundUnits_le_infMag num den) infMag_lt)

/-- A sum of finite operands with a non-negative exact value that is not above a finite magnitude `m` is a
finite value between zero and that magnitude. -/
theorem addNumbers_bounds {a b : F32} {m : Nat} (ha : isFinite a = true) (hb : isFinite b = true)
    (h0 : 0 ≤ units a + units b) (hm : units a + units b ≤ (unitsOfMag m : Int)) :
    magBits (addNumbers a b) ≤ m ∧ (0 < magBits (addNumbers a b) → signBit (addNumbers a b) = false) := by
  rw [addNumbers_of_finite ha hb]
  split_ifs with hz
  · simp
  · rw [magBits_rounded, signBit_rounded]
    refine ⟨roundUnits_le (by decide) (by omega), fun _ => ?_⟩
    simp; omega

/-! ### Integers as binary32 values -/

/-- `i2f` is exact up to `2^24` (00_scope.md R11). -/
theorem i2f_exact {n : Nat} (h : n ≤ 16777216) :
    isFinite (i2f n) = true ∧ units (i2f n) = (n * unitsPerOne : Nat) ∧ signBit (i2f n) = false := by
  rcases Nat.eq_zero_or_pos n with rfl | hn
  · decide
  · have hne : n ≠ 0 := by omega
    have hlog : n < 2 ^ (Nat.log2 n + 1) := Nat.lt_log2_self
    have hlog' : 2 ^ Nat.log2 n ≤ n := Nat.log2_self_le hne
    obtain ⟨m, hm, hmi⟩ : ∃ m, unitsOfMag m = n * unitsPerOne ∧ m < infMag := by
      by_cases hbig : n = 16777216
      · subst hbig
        refine ⟨150 * 8388608 + 8388608, ?_, by decide⟩
        rw [unitsOfMag_scaled (by omega) (by omega)]
        decide
      · have hl : Nat.log2 n ≤ 23 := by
          by_contra hc
          have : 2 ^ 24 ≤ 2 ^ Nat.log2 n := Nat.pow_le_pow_right (by decide) (by omega)
          omega
        obtain ⟨d, hd⟩ : ∃ d, Nat.log2 n + d = 23 := ⟨23 - Nat.log2 n, by omega⟩
        refine ⟨(149 - d) * 8388608 + n * 2 ^ d, ?_, ?_⟩
        · rw [unitsOfMag_scaled]
          · rw [Nat.mul_assoc, ← Nat.pow_add, show d + (149 - d) = 149 by omega]
          · calc 8388608 = 2 ^ Nat.log2 n * 2 ^ d := by rw [← Nat.pow_add, hd]
              _ ≤ n * 2 ^ d := Nat.mul_le_mul_right _ hlog'
          · calc n * 2 ^ d ≤ 2 ^ (Nat.log2 n + 1) * 2 ^ d := Nat.mul_le_mul_right _ (Nat.le_of_lt hlog)
              _ = 16777216 := by rw [← Nat.pow_add, show Nat.log2 n + 1 + d = 24 by omega]
        · have h1 : n * 2 ^ d ≤ 16777216 := by
            calc n * 2 ^ d ≤ 2 ^ (Nat.log2 n + 1) * 2 ^ d := Nat.mul_le_mul_right _ (Nat.le_of_lt hlog)
              _ = 16777216 := by rw [← Nat.pow_add, show Nat.log2 n + 1 + d = 24 by omega]
          simp only [infMag]; omega
    have hr : roundUnits (n * unitsPerOne) 1 = m := by
      rw [← hm]; exact roundUnits_exact (Nat.le_of_lt hmi)
    have hv : i2f n = ofSignMag false m := by rw [i2f, hr]
    have hlt : m < 2147483648 := Nat.lt_trans hmi infMag_lt
    refine ⟨?_, ?_, ?_⟩
    · rw [hv, isFinite_iff, magBits_ofSignMag _ hlt]; exact hmi
    · rw [hv, units, signBit_ofSignMag _ hlt, magBits_ofSignMag _ hlt, hm]; simp
    · rw [hv, signBit_ofSignMag _ hlt]

end Sys2Proof.Machine
end

