-- ==== Sys2Proof/Laws/Phase.lean ====
section
/-! SUPPORT. Phases in `[0, size)`: what advancing one keeps, and that its lookup finds an element. -/

namespace Sys2Proof.Machine

theorem isNaN_i2f {n : Nat} (h : n ≤ 16777216) : isNaN (i2f n) = false :=
  not_isNaN_of_isFinite (i2f_exact h).1

/-- A phase is in `[0, size)` when it is finite and its exact value is. -/
theorem inRange_iff {size : Nat} (hs : size ≤ 16777216) (v : F32) :
    inRange size v = true ↔ isFinite v = true ∧ 0 ≤ units v ∧ units v < (size * unitsPerOne : Nat) := by
  rw [inRange, Bool.and_eq_true, Bool.and_eq_true, fge_iff, flt_iff, units_zero, (i2f_exact hs).2.1]
  constructor
  · rintro ⟨⟨hf, _, _, h0⟩, _, _, h1⟩; exact ⟨hf, h0, h1⟩
  · rintro ⟨hf, h0, h1⟩
    have := not_isNaN_of_isFinite hf
    exact ⟨⟨hf, this, isNaN_zero, h0⟩, this, isNaN_i2f hs, h1⟩

/-- A pattern with the sign of a non-negative value, or of a zero. -/
theorem units_of_sign {v : F32} (h : 0 < magBits v → signBit v = false) :
    units v = unitsOfMag (magBits v) := by
  rcases Nat.eq_zero_or_pos (magBits v) with h0 | h0
  · simp [units, h0]
  · simp [units, h h0]

theorem units_natAbs (v : F32) : (units v).natAbs = unitsOfMag (magBits v) := by
  unfold units; cases signBit v <;> simp

/-- Twice a magnitude's exact value lies at most one exponent higher. -/
theorem double_le {m e : Nat} (h : unitsOfMag e = 2 * unitsOfMag m) : e ≤ m + 8388608 := by
  rw [← unitsOfMag_le_iff, h]
  by_cases h8 : m < 8388608
  · rw [unitsOfMag_small (m := m) (by omega), unitsOfMag_small (m := m + 8388608) (by omega)]
    omega
  · obtain ⟨k, c, rfl, h1, h2⟩ := mag_scaled (m := m) (by omega)
    have e1 : k * 8388608 + c + 8388608 = (k + 1) * 8388608 + c := by omega
    rw [e1, unitsOfMag_scaled h1 (by omega), unitsOfMag_scaled h1 (by omega), Nat.pow_succ]
    apply Nat.le_of_eq; ring

/-- A table size lies far below infinity. -/
theorem mag_of_size {size m : Nat} (hs : size ≤ 16777216) (h : unitsOfMag m = size * unitsPerOne) :
    m ≤ 151 * 8388608 := by
  have e1 : 151 * 8388608 = 150 * 8388608 + 8388608 := by norm_num
  rw [← unitsOfMag_le_iff, h, e1, unitsOfMag_scaled (by omega) (by omega)]
  calc size * unitsPerOne ≤ 16777216 * unitsPerOne := Nat.mul_le_mul_right _ hs
    _ = 8388608 * 2 ^ 150 := by norm_num

/-- A phase and an increment in `[0, size)` give a phase in `[0, size)`: the rounded sum stays below twice the
size, and one correction is enough (41_oscillator.md R138). -/
theorem advancePhase_inRange {size : Nat} {p inc : F32} (hs : size ≤ 16777216)
    (hp : inRange size p = true) (hi : inRange size inc = true) :
    inRange size (advancePhase size p inc) = true := by
  obtain ⟨S, hS⟩ : ∃ S, S = size * unitsPerOne := ⟨_, rfl⟩
  have hin := inRange_iff hs
  obtain ⟨hfs, hus, _⟩ := i2f_exact hs
  rw [← hS] at hus hin
  obtain ⟨pf, p0, p1⟩ := (hin p).1 hp
  obtain ⟨qf, q0, q1⟩ := (hin inc).1 hi
  have hmS : S = unitsOfMag (magBits (i2f size)) := by
    have := units_natAbs (i2f size)
    rw [hus] at this; simpa using this
  have hmf := (isFinite_iff _).1 hfs
  generalize hM : magBits (i2f size) = M at hmS hmf
  -- the larger of the two operands bounds the sum by twice itself
  obtain ⟨w, hw1, hw2, hw3⟩ : ∃ w, (unitsOfMag w : Int) < S ∧ units p ≤ unitsOfMag w ∧
      units inc ≤ unitsOfMag w := by
    have hpn := units_natAbs p
    have hqn := units_natAbs inc
    rcases Int.le_total (units p) (units inc) with h | h
    · exact ⟨magBits inc, by omega, by omega, by omega⟩
    · exact ⟨magBits p, by omega, by omega, by omega⟩
  obtain ⟨d, hd⟩ := unitsOfMag_double w
  obtain ⟨e, he⟩ := unitsOfMag_double M
  have hwM : w < M := by
    rw [hmS] at hw1
    exact unitsOfMag_lt_iff.1 (by omega)
  have heM : e ≤ M + 8388608 := double_le he
  have hMsmall : M ≤ 151 * 8388608 := mag_of_size hs (hmS.symm.trans hS)
  have hde : d < e := by
    rw [← unitsOfMag_lt_iff, hd, he, ← hmS]; omega
  have hdf : d < infMag := by simp only [infMag]; omega
  have hsum := addNumbers_bounds (m := d) pf qf (by omega) (by rw [hd]; omega)
  have hadd : fadd p inc = addNumbers p inc := fadd_of_finite pf qf
  rw [← hadd] at hsum
  obtain ⟨s, hsdef⟩ : ∃ s, s = fadd p inc := ⟨_, rfl⟩
  rw [← hsdef] at hsum
  have hsf : isFinite s = true := (isFinite_iff _).2 (by omega)
  have hsu := units_of_sign hsum.2
  have hsle : unitsOfMag (magBits s) ≤ 2 * unitsOfMag w := by
    rw [← hd]; exact unitsOfMag_le_iff.2 hsum.1
  unfold advancePhase
  simp only [← hsdef]
  cases hge : fge s (i2f size)
  · have hlt := (fge_eq_false_iff (not_isNaN_of_isFinite hsf) (isNaN_i2f hs)).1 hge
    rw [hus] at hlt
    exact (hin s).2 ⟨hsf, by omega, hlt⟩
  · have hle := ((fge_iff _ _).1 hge).2.2
    rw [hus] at hle
    have hsub := addNumbers_bounds (a := s) (b := fneg (i2f size)) (m := w) hsf (by simpa using hfs)
      (by rw [units_fneg, hus]; omega) (by rw [units_fneg, hus]; omega)
    rw [← fsub_of_finite hsf hfs] at hsub
    have hf : isFinite (fsub s (i2f size)) = true := (isFinite_iff _).2 (by omega)
    have hu := units_of_sign hsub.2
    have hle' := unitsOfMag_le_iff.2 hsub.1
    rw [if_pos rfl]
    exact (hin _).2 ⟨hf, by omega, by omega⟩

/-- The lookup at a phase in range finds an element of a table of that size (41_oscillator.md R137). -/
theorem lookup_inRange {size : Nat} {p : F32} {m : Memory} {sp : Space} (hs : size ≤ 16777216)
    (hp : inRange size p = true) (hl : (m.table sp).length = size) :
    ∃ i : Nat, floorIndex p = .ok (i : Int) ∧ i < size ∧ ∃ v, m.read sp i = .ok v ∧ v ∈ m.table sp := by
  obtain ⟨pf, p0, p1⟩ := (inRange_iff hs p).1 hp
  have hq0 : 0 ≤ units p / (unitsPerOne : Int) := Int.ediv_nonneg p0 (by simp)
  have hq1 : units p / (unitsPerOne : Int) < size := by
    apply Int.ediv_lt_of_lt_mul (by simp)
    simpa using p1
  obtain ⟨i, hi⟩ := Int.eq_ofNat_of_zero_le hq0
  have hlt : i < (m.table sp).length := by omega
  refine ⟨i, by rw [floorIndex, floorIdx, if_pos pf, hi], by omega, (m.table sp)[i], ?_, List.getElem_mem hlt⟩
  simp [Memory.read, hlt]

end Sys2Proof.Machine
end

