-- ==== Sys2Proof/Laws/Unit.lean ====
section
/-! SUPPORT. Values in `[0, 1]` and `[-1, 1]`: what the two range tests say of a value's magnitude, and how products,
sums and halves stay in range. -/

namespace Sys2Proof.Machine

/-- Bits 30:0 of `1.0`. -/
abbrev oneMag : Nat := 1065353216

theorem unitsOfMag_oneMag : unitsOfMag oneMag = unitsPerOne := by decide +kernel

theorem unitsOfMag_twoMag : unitsOfMag (oneMag + 8388608) = 2 * unitsPerOne := by decide +kernel

theorem units_one : units F32.one = unitsPerOne := by decide +kernel

theorem units_negOne : units F32.negOne = -(unitsPerOne : Int) := by decide +kernel

theorem isNaN_iff (v : F32) : isNaN v = false ↔ magBits v ≤ infMag := by simp [isNaN]

theorem isFinite_of_mag_le {v : F32} {m : Nat} (h : magBits v ≤ m) (hm : m < infMag) : isFinite v = true :=
  (isFinite_iff v).2 (Nat.lt_of_le_of_lt h hm)

theorem signedUnit_iff (v : F32) : signedUnit v = true ↔ magBits v ≤ oneMag := by
  simp only [signedUnit, Bool.and_eq_true, fle_iff, units_one, units_negOne]
  have h := unitsOfMag_le_iff (a := magBits v) (b := oneMag)
  rw [unitsOfMag_oneMag] at h
  have n1 : isNaN F32.negOne = false := by decide
  have hi : magBits v ≤ oneMag → magBits v ≤ infMag := fun h => Nat.le_trans h (by decide)
  rw [isNaN_iff v]
  simp only [n1, isNaN_one, true_and]
  unfold units
  generalize infMag = i at *
  generalize oneMag = o at *
  generalize unitsPerOne = p at *
  cases signBit v <;> simp only [if_true, Bool.false_eq_true, if_false] <;> omega

theorem inUnit_iff (v : F32) : inUnit v = true ↔ magBits v ≤ oneMag ∧ (signBit v = true → magBits v = 0) := by
  simp only [inUnit, Bool.and_eq_true, fle_iff, fge_iff, units_one, units_zero, isNaN_zero, isNaN_one]
  have h := unitsOfMag_le_iff (a := magBits v) (b := oneMag)
  have h0 := unitsOfMag_pos_iff (m := magBits v)
  rw [unitsOfMag_oneMag] at h
  have hi : magBits v ≤ oneMag → magBits v ≤ infMag := fun h => Nat.le_trans h (by decide)
  rw [isNaN_iff v]
  unfold units
  generalize infMag = i at *
  generalize oneMag = o at *
  generalize unitsPerOne = p at *
  cases signBit v <;> simp only [if_true, Bool.false_eq_true, if_false, true_and, forall_const, false_implies,
    and_true] <;> omega

theorem signedUnit_of_inUnit {v : F32} (h : inUnit v = true) : signedUnit v = true :=
  (signedUnit_iff v).2 ((inUnit_iff v).1 h).1

theorem isFinite_of_signedUnit {v : F32} (h : signedUnit v = true) : isFinite v = true :=
  isFinite_of_mag_le ((signedUnit_iff v).1 h) (by decide)

theorem units_natAbs_le_one {v : F32} (h : signedUnit v = true) : (units v).natAbs ≤ unitsPerOne := by
  rw [units_natAbs, ← unitsOfMag_oneMag]; exact unitsOfMag_le_iff.2 ((signedUnit_iff v).1 h)

/-! ### Products and quotients of finite operands -/

theorem fmul_of_finite {a b : F32} (ha : isFinite a = true) (hb : isFinite b = true) :
    fmul a b = ofSignMag (signBit a != signBit b)
      (roundUnits (unitsOfMag (magBits a) * unitsOfMag (magBits b)) unitsPerOne) := by
  simp [fmul, not_isNaN_of_isFinite ha, not_isNaN_of_isFinite hb, not_isInf_of_isFinite ha,
    not_isInf_of_isFinite hb]

theorem fdiv_of_finite {a b : F32} (ha : isFinite a = true) (hb : isFinite b = true) (h : magBits b ≠ 0) :
    fdiv a b = ofSignMag (signBit a != signBit b)
      (roundUnits (unitsOfMag (magBits a) * unitsPerOne) (unitsOfMag (magBits b))) := by
  simp [fdiv, not_isNaN_of_isFinite ha, not_isNaN_of_isFinite hb, not_isInf_of_isFinite ha,
    not_isInf_of_isFinite hb, h]

theorem unitsPerOne_pos : 0 < unitsPerOne := by decide

/-- A factor of magnitude at most 1 does not enlarge a product. -/
theorem magBits_fmul_le {a b : F32} (ha : isFinite a = true) (hb : signedUnit b = true) :
    magBits (fmul a b) ≤ magBits a := by
  rw [fmul_of_finite ha (isFinite_of_signedUnit hb), magBits_rounded]
  apply roundUnits_le unitsPerOne_pos
  apply Nat.mul_le_mul_left
  rw [← unitsOfMag_oneMag]; exact unitsOfMag_le_iff.2 ((signedUnit_iff b).1 hb)

theorem signBit_fmul {a b : F32} (ha : isFinite a = true) (hb : isFinite b = true) :
    signBit (fmul a b) = (signBit a != signBit b) := by
  rw [fmul_of_finite ha hb, signBit_rounded]

theorem magBits_fmul_zero {a b : F32} (ha : isFinite a = true) (hb : isFinite b = true)
    (h : magBits a = 0 ∨ magBits b = 0) : magBits (fmul a b) = 0 := by
  rw [fmul_of_finite ha hb, magBits_rounded]
  have : unitsOfMag (magBits a) * unitsOfMag (magBits b) = 0 := by
    rcases h with h | h <;> simp [h]
  rw [this]; decide

/-- A product of two values that are zero where their sign bit is set is zero where its sign bit is set. -/
theorem fmul_nonneg {a b : F32} (ha : isFinite a = true) (hb : isFinite b = true)
    (ha0 : signBit a = true → magBits a = 0) (hb0 : signBit b = true → magBits b = 0) :
    signBit (fmul a b) = true → magBits (fmul a b) = 0 := by
  intro hs
  rw [signBit_fmul ha hb] at hs
  apply magBits_fmul_zero ha hb
  cases h1 : signBit a <;> cases h2 : signBit b <;> simp [h1, h2] at hs
  · exact .inr (hb0 h2)
  · exact .inl (ha0 h1)

theorem fmul_signedUnit {a b : F32} (ha : signedUnit a = true) (hb : signedUnit b = true) :
    signedUnit (fmul a b) = true :=
  (signedUnit_iff _).2 (Nat.le_trans (magBits_fmul_le (isFinite_of_signedUnit ha) hb) ((signedUnit_iff a).1 ha))

theorem fmul_inUnit {a b : F32} (ha : inUnit a = true) (hb : inUnit b = true) : inUnit (fmul a b) = true := by
  have sa := signedUnit_of_inUnit ha
  have sb := signedUnit_of_inUnit hb
  rw [inUnit_iff] at ha hb ⊢
  exact ⟨(signedUnit_iff _).1 (fmul_signedUnit sa sb),
    fmul_nonneg (isFinite_of_signedUnit sa) (isFinite_of_signedUnit sb) ha.2 hb.2⟩

/-! ### Sums of finite operands -/

theorem magBits_fadd_le {a b : F32} {m : Nat} (ha : isFinite a = true) (hb : isFinite b = true)
    (hm : (units a + units b).natAbs ≤ unitsOfMag m) : magBits (fadd a b) ≤ m := by
  rw [fadd_of_finite ha hb, addNumbers_of_finite ha hb]
  split_ifs with hz
  · simp
  · rw [magBits_rounded]; exact roundUnits_le (by decide) (by omega)

theorem fadd_nonneg {a b : F32} (ha : isFinite a = true) (hb : isFinite b = true) (h0 : 0 ≤ units a + units b) :
    signBit (fadd a b) = true → magBits (fadd a b) = 0 := by
  rw [fadd_of_finite ha hb, addNumbers_of_finite ha hb]
  split_ifs with hz
  · simp
  · rw [signBit_rounded]; intro h; simp at h; omega

/-- The sum of two values in `[-1, 1]` is at most 2 in magnitude. -/
theorem magBits_fadd_unit {a b : F32} (ha : signedUnit a = true) (hb : signedUnit b = true) :
    magBits (fadd a b) ≤ oneMag + 8388608 := by
  apply magBits_fadd_le (isFinite_of_signedUnit ha) (isFinite_of_signedUnit hb)
  rw [unitsOfMag_twoMag]
  have := units_natAbs_le_one ha
  have := units_natAbs_le_one hb
  omega

/-- SumWithInput keeps the range `[-1, 1]` (41_oscillator.md R136). -/
theorem half_sum_signedUnit {a b : F32} (ha : signedUnit a = true) (hb : signedUnit b = true) :
    signedUnit (fmul (fadd a b) F32.half) = true := by
  have h2 := magBits_fadd_unit ha hb
  rw [signedUnit_iff, fmul_of_finite (isFinite_of_mag_le h2 (by decide)) (by decide), magBits_rounded]
  apply roundUnits_le unitsPerOne_pos
  have e1 : unitsOfMag (magBits (fadd a b)) ≤ 2 * unitsPerOne := by
    rw [← unitsOfMag_twoMag]; exact unitsOfMag_le_iff.2 h2
  have e2 : 2 * unitsOfMag (magBits F32.half) = unitsPerOne := by decide +kernel
  rw [unitsOfMag_oneMag]
  calc unitsOfMag (magBits (fadd a b)) * unitsOfMag (magBits F32.half)
      ≤ 2 * unitsPerOne * unitsOfMag (magBits F32.half) := Nat.mul_le_mul_right _ e1
    _ = unitsPerOne * (2 * unitsOfMag (magBits F32.half)) := by ring
    _ = unitsPerOne * unitsPerOne := by rw [e2]

/-! ### Increments -/

theorem inRange_iff_mag {n : Nat} (hn : n ≤ 16777216) (v : F32) :
    inRange n v = true ↔
      isFinite v = true ∧ (signBit v = true → magBits v = 0) ∧ unitsOfMag (magBits v) < n * unitsPerOne := by
  rw [inRange_iff hn]
  have h0 := unitsOfMag_pos_iff (m := magBits v)
  unfold units
  cases signBit v <;> simp only [if_true, Bool.false_eq_true, if_false, false_implies, true_and, forall_const] <;>
    constructor
  · rintro ⟨a, _, c⟩; exact ⟨a, by omega⟩
  · rintro ⟨a, c⟩; exact ⟨a, by omega, by omega⟩
  · rintro ⟨a, b, c⟩; exact ⟨a, by omega, by omega⟩
  · rintro ⟨a, b, c⟩; rw [b] at c ⊢; simp at c ⊢; exact ⟨a, by omega⟩

/-- Where twice the frequency is an increment in range, so is every increment that an input in `[-1, 1]` gives
(70_reset_and_hazards.md R296, R299). -/
theorem input_increment_inRange {n : Nat} {x f : F32} (hn : n ≤ 16777216) (hx : signedUnit x = true)
    (hf : inRange n f = true) (h2 : inRange n (fmul F32.two f) = true) :
    inRange n (fmul (fadd F32.one x) f) = true := by
  rw [inRange_iff_mag hn] at hf h2 ⊢
  have f1 : isFinite F32.one = true := by decide
  have fx := isFinite_of_signedUnit hx
  have hm := magBits_fadd_unit (show signedUnit F32.one = true by decide +kernel) hx
  have fs : isFinite (fadd F32.one x) = true := isFinite_of_mag_le hm (by decide)
  have hs0 : 0 ≤ units F32.one + units x := by
    have := units_natAbs_le_one hx
    rw [units_one]; omega
  have hle : magBits (fmul (fadd F32.one x) f) ≤ magBits (fmul F32.two f) := by
    rw [fmul_of_finite fs hf.1, fmul_of_finite (by decide) hf.1, magBits_rounded, magBits_rounded]
    apply roundUnits_mono unitsPerOne_pos
    apply Nat.mul_le_mul_right
    rw [show magBits F32.two = oneMag + 8388608 by decide]
    exact unitsOfMag_le_iff.2 hm
  exact ⟨isFinite_of_mag_le hle ((isFinite_iff _).1 h2.1),
    fmul_nonneg fs hf.1 (fadd_nonneg f1 fx hs0) hf.2.1,
    Nat.lt_of_le_of_lt (unitsOfMag_le_iff.2 hle) h2.2.2⟩

end Sys2Proof.Machine
end

