-- ==== Sys2Proof/Laws/Count.lean ====
section
/-! SUPPORT. Phases that are whole numbers, phases at which no element is found, and values that are not finite. -/

namespace Sys2Proof.Machine

/-! ### Values that are not finite -/

theorem isFinite_of_isNaN {v : F32} (h : isNaN v = true) : isFinite v = false := by
  cases hc : isFinite v
  · rfl
  · rw [not_isNaN_of_isFinite hc] at h; cases h

theorem isFinite_of_isInf {v : F32} (h : isInf v = true) : isFinite v = false := by
  cases hc : isFinite v
  · rfl
  · rw [not_isInf_of_isFinite hc] at h; cases h

theorem isNaN_or_isInf {v : F32} (h : isFinite v = false) : isNaN v = true ∨ isInf v = true := by
  simp only [isFinite, isNaN, isInf, decide_eq_true_eq, decide_eq_false_iff_not] at *; omega

theorem isInf_fneg (v : F32) : isInf (fneg v) = isInf v := by simp [isInf]

theorem addNumbers_infinite {a b : F32} (h : isInf a = true ∨ isInf b = true) :
    isFinite (addNumbers a b) = false := by
  unfold addNumbers
  by_cases ha : isInf a = true
  · rw [if_pos ha]; exact isFinite_of_isInf ha
  · have hb : isInf b = true := h.resolve_left ha
    rw [if_neg ha, if_pos hb]; exact isFinite_of_isInf hb

/-- A sum with an operand that is not finite is not finite. -/
theorem fadd_not_finite {a b : F32} (h : isFinite a = false ∨ isFinite b = false) : isFinite (fadd a b) = false :=
    by
  unfold fadd
  split_ifs with hc
  · exact isFinite_of_isNaN (isNaN_nanResult _ _ _)
  · simp only [Bool.or_eq_true, not_or] at hc
    apply addNumbers_infinite
    rcases h with h | h
    · rcases isNaN_or_isInf h with h | h
      · exact absurd h hc.1.1
      · exact .inl h
    · rcases isNaN_or_isInf h with h | h
      · exact absurd h hc.1.2
      · exact .inr h

theorem fsub_not_finite {a b : F32} (h : isFinite a = false ∨ isFinite b = false) : isFinite (fsub a b) = false :=
    by
  unfold fsub
  split_ifs with hc
  · exact isFinite_of_isNaN (isNaN_nanResult _ _ _)
  · simp only [Bool.or_eq_true, not_or] at hc
    apply addNumbers_infinite
    rw [isInf_fneg]
    rcases h with h | h
    · rcases isNaN_or_isInf h with h | h
      · exact absurd h hc.1.1
      · exact .inl h
    · rcases isNaN_or_isInf h with h | h
      · exact absurd h hc.1.2
      · exact .inr h

/-- A product with an infinity is not finite. -/
theorem fmul_infinite {a b : F32} (h : isInf b = true) : isFinite (fmul a b) = false := by
  unfold fmul
  split_ifs with hc hd
  · exact isFinite_of_isNaN (isNaN_nanResult _ _ _)
  · apply isFinite_of_isInf
    unfold isInf
    rw [magBits_ofSignMag _ (by decide)]; decide
  · simp [h] at hd

/-! ### The factor `1.0`, and NaN -/

/-- `1.0` leaves every number as it is, signs of zeros included. -/
theorem one_fmul {v : F32} (h : isNaN v = false) : fmul F32.one v = v := by
  by_cases hf : isFinite v = true
  · rw [fmul_of_finite (by decide) hf]
    have : unitsOfMag (magBits F32.one) = unitsPerOne := unitsOfMag_oneMag
    rw [this]
    have hr : roundUnits (unitsPerOne * unitsOfMag (magBits v)) unitsPerOne = magBits v := by
      have hm := (isFinite_iff v).1 hf
      apply Nat.le_antisymm
      · exact roundUnits_le unitsPerOne_pos (by rw [Nat.mul_comm])
      · exact le_roundUnits unitsPerOne_pos (Nat.le_of_lt hm) (by rw [Nat.mul_comm])
    rw [hr]
    have : (signBit F32.one != signBit v) = signBit v := by
      have : signBit F32.one = false := by decide
      rw [this]; cases signBit v <;> rfl
    rw [this, ofSignMag_signBit_magBits]
  · have hi : magBits v = infMag := by
      rw [isNaN_iff] at h; rw [isFinite_iff] at hf; exact Nat.le_antisymm h (Nat.le_of_not_lt hf)
    have : fmul F32.one v = ofSignMag (signBit F32.one != signBit v) infMag := by
      have a : isNaN F32.one = false := by decide
      have b : isInf F32.one = false := by decide
      have c : magBits F32.one ≠ 0 := by decide
      simp [fmul, h, isInf, hi, a]
      intro h; exact absurd h (by decide)
    rw [this, ← hi]
    have : (signBit F32.one != signBit v) = signBit v := by
      have : signBit F32.one = false := by decide
      rw [this]; cases signBit v <;> rfl
    rw [this, ofSignMag_signBit_magBits]

theorem fmul_isNaN {a v : F32} (h : isNaN v = true) : isNaN (fmul a v) = true := by
  have : fmul a v = nanResult .mul a v := by simp [fmul, h]
  rw [this]; exact isNaN_nanResult _ _ _

/-! ### Whole numbers -/

/-- The lookup index of a whole number is that number. -/
theorem floorIndex_i2f {n : Nat} (hn : n ≤ 16777216) : floorIndex (i2f n) = .ok (n : Int) := by
  obtain ⟨h1, h2, _⟩ := i2f_exact hn
  rw [floorIndex, floorIdx, if_pos h1, h2]
  push_cast
  rw [Int.mul_ediv_cancel _ (by decide)]

theorem unitsOfMag_i2f {n : Nat} (hn : n ≤ 16777216) : unitsOfMag (magBits (i2f n)) = n * unitsPerOne := by
  obtain ⟨h1, h2, _⟩ := i2f_exact hn
  have := units_natAbs (i2f n); rw [h2, Int.natAbs_natCast] at this; exact this.symm

/-- Counting by `1.0` is exact. -/
theorem i2f_add_one {n : Nat} (hn : n + 1 ≤ 16777216) : fadd (i2f n) F32.one = i2f (n + 1) := by
  obtain ⟨a1, a2, a3⟩ := i2f_exact (n := n) (by omega)
  obtain ⟨b1, b2, b3⟩ := i2f_exact (n := n + 1) (by omega)
  have f1 : isFinite F32.one = true := by decide
  have hu := unitsOfMag_i2f hn
  rw [fadd_of_finite a1 f1, addNumbers_of_finite a1 f1, a2, units_one]
  have hpos : (0 : Int) < unitsPerOne := by decide
  have hsum : ((n * unitsPerOne : Nat) : Int) + unitsPerOne = ((n + 1) * unitsPerOne : Nat) := by push_cast; ring
  rw [hsum]
  have hp2 : 0 < (n + 1) * unitsPerOne := Nat.mul_pos (by omega) unitsPerOne_pos
  rw [if_neg (by omega)]
  rw [Int.natAbs_natCast, ← hu, roundUnits_exact (Nat.le_of_lt ((isFinite_iff _).1 b1))]
  have : decide (((unitsOfMag (magBits (i2f (n+1))) : Nat) : Int) < 0) = signBit (i2f (n+1)) := by rw [b3]; simp
  rw [this, ofSignMag_signBit_magBits]

theorem i2f_fsub_self {n : Nat} (hn : n ≤ 16777216) : fsub (i2f n) (i2f n) = F32.zero := by
  obtain ⟨a1, a2, a3⟩ := i2f_exact (n := n) hn
  rw [fsub_of_finite a1 a1, addNumbers_of_finite a1 (by simpa using a1)]
  rw [units_fneg, if_pos (by omega), signBit_fneg, a3]; decide

theorem fge_i2f {a b : Nat} (ha : a ≤ 16777216) (hb : b ≤ 16777216) : fge (i2f a) (i2f b) = decide (b ≤ a) := by
  obtain ⟨a1, a2, a3⟩ := i2f_exact ha
  obtain ⟨b1, b2, b3⟩ := i2f_exact hb
  have := fge_iff (i2f a) (i2f b)
  rw [a2, b2, not_isNaN_of_isFinite a1, not_isNaN_of_isFinite b1] at this
  rw [Bool.eq_iff_iff, this]
  simp only [true_and, decide_eq_true_eq, Nat.cast_le]
  constructor
  · intro h; exact Nat.le_of_mul_le_mul_right h unitsPerOne_pos
  · intro h; exact Nat.mul_le_mul_right _ h

/-- A whole phase advanced by `1.0` wraps exactly at the table end. -/
theorem advancePhase_one {n a : Nat} (hn : n ≤ 16777216) (ha : a < n) :
    advancePhase n (i2f a) F32.one = if a + 1 = n then F32.zero else i2f (a + 1) := by
  unfold advancePhase
  dsimp only
  rw [i2f_add_one (by omega), fge_i2f (by omega) hn]
  by_cases h : a + 1 = n
  · subst h; simp [i2f_fsub_self hn]
  · rw [if_neg (by simp; omega), if_neg h]

/-! ### Phases outside the table -/

theorem inRange_of_outside {n : Nat} {v : F32} (hs : n ≤ 16777216)
    (h : flt v F32.zero = true ∨ fge v (i2f n) = true) : inRange n v = false := by
  cases hc : inRange n v
  · rfl
  · exfalso
    rw [inRange_iff hs] at hc
    obtain ⟨b1, b2, b3⟩ := i2f_exact hs
    rcases h with h | h
    · have := ((flt_iff _ _).1 h).2.2; rw [units_zero] at this; omega
    · have := ((fge_iff _ _).1 h).2.2; rw [b2] at this; omega

/-- A finite phase outside the table finds no element. -/
theorem lookup_not_inRange {n : Nat} {v : F32} {m : Memory} {sp} (hs : n ≤ 16777216) (hf : isFinite v = true)
    (hl : (m.table sp).length = n)
   (h : inRange n v = false) : ∃ i, floorIndex v = .ok i ∧ m.read sp i = .error .tableIndexOutOfRange := by
  refine ⟨_, by rw [floorIndex, floorIdx, if_pos hf], ?_⟩
  apply Memory.read_out_of_range
  have h1 : ¬ (0 ≤ units v ∧ units v < (n * unitsPerOne : Nat)) := by
    intro hc
    have := (inRange_iff hs v).2 ⟨hf, hc⟩
    rw [h] at this; cases this
  rw [hl]
  by_cases h0 : units v < 0
  · left; exact Int.ediv_neg_of_neg_of_pos h0 (by decide)
  · right
    have : ((n * unitsPerOne : Nat) : Int) ≤ units v := by
      by_contra hc; exact h1 ⟨by omega, by omega⟩
    apply (Int.le_ediv_iff_mul_le (by decide)).2
    push_cast at this; exact this

end Sys2Proof.Machine
end

