-- ==== Sys2Proof/Laws/Curves.lean ====
section
/-! SUPPORT. `clamp01`, `NUM.pow`, the curve abscissa,
    and the gain of the Decay stage: what keeps a curve and a gain in
`[0, 1]`. -/

namespace Sys2Proof.Machine

/-- `clamp01` of a number is in `[0, 1]`. -/
theorem clamp01_inUnit {v : F32} (h : isNaN v = false) : inUnit (clamp01 v) = true := by
  unfold clamp01
  split_ifs with h1 h2
  · decide
  · decide
  · have n1 : isNaN F32.one = false := by decide
    simp only [inUnit, Bool.and_eq_true, fge_iff, fle_iff]
    simp only [fgt, flt_iff, h, n1, isNaN_zero, true_and, Int.not_lt] at h1 h2
    exact ⟨⟨h, by decide, h1⟩, h, n1, h2⟩

theorem clamp01_of_inUnit {v : F32} (h : inUnit v = true) : clamp01 v = v := by
  simp only [inUnit, Bool.and_eq_true, fge_iff, fle_iff] at h
  unfold clamp01
  rw [if_neg, if_neg]
  · simp only [fgt, flt_iff]; omega
  · simp only [flt_iff]; omega

theorem numPow_one_left {q : F32} (h : fgt q F32.zero = true) (hq : isFinite q = true) :
    numPow F32.one q = F32.one := by
  unfold numPow; simp only [positive, h, hq, Bool.and_self, if_true]; rw [if_neg (by decide)]

theorem numPow_zero_left {q : F32} (h : fgt q F32.zero = true) (hq : isFinite q = true) :
    numPow F32.zero q = F32.zero := by
  unfold numPow; simp only [positive, h, hq, Bool.and_self, if_true]

/-- P-pow-range. -/
theorem numPow_inUnit {x q : F32} (h : positive q = true) (hq : isFinite q = true) (hx : inUnit x = true) :
    inUnit (numPow x q) = true := by
  unfold numPow; simp only [h, hq, Bool.and_self, if_true]
  split_ifs <;> try assumption
  all_goals decide

/-- The abscissa of every element is below `1.0`, with the sign bit clear. -/
theorem xOf_below_one {i size : Nat} (hs : size ≤ 16777216) (hi : i < size) :
    magBits (xOf i size) ≤ oneMag - 1 ∧ signBit (xOf i size) = false := by
  obtain ⟨a1, a2, a3⟩ := i2f_exact (n := i) (by omega)
  obtain ⟨b1, b2, b3⟩ := i2f_exact (n := size) hs
  have ua : unitsOfMag (magBits (i2f i)) = i * unitsPerOne := by
    have := units_natAbs (i2f i); rw [a2, Int.natAbs_natCast] at this; exact this.symm
  have ub : unitsOfMag (magBits (i2f size)) = size * unitsPerOne := by
    have := units_natAbs (i2f size); rw [b2, Int.natAbs_natCast] at this; exact this.symm
  have hb0 : magBits (i2f size) ≠ 0 := by
    have := unitsOfMag_pos_iff (m := magBits (i2f size))
    rw [ub] at this
    have h2 : 0 < size * unitsPerOne := Nat.mul_pos (by omega) unitsPerOne_pos
    have := this.1 h2
    omega
  unfold xOf
  rw [fdiv_of_finite a1 b1 hb0, magBits_rounded, signBit_rounded, a3, b3, ua, ub]
  refine ⟨?_, rfl⟩
  apply roundUnits_le (Nat.mul_pos (by omega) unitsPerOne_pos)
  have e : unitsOfMag (oneMag - 1) = 16777215 * 2 ^ 125 := by decide +kernel
  rw [e]
  have e2 : unitsPerOne = 16777216 * 2 ^ 125 := by decide +kernel
  have e3 : i * unitsPerOne * unitsPerOne = (i * 16777216) * 2 ^ 125 * unitsPerOne := by
    have : i * unitsPerOne = (i * 16777216) * 2 ^ 125 := by rw [e2]; ring
    rw [this]
  rw [e3]
  calc (i * 16777216) * 2 ^ 125 * unitsPerOne
    _ ≤ (16777215 * size) * 2 ^ 125 * unitsPerOne := by
        apply Nat.mul_le_mul_right
        apply Nat.mul_le_mul_right
        omega
    _ = _ := by ring

theorem xOf_inUnit {i size : Nat} (hs : size ≤ 16777216) (hi : i < size) : inUnit (xOf i size) = true := by
  obtain ⟨h1, h2⟩ := xOf_below_one hs hi
  rw [inUnit_iff]
  exact ⟨by omega, by simp [h2]⟩

theorem xOf_zero {size : Nat} (h1 : 1 ≤ size) (hs : size ≤ 16777216) : xOf 0 size = F32.zero := by
  obtain ⟨b1, b2, b3⟩ := i2f_exact (n := size) hs
  have a : i2f 0 = F32.zero := by decide
  unfold xOf
  have hb0 : magBits (i2f size) ≠ 0 := by
    have ub : unitsOfMag (magBits (i2f size)) = size * unitsPerOne := by
      have := units_natAbs (i2f size); rw [b2, Int.natAbs_natCast] at this; exact this.symm
    have := unitsOfMag_pos_iff (m := magBits (i2f size))
    rw [ub] at this
    have h2 : 0 < size * unitsPerOne := Nat.mul_pos (by omega) unitsPerOne_pos
    have := this.1 h2
    omega
  have a0 : isFinite (i2f 0) = true := by decide
  rw [fdiv_of_finite a0 b1 hb0, a, b3]
  have : unitsOfMag (magBits F32.zero) * unitsPerOne = 0 := by decide
  rw [this]
  have : roundUnits 0 (unitsOfMag (magBits (i2f size))) = 0 := by
    have := roundUnits_le (num := 0) (m := 0) (den := unitsOfMag (magBits (i2f size)))
      (unitsOfMag_pos_iff.2 (by omega)) (by simp)
    omega
  rw [this]; decide

theorem one_sub_not_isNaN {p : F32} (h : inUnit p = true) : isNaN (fsub F32.one p) = false := by
  have sp := signedUnit_of_inUnit h
  have fp := isFinite_of_signedUnit sp
  have h1 : isFinite F32.one = true := by decide
  have : fsub F32.one p = fadd F32.one (fneg p) := by
    rw [fsub_of_finite h1 fp, fadd_of_finite h1 (by simpa using fp)]
  rw [this]
  have sn : signedUnit (fneg p) = true := by rw [signedUnit_iff, magBits_fneg]; exact (signedUnit_iff p).1 sp
  exact not_isNaN_of_isFinite (isFinite_of_mag_le (magBits_fadd_unit (by decide +kernel) sn) (by decide))

/-- Rounding to the nearest integer moves a value by half a step at most. -/
theorem roundHalfEven_close (n k : Nat) : 2 * (roundHalfEven n (2 ^ k) * 2 ^ k) ≤ 2 * n + 2 ^ k := by
  have e := Nat.div_add_mod n (2 ^ k)
  have hm := Nat.mod_lt n (Nat.two_pow_pos k)
  unfold roundHalfEven
  dsimp only
  generalize n / 2 ^ k = q at *
  generalize n % 2 ^ k = r at *
  generalize 2 ^ k = d at *
  have hq : d * q = q * d := Nat.mul_comm _ _
  split_ifs with h1 h2
  · omega
  · have : (q + 1) * d = q * d + d := by ring
    omega
  · rcases Nat.mod_two_eq_zero_or_one q with h | h <;> rw [h]
    · rw [Nat.add_zero]; omega
    · have : (q + 1) * d = q * d + d := by ring
      omega

/-- Rounding a value of at most `1.0` raises it by less than half a step above `1.0`. -/
theorem roundUnits_close {n : Nat} (hn : n ≤ unitsPerOne) : unitsOfMag (roundUnits n 1) ≤ n + 2 ^ 125 := by
  have hd : 0 < 1 := by decide
  obtain ⟨h1, h2⟩ := round_scale (num := n) hd
  unfold roundUnits
  dsimp only
  refine Nat.le_trans (unitsOfMag_le_iff.2 (Nat.min_le_left _ _)) ?_
  have hk : Nat.log2 (n / 1) - 23 ≤ 126 := by
    rw [Nat.div_one]
    have : Nat.log2 n ≤ 149 := by
      rcases Nat.eq_zero_or_pos n with rfl | hp
      · simp
      · exact Nat.le_of_lt_succ ((Nat.log2_lt (by omega)).2 (Nat.lt_of_le_of_lt hn (by decide)))
    omega
  generalize Nat.log2 (n / 1) - 23 = k at *
  rw [Nat.one_mul]
  have hc := roundHalfEven_close n k
  rcases Nat.eq_zero_or_pos k with rfl | hkp
  · have : roundHalfEven n (2 ^ 0) = n := by
      have := roundHalfEven_exact n (den := 2 ^ 0) (by decide)
      simpa using this
    rw [this, Nat.zero_mul, Nat.zero_add]
    have hn2 : n ≤ 16777216 := by omega
    rw [unitsOfMag_small hn2]; omega
  · have hq1 : 8388608 ≤ roundHalfEven n (2 ^ k) :=
      le_roundHalfEven (Nat.two_pow_pos k) (by have := h2 (by omega); omega)
    have hq2 : roundHalfEven n (2 ^ k) ≤ 16777216 := roundHalfEven_le (Nat.two_pow_pos k) (by omega)
    rw [unitsOfMag_scaled hq1 hq2]
    have : 2 ^ k ≤ 2 ^ 126 := Nat.pow_le_pow_right (by decide) hk
    have e : (2:Nat) ^ 126 = 2 * 2 ^ 125 := by ring
    omega

/-- A sum that exceeds `1.0` by less than half a step rounds into `[0, 1]`. -/
theorem fadd_inUnit_of_close {a b : F32} (ha : inUnit a = true) (hb : inUnit b = true)
    (h : units a + units b ≤ (unitsPerOne : Int) + 2 ^ 125) : inUnit (fadd a b) = true := by
  have ha' := (inUnit_iff _).1 ha
  have hb' := (inUnit_iff _).1 hb
  have fa := isFinite_of_mag_le ha'.1 (by decide)
  have fb := isFinite_of_mag_le hb'.1 (by decide)
  have ua := units_of_sign (v := a) (by intro h; cases hc : signBit a; rfl; have := ha'.2 hc; omega)
  have ub := units_of_sign (v := b) (by intro h; cases hc : signBit b; rfl; have := hb'.2 hc; omega)
  have h0 : 0 ≤ units a + units b := by omega
  rw [inUnit_iff]
  refine ⟨?_, fadd_nonneg fa fb h0⟩
  rw [fadd_of_finite fa fb, addNumbers_of_finite fa fb]
  split_ifs with hz
  · simp
  · rw [magBits_rounded]
    have : roundUnits (unitsPerOne + 2 ^ 125) 1 = oneMag := by decide +kernel
    rw [← this]
    apply roundUnits_mono (by decide)
    have e : ((2 ^ 125 : Nat) : Int) = 2 ^ 125 := by norm_cast
    rw [← e] at h
    generalize (2 ^ 125 : Nat) = z at *
    generalize unitsPerOne = u at *
    omega

/-- The gain of Decay is in `[0, 1]`: the two roundings together do not exceed half a step (42_envelope.md R189). -/
theorem decay_gain_inUnit {p rv : F32} (hp : inUnit p = true) (hr : inUnit rv = true) :
    inUnit (fadd (clamp01 (fsub F32.one p)) (fmul rv p)) = true := by
  have hp' := (inUnit_iff _).1 hp
  have hr' := (inUnit_iff _).1 hr
  have fp := isFinite_of_mag_le hp'.1 (by decide)
  have fr := isFinite_of_mag_le hr'.1 (by decide)
  have f1 : isFinite F32.one = true := by decide
  have up := units_of_sign (v := p) (by intro h; cases hc : signBit p; rfl; have := hp'.2 hc; omega)
  have hup : unitsOfMag (magBits p) ≤ unitsPerOne := by rw [← unitsOfMag_oneMag]; exact unitsOfMag_le_iff.2 hp'.1
  have hs0 : 0 ≤ units F32.one + units (fneg p) := by rw [units_one, units_fneg, up]; omega
  have fn : isFinite (fneg p) = true := by simpa using fp
  have hsub : fsub F32.one p = addNumbers F32.one (fneg p) := fsub_of_finite f1 fp
  have hmag : magBits (fsub F32.one p) = roundUnits (unitsPerOne - unitsOfMag (magBits p)) 1 := by
    rw [hsub, addNumbers_of_finite f1 fn, units_one, units_fneg, up]
    split_ifs with hz
    · have : unitsPerOne - unitsOfMag (magBits p) = 0 := by omega
      rw [this]; simp; decide
    · rw [magBits_rounded]; congr 1; omega
  have hsub_u : inUnit (fsub F32.one p) = true := by
    rw [inUnit_iff]
    constructor
    · rw [hmag]; apply roundUnits_le (by decide); rw [unitsOfMag_oneMag]; omega
    · rw [hsub]
      rw [← fadd_of_finite f1 fn]; exact fadd_nonneg f1 fn hs0
  rw [clamp01_of_inUnit hsub_u]
  have hm := fmul_inUnit hr hp
  refine fadd_inUnit_of_close hsub_u hm ?_
  have e1 := units_natAbs (fsub F32.one p)
  have hc := roundUnits_close (n := unitsPerOne - unitsOfMag (magBits p)) (by omega)
  rw [← hmag] at hc
  have e2 := units_natAbs (fmul rv p)
  have hle : magBits (fmul rv p) ≤ magBits p := by
    have h1 := magBits_fmul_le (a := p) (b := rv) fp (signedUnit_of_inUnit hr)
    have : magBits (fmul rv p) = magBits (fmul p rv) := by
      rw [fmul_of_finite fr fp, fmul_of_finite fp fr, Nat.mul_comm]; simp
    omega
  have hle' := unitsOfMag_le_iff.2 hle
  have e : ((2 ^ 125 : Nat) : Int) = 2 ^ 125 := by norm_cast
  rw [← e]
  generalize (2 ^ 125 : Nat) = z at *
  generalize unitsPerOne = u at *
  omega

end Sys2Proof.Machine
end

