-- ==== Sys2Proof/Laws/Decode.lean ====
section
/-! SUPPORT. Laws of the encoding: header fields, the opcode map, the decoder on a command followed by more words,
and words carried as bytes. -/

namespace Sys2Proof

/-! ### Header fields -/

@[simp] theorem headerOp_header (op slot : BitVec 8) (imm : BitVec 16) : headerOp (header op slot imm) = op := by
  apply BitVec.eq_of_toNat_eq
  have h1 := op.isLt
  have h2 := slot.isLt
  have h3 := imm.isLt
  simp only [headerOp, header, BitVec.extractLsb'_toNat, BitVec.toNat_append, Nat.shiftRight_eq_div_pow]
  rw [← Nat.shiftLeft_add_eq_or_of_lt h3, ← Nat.shiftLeft_add_eq_or_of_lt h2]
  simp only [Nat.shiftLeft_eq]
  omega

@[simp] theorem headerSlot_header (op slot : BitVec 8) (imm : BitVec 16) :
    headerSlot (header op slot imm) = slot := by
  apply BitVec.eq_of_toNat_eq
  have h1 := op.isLt
  have h2 := slot.isLt
  have h3 := imm.isLt
  simp only [headerSlot, header, BitVec.extractLsb'_toNat, BitVec.toNat_append, Nat.shiftRight_eq_div_pow]
  rw [← Nat.shiftLeft_add_eq_or_of_lt h3, ← Nat.shiftLeft_add_eq_or_of_lt h2]
  simp only [Nat.shiftLeft_eq]
  omega

@[simp] theorem headerImm_header (op slot : BitVec 8) (imm : BitVec 16) :
    headerImm (header op slot imm) = imm := by
  apply BitVec.eq_of_toNat_eq
  have h1 := op.isLt
  have h2 := slot.isLt
  have h3 := imm.isLt
  simp only [headerImm, header, BitVec.extractLsb'_toNat, BitVec.toNat_append, Nat.shiftRight_eq_div_pow]
  rw [← Nat.shiftLeft_add_eq_or_of_lt h3, ← Nat.shiftLeft_add_eq_or_of_lt h2]
  simp only [Nat.shiftLeft_eq]
  omega

/-- A header word is its three fields. -/
theorem header_of_fields (w : Word) : header (headerOp w) (headerSlot w) (headerImm w) = w := by
  apply BitVec.eq_of_toNat_eq
  have h := w.isLt
  have h2 := (headerSlot w).isLt
  have h3 := (headerImm w).isLt
  simp only [header, BitVec.toNat_append]
  rw [← Nat.shiftLeft_add_eq_or_of_lt h3, ← Nat.shiftLeft_add_eq_or_of_lt h2]
  simp only [headerOp, headerSlot, headerImm, BitVec.extractLsb'_toNat, Nat.shiftRight_eq_div_pow,
    Nat.shiftLeft_eq]
  omega

/-! ### The opcode map -/

@[simp] theorem opOf_code (o : Op) : opOf o.code = some o := by cases o <;> decide

/-- The opcode map is unambiguous: a row found has that code. -/
theorem code_of_opOf {b : BitVec 8} {o : Op} (h : opOf b = some o) : o.code = b := by
  have := List.find?_some h
  simpa using this

/-! ### The decoder -/

/-- A row's header word followed by enough words decodes to that row's command. -/
theorem decode_header {o : Op} {slot : BitVec 8} {imm : BitVec 16} {ops rest : List Word}
    (h : ops.length = nops o imm) :
    decode (header o.code slot imm :: (ops ++ rest)) = .command (buildInstr o slot imm ops) rest := by
  have h1 : ¬ (ops ++ rest).length < nops o imm := by rw [List.length_append]; omega
  simp only [decode, headerOp_header, opOf_code, headerImm_header, headerSlot_header, if_neg h1]
  rw [← h, List.take_left, List.drop_left]

/-- Words after a command do not change what is decoded. -/
theorem decode_append {ws rest extra : List Word} {i : Instr} (h : decode ws = .command i rest) :
    decode (ws ++ extra) = .command i (rest ++ extra) := by
  cases ws with
  | nil => cases h
  | cons w ws =>
    simp only [decode, List.cons_append] at h ⊢
    cases ho : opOf (headerOp w) with
    | none => rw [ho] at h; cases h
    | some o =>
      rw [ho] at h
      simp only at h ⊢
      split_ifs at h with hl
      cases h
      have hl' : nops o (headerImm w) ≤ ws.length := by omega
      rw [if_neg (by rw [List.length_append]; omega), List.take_append_of_le_length hl',
        List.drop_append_of_le_length hl']

/-- What remains after a command is what it did not consume. -/
theorem decode_consumes {ws rest : List Word} {i : Instr} (h : decode ws = .command i rest) :
    rest = ws.drop i.length ∧ i.length ≤ ws.length := by
  cases ws with
  | nil => cases h
  | cons w ws =>
    simp only [decode] at h
    cases ho : opOf (headerOp w) with
    | none => rw [ho] at h; cases h
    | some o =>
      rw [ho] at h
      simp only at h
      split_ifs at h with hl
      cases h
      have hlen : (buildInstr o (headerSlot w) (headerImm w)
          (ws.take (nops o (headerImm w)))).length = 1 + nops o (headerImm w) := by
        cases o <;> simp [buildInstr, Instr.length, nops] <;> simp [nops] at hl <;> omega
      rw [hlen, Nat.add_comm 1, List.drop_succ_cons, List.length_cons]
      exact ⟨rfl, by omega⟩

/-! ### Words as bytes -/

@[simp] theorem wordOfBytes_bytesOfWord (w : Word) :
    wordOfBytes (w.extractLsb' 0 8) (w.extractLsb' 8 8) (w.extractLsb' 16 8) (w.extractLsb' 24 8) = w := by
  apply BitVec.eq_of_toNat_eq
  have h := w.isLt
  have h0 := (w.extractLsb' 0 8).isLt
  have h1 := (w.extractLsb' 8 8).isLt
  have h2 := (w.extractLsb' 16 8).isLt
  simp only [wordOfBytes, BitVec.toNat_append]
  rw [← Nat.shiftLeft_add_eq_or_of_lt h2, ← Nat.shiftLeft_add_eq_or_of_lt h1,
    ← Nat.shiftLeft_add_eq_or_of_lt h0]
  simp only [BitVec.extractLsb'_toNat, Nat.shiftRight_eq_div_pow, Nat.shiftLeft_eq]
  omega

end Sys2Proof
end

