-- ==== Sys2Proof/Laws/Steps.lean ====
section
/-! SUPPORT. What one sample of an oscillator, an envelope, the modulator or a voice can do, and what a slot, the
router and a whole block can do: cited instead of unfolding the steps. -/

namespace Sys2Proof.Machine

/-! ### Oscillator -/

/-- An oscillator step that runs read one element, writes the phase only, and yields the scaled sample. -/
theorem oscStep_ok {c : Config} {m : Memory} {k : Slot} {mode : OscMode} {o o' : Osc} {x y : F32} :
    oscStep c m k mode o x = .ok (o', y) ↔
      ∃ idx t, floorIndex o.phase = .ok idx ∧ m.read (.wt k) idx = .ok t ∧
        o' = { o with phase := advancePhase c.N o.phase (oscInc mode o x) } ∧
        y = fmul o.amplitude (oscSample mode t x) := by
  simp only [oscStep, bind_eq_ok, Except.ok.injEq, Prod.mk.injEq]
  constructor
  · rintro ⟨idx, h1, t, h2, rfl, rfl⟩; exact ⟨idx, t, h1, h2, rfl, rfl⟩
  · rintro ⟨idx, t, h1, h2, rfl, rfl⟩; exact ⟨idx, h1, t, h2, rfl, rfl⟩

/-- A block of an oscillator writes its phase only. -/
theorem oscBlock_frame {c : Config} {m : Memory} {k : Slot} {mode : OscMode} {o o' : Osc}
    {xs ys : List F32} (h : oscBlock c m k mode o xs = .ok (o', ys)) :
    o' = { o with phase := o'.phase } := by
  refine runBlock_invariant (P := fun p => p = { o with phase := p.phase }) ?_ rfl h
  intro st x st' y hst hs
  obtain ⟨_, _, _, _, rfl, _⟩ := oscStep_ok.1 hs
  rw [hst]

/-! ### Envelope -/

theorem envStep_ok {c : Config} {m : Memory} {k : Slot} {e e' : Env} {v : F32} :
    envStep c m k e = .ok (e', v) ↔ envValue c m k e = .ok v ∧ e' = envAdvance c e := by
  simp only [envStep, bind_eq_ok, Except.ok.injEq, Prod.mk.injEq]
  constructor
  · rintro ⟨w, h1, rfl, rfl⟩; exact ⟨h1, rfl⟩
  · rintro ⟨h1, rfl⟩; exact ⟨v, h1, rfl, rfl⟩

theorem envApply_ok {c : Config} {m : Memory} {k : Slot} {e e' : Env} {x y : F32} :
    envApply c m k e x = .ok (e', y) ↔
      ∃ v, envValue c m k e = .ok v ∧ e' = envAdvance c e ∧ y = fmul x v := by
  simp only [envApply, bind_eq_ok, Except.ok.injEq, Prod.mk.injEq, Prod.exists, envStep_ok]
  constructor
  · rintro ⟨e1, v, ⟨h1, rfl⟩, rfl, rfl⟩; exact ⟨v, h1, rfl, rfl⟩
  · rintro ⟨v, h1, rfl, rfl⟩; exact ⟨_, v, ⟨h1, rfl⟩, rfl, rfl⟩

/-- An envelope's advance writes its phase index and its stage only. -/
theorem envAdvance_frame (c : Config) (e : Env) :
    envAdvance c e = { e with phaseIndex := (envAdvance c e).phaseIndex, stage := (envAdvance c e).stage } := by
  unfold envAdvance
  split_ifs
  · rfl
  · dsimp only; split_ifs <;> rfl

/-- The phase index moves as an oscillator phase does, unless the envelope is frozen. -/
theorem envAdvance_phaseIndex (c : Config) (e : Env) :
    (envAdvance c e).phaseIndex =
      if e.frozen then e.phaseIndex else advancePhase c.M e.phaseIndex (stepOf c e e.stage) := by
  by_cases h1 : e.frozen = true <;>
    by_cases h2 : fge (fadd e.phaseIndex (stepOf c e e.stage)) (i2f c.M) = true <;>
    simp [envAdvance, advancePhase, h1, h2]

/-- The stage after an advance. -/
theorem envAdvance_stage (c : Config) (e : Env) :
    (envAdvance c e).stage =
      if e.frozen then e.stage
      else if fge (fadd e.phaseIndex (stepOf c e e.stage)) (i2f c.M) then e.nextStage
      else e.stage := by
  by_cases h1 : e.frozen = true <;>
    by_cases h2 : fge (fadd e.phaseIndex (stepOf c e e.stage)) (i2f c.M) = true <;>
    simp [envAdvance, h1, h2]

/-- The step sizes do not depend on the phase index or the stage the envelope is in. -/
theorem stepOf_envAdvance (c : Config) (e : Env) (stage : Stage) :
    stepOf c (envAdvance c e) stage = stepOf c e stage := by
  rw [envAdvance_frame]; cases stage <;> rfl

/-- A block of an envelope writes its phase index and its stage only. -/
theorem envBlock_frame {c : Config} {m : Memory} {k : Slot} {e e' : Env} {xs ys : List F32}
    (h : envBlock c m k e xs = .ok (e', ys)) :
    e' = { e with phaseIndex := e'.phaseIndex, stage := e'.stage } := by
  refine runBlock_invariant (P := fun p => p = { e with phaseIndex := p.phaseIndex, stage := p.stage }) ?_ rfl h
  intro st x st' y hst hs
  obtain ⟨_, _, rfl, _⟩ := envApply_ok.1 hs
  rw [envAdvance_frame, hst]

/-! ### Voice Manager -/

theorem vmodStep_ok {c : Config} {m : Memory} {p p' mo : F32} :
    vmodStep c m p = .ok (p', mo) ↔
      ∃ idx t, floorIndex p = .ok idx ∧ m.read .sine idx = .ok t ∧
        p' = advancePhase c.N p c.vmModFreq ∧ mo = fmul c.vmModAmp t := by
  simp only [vmodStep, bind_eq_ok, Except.ok.injEq, Prod.mk.injEq]
  constructor
  · rintro ⟨idx, h1, t, h2, rfl, rfl⟩; exact ⟨idx, t, h1, h2, rfl, rfl⟩
  · rintro ⟨idx, t, h1, h2, rfl, rfl⟩; exact ⟨idx, h1, t, h2, rfl, rfl⟩

theorem voiceStep_ok {c : Config} {m : Memory} {mo y : F32} {v : Voice} {v' : Option Voice} :
    voiceStep c m mo v = .ok (v', y) ↔
      ∃ idx t g, floorIndex v.phase = .ok idx ∧ m.read .sine idx = .ok t ∧
        m.read .vmcurve v.envIdx = .ok g ∧
        v' = recycle c { v with phase := advancePhase c.N v.phase (fmul (fadd F32.one mo) v.frequency) } ∧
        y = fmul (fmul t v.velocity) g := by
  simp only [voiceStep, bind_eq_ok, Except.ok.injEq, Prod.mk.injEq]
  constructor
  · rintro ⟨idx, h1, t, h2, g, h3, rfl, rfl⟩; exact ⟨idx, t, g, h1, h2, h3, rfl, rfl⟩
  · rintro ⟨idx, t, g, h1, h2, h3, rfl, rfl⟩; exact ⟨idx, h1, t, h2, g, h3, rfl, rfl⟩

theorem mixVoices_none_ok {c : Config} {m : Memory} {mo b b' : F32} {vs vs' : List (Option Voice)} :
    mixVoices c m mo (none :: vs) b = .ok (vs', b') ↔
      ∃ ws, mixVoices c m mo vs b = .ok (ws, b') ∧ vs' = none :: ws := by
  simp only [mixVoices, bind_eq_ok, Except.ok.injEq, Prod.mk.injEq, Prod.exists]
  constructor
  · rintro ⟨ws, b1, h1, rfl, rfl⟩; exact ⟨ws, h1, rfl⟩
  · rintro ⟨ws, h1, rfl⟩; exact ⟨ws, b', h1, rfl, rfl⟩

theorem mixVoices_some_ok {c : Config} {m : Memory} {mo b b' : F32} {v : Voice}
    {vs vs' : List (Option Voice)} :
    mixVoices c m mo (some v :: vs) b = .ok (vs', b') ↔
      ∃ v1 y ws, voiceStep c m mo v = .ok (v1, y) ∧ mixVoices c m mo vs (fadd b y) = .ok (ws, b') ∧
        vs' = v1 :: ws := by
  simp only [mixVoices, bind_eq_ok, Except.ok.injEq, Prod.mk.injEq, Prod.exists]
  constructor
  · rintro ⟨v1, y, h0, ws, b1, h1, rfl, rfl⟩; exact ⟨v1, y, ws, h0, h1, rfl⟩
  · rintro ⟨v1, y, ws, h0, h1, rfl⟩; exact ⟨v1, y, h0, ws, b', h1, rfl, rfl⟩

/-- What one mix does to each voice of the pool: an unoccupied one stays so, an occupied one steps. -/
theorem mixVoices_get {c : Config} {m : Memory} {mo b b' : F32} {vs vs' : List (Option Voice)}
    (h : mixVoices c m mo vs b = .ok (vs', b')) :
    vs'.length = vs.length ∧ ∀ j : Nat,
      (vs[j]? = some none → vs'[j]? = some none) ∧
      ∀ v, vs[j]? = some (some v) → ∃ v1 y, voiceStep c m mo v = .ok (v1, y) ∧ vs'[j]? = some v1 := by
  induction vs generalizing b vs' with
  | nil => cases h; simp
  | cons w vs ih =>
    cases w with
    | none =>
      obtain ⟨ws, h1, rfl⟩ := mixVoices_none_ok.1 h
      obtain ⟨hl, hj⟩ := ih h1
      refine ⟨by simp [hl], fun j => ?_⟩
      cases j with
      | zero => simp
      | succ j => simpa using hj j
    | some v =>
      obtain ⟨v1, y, ws, h0, h1, rfl⟩ := mixVoices_some_ok.1 h
      obtain ⟨hl, hj⟩ := ih h1
      refine ⟨by simp [hl], fun j => ?_⟩
      cases j with
      | zero =>
        refine ⟨by simp, fun u hu => ?_⟩
        simp only [List.getElem?_cons_zero, Option.some.injEq] at hu
        subst hu
        exact ⟨v1, y, h0, by simp⟩
      | succ j => simpa using hj j

theorem vmSample_ok {c : Config} {m : Memory} {st st' : VmRegs} {b b' : F32} :
    vmSample c m st b = .ok (st', b') ↔
      ∃ p mo vs, vmodStep c m st.phase = .ok (p, mo) ∧ mixVoices c m mo st.voices b = .ok (vs, b') ∧
        st' = ⟨p, vs⟩ := by
  simp only [vmSample, bind_eq_ok, Except.ok.injEq, Prod.mk.injEq, Prod.exists]
  constructor
  · rintro ⟨p, mo, h1, vs, b1, h2, rfl, rfl⟩; exact ⟨p, mo, vs, h1, h2, rfl⟩
  · rintro ⟨p, mo, vs, h1, h2, rfl⟩; exact ⟨p, mo, h1, vs, b', h2, rfl, rfl⟩

/-! ### Slots, router, block -/

/-- The three ways a slot takes part in a block (44_router.md R240). -/
theorem slotBlock_ok {c : Config} {m : Memory} {k : Slot} {mode : OscMode} {r r' : SlotRegs}
    {xs ys : List F32} :
    slotBlock c m k mode r xs = .ok (r', ys) ↔
      (r.oscActive = false ∧ r' = r ∧ ys = xs) ∨
      (r.oscActive = true ∧ r.envActive = false ∧
        ∃ o, oscBlock c m k mode r.osc xs = .ok (o, ys) ∧ r' = { r with osc := o }) ∨
      (r.oscActive = true ∧ r.envActive = true ∧
        ∃ o e zs, oscBlock c m k mode r.osc xs = .ok (o, zs) ∧ envBlock c m k r.env zs = .ok (e, ys) ∧
          r' = { r with osc := o, env := e }) := by
  unfold slotBlock
  cases ho : r.oscActive <;> cases he : r.envActive <;>
    simp only [Bool.false_eq_true, if_false, if_true, Except.ok.injEq, Prod.mk.injEq, bind_eq_ok,
      Prod.exists, reduceCtorEq, false_and, true_and, or_false, false_or]
  · exact ⟨fun ⟨a, b⟩ => ⟨a.symm, b.symm⟩, fun ⟨a, b⟩ => ⟨a.symm, b.symm⟩⟩
  · exact ⟨fun ⟨a, b⟩ => ⟨a.symm, b.symm⟩, fun ⟨a, b⟩ => ⟨a.symm, b.symm⟩⟩
  · constructor
    · rintro ⟨o, zs, h1, rfl, rfl⟩; exact ⟨o, h1, rfl⟩
    · rintro ⟨o, h1, rfl⟩; exact ⟨o, ys, h1, rfl, rfl⟩
  · constructor
    · rintro ⟨o, zs, h1, e, us, h2, rfl, rfl⟩; exact ⟨o, e, zs, h1, h2, rfl⟩
    · rintro ⟨o, e, zs, h1, h2, rfl⟩; exact ⟨o, zs, h1, e, ys, h2, rfl, rfl⟩

/-- A slot's part of a block yields one sample for each of its samples. -/
theorem slotBlock_length {c : Config} {m : Memory} {k : Slot} {mode : OscMode} {r r' : SlotRegs}
    {xs ys : List F32} (h : slotBlock c m k mode r xs = .ok (r', ys)) : ys.length = xs.length := by
  rcases slotBlock_ok.1 h with ⟨_, _, rfl⟩ | ⟨_, _, o, h1, _⟩ | ⟨_, _, o, e, zs, h1, h2, _⟩
  · rfl
  · exact runBlock_length h1
  · rw [runBlock_length h2, runBlock_length h1]

/-- What a block can write of a slot: an inactive slot is kept whole, an active one writes its oscillator's
phase and, where its envelope is active, the envelope's phase index and stage. -/
theorem slotBlock_frame {c : Config} {m : Memory} {k : Slot} {mode : OscMode} {r r' : SlotRegs}
    {xs ys : List F32} (h : slotBlock c m k mode r xs = .ok (r', ys)) :
    r'.oscActive = r.oscActive ∧ r'.envActive = r.envActive ∧
      r'.osc = { r.osc with phase := r'.osc.phase } ∧
      r'.env = { r.env with phaseIndex := r'.env.phaseIndex, stage := r'.env.stage } ∧
      (r.oscActive = false → r' = r) ∧ (r.envActive = false → r'.env = r.env) := by
  rcases slotBlock_ok.1 h with ⟨h0, rfl, rfl⟩ | ⟨h0, h0', o, h1, rfl⟩ | ⟨h0, h0', o, e, zs, h1, h2, rfl⟩
  · simp
  · exact ⟨rfl, rfl, oscBlock_frame h1, rfl, by simp [h0], fun _ => rfl⟩
  · exact ⟨rfl, rfl, oscBlock_frame h1, envBlock_frame h2, by simp [h0], by simp [h0']⟩

theorem routerBlock_ok {c : Config} {m : Memory} {modes : Slots OscMode} {slots slots' : Slots SlotRegs}
    {xs ys : List F32} :
    routerBlock c m modes slots xs = .ok (slots', ys) ↔
      ∃ b1 b2 b3, slotBlock c m .s1 modes.s1 slots.s1 xs = .ok (slots'.s1, b1) ∧
        slotBlock c m .s2 modes.s2 slots.s2 b1 = .ok (slots'.s2, b2) ∧
        slotBlock c m .s3 modes.s3 slots.s3 b2 = .ok (slots'.s3, b3) ∧
        slotBlock c m .s4 modes.s4 slots.s4 b3 = .ok (slots'.s4, ys) := by
  simp only [routerBlock, bind_eq_ok, Except.ok.injEq, Prod.mk.injEq, Prod.exists]
  constructor
  · rintro ⟨r1, b1, h1, r2, b2, h2, r3, b3, h3, r4, b4, h4, rfl, rfl⟩
    exact ⟨b1, b2, b3, h1, h2, h3, h4⟩
  · rintro ⟨b1, b2, b3, h1, h2, h3, h4⟩
    exact ⟨_, b1, h1, _, b2, h2, _, b3, h3, _, ys, h4, rfl, rfl⟩

/-- Each slot of a block that runs ran its own part. -/
theorem routerBlock_slot {c : Config} {m : Memory} {modes : Slots OscMode} {slots slots' : Slots SlotRegs}
    {xs ys : List F32} (h : routerBlock c m modes slots xs = .ok (slots', ys)) (k : Slot) :
    ∃ us vs, slotBlock c m k (modes.get k) (slots.get k) us = .ok (slots'.get k, vs) := by
  obtain ⟨b1, b2, b3, h1, h2, h3, h4⟩ := routerBlock_ok.1 h
  cases k
  · exact ⟨_, _, h1⟩
  · exact ⟨_, _, h2⟩
  · exact ⟨_, _, h3⟩
  · exact ⟨_, _, h4⟩

theorem routerBlock_length {c : Config} {m : Memory} {modes : Slots OscMode}
    {slots slots' : Slots SlotRegs} {xs ys : List F32}
    (h : routerBlock c m modes slots xs = .ok (slots', ys)) : ys.length = xs.length := by
  obtain ⟨b1, b2, b3, h1, h2, h3, h4⟩ := routerBlock_ok.1 h
  rw [slotBlock_length h4, slotBlock_length h3, slotBlock_length h2, slotBlock_length h1]

theorem processBlock_ok {s : State} {xs : List F32} {b : BlockResult} :
    processBlock s xs = .ok b ↔
      ∃ buf, routerBlock s.cfg s.mem (modesOf s.cfg s.currentAlgorithm) s.slots xs = .ok (b.slots, buf) ∧
        vmBlock s.cfg s.mem ⟨s.vmodPhase, s.voices⟩ (masterGain s.masterAmplitude buf) =
          .ok (b.vm, b.output) := by
  simp only [processBlock, bind_eq_ok, Except.ok.injEq, Prod.exists]
  constructor
  · rintro ⟨sl, buf, h1, vm, o, h2, rfl⟩; exact ⟨buf, h1, h2⟩
  · rintro ⟨buf, h1, h2⟩; exact ⟨_, buf, h1, _, _, h2, rfl⟩

/-- `PROCESS` gives a next state exactly when its block runs, and that state is the committed block. -/
theorem execProcess_next {s t : State} {xs : List F32} :
    execProcess xs s = .next t ↔
      ∃ b, processBlock s xs = .ok b ∧ t = (s.commitBlock b).advance (1 + xs.length) := by
  unfold execProcess
  cases processBlock s xs with
  | ok b =>
    constructor
    · intro h; cases h; exact ⟨b, rfl, rfl⟩
    · rintro ⟨b', h, rfl⟩; cases h; rfl
  | error e =>
    constructor
    · intro h; cases h
    · rintro ⟨b', h, _⟩; cases h

end Sys2Proof.Machine
end

