-- ==== Sys2Proof/Laws/Run.lean ====
section
/-! SUPPORT. When a sample or a block completes, and what a block does that is split in two. -/

namespace Sys2Proof.Machine

/-! ### Completion -/

theorem Memory.wt_length {c : Config} {m : Memory} (h : m.wf c = true) (k : Slot) :
    (m.table (.wt k)).length = c.N := (Memory.wf_iff c m).1 h (.wt k)

/-- In the modes that no input enters, the increment is the frequency. -/
theorem oscInc_freeRunning {mode : OscMode} {o : Osc} {x : F32} (h : mode.freeRunning = true) :
    oscInc mode o x = o.frequency := by
  cases mode <;> first | rfl | cases h

/-- An oscillator step from a phase and with an increment in range completes and keeps the phase in range. -/
theorem oscStep_total {c : Config} {m : Memory} {k : Slot} {mode : OscMode} {o : Osc} {x : F32}
    (hw : m.wf c = true) (hN : c.N ≤ 16777216)
   (hp : inRange c.N o.phase = true) (hi : inRange c.N (oscInc mode o x) = true) :
   ∃ o' y, oscStep c m k mode o x = .ok (o', y) ∧ inRange c.N o'.phase = true ∧
     o' = { o with phase := o'.phase } ∧ ∃ t ∈ m.table (.wt k), y = fmul o.amplitude (oscSample mode t x) := by
  obtain ⟨i, h1, h2, v, h3, h4⟩ := lookup_inRange (m := m) (sp := .wt k) hN hp (Memory.wt_length hw k)
  exact ⟨_, _, oscStep_ok.2 ⟨_, _, h1, h3, rfl, rfl⟩, advancePhase_inRange hN hp hi, rfl, v, h4, rfl⟩

/-- An envelope has a gain at every phase index in range. -/
theorem envValue_total {c : Config} {m : Memory} {k : Slot} {e : Env} (hw : m.wf c = true) (hM : c.M ≤ 16777216)
    (hp : inRange c.M e.phaseIndex = true) :
    ∃ v, envValue c m k e = .ok v := by
  have l := fun sp (h : (m.table sp).length = c.M) => lookup_inRange (m := m) (sp := sp) hM hp h
  have hw' := (Memory.wf_iff c m).1 hw
  unfold envValue
  cases e.stage
  · obtain ⟨i, h1, h2, v, h3, _⟩ := l (.ea k) (hw' (.ea k)); exact ⟨v, by simp [h1, h3]⟩
  · obtain ⟨i, h1, h2, v, h3, _⟩ := l (.ed k) (hw' (.ed k)); exact ⟨_, by simp only [h1, h3, ok_bind]; rfl⟩
  · exact ⟨_, rfl⟩
  · obtain ⟨i, h1, h2, v, h3, _⟩ := l (.er k) (hw' (.er k)); exact ⟨_, by simp only [h1, h3, ok_bind]; rfl⟩
  · exact ⟨_, rfl⟩

theorem envAdvance_inRange {c : Config} {e : Env} (hM : c.M ≤ 16777216) (hp : inRange c.M e.phaseIndex = true)
    (hs : inRange c.M (stepOf c e e.stage) = true) :
    inRange c.M (envAdvance c e).phaseIndex = true := by
  rw [envAdvance_phaseIndex]; split
  · exact hp
  · exact advancePhase_inRange hM hp hs

theorem envBlock_total {c : Config} {m : Memory} {k : Slot} {e : Env} (hw : m.wf c = true) (hM : c.M ≤ 16777216)
    (hp : inRange c.M e.phaseIndex = true) (hst : ∀ s, inRange c.M (stepOf c e s) = true) (xs) :
   ∃ e' ys, envBlock c m k e xs = .ok (e', ys) ∧ inRange c.M e'.phaseIndex = true ∧ ∀ s,
     inRange c.M (stepOf c e' s) = true := by
  have := runBlock_total (f := envApply c m k)
    (P := fun e => inRange c.M e.phaseIndex = true ∧ ∀ s, inRange c.M (stepOf c e s) = true) ?_ (st := e) xs ⟨hp,
      hst⟩
  · obtain ⟨st', ys, h, h1, h2⟩ := this; exact ⟨st', ys, h, h1, h2⟩
  · rintro e x ⟨hp, hst⟩
    obtain ⟨v, hv⟩ := envValue_total (k := k) hw hM hp
    refine ⟨_, _, envApply_ok.2 ⟨v, hv, rfl, rfl⟩, envAdvance_inRange hM hp (hst _), fun s => ?_⟩
    rw [stepOf_envAdvance]; exact hst s

/-- A frozen envelope gives one gain to a whole block. -/
theorem envBlock_frozen {c m k} {e : Env} (hf : e.frozen = true) {v} (hv : envValue c m k e = .ok v) (xs) :
    envBlock c m k e xs = .ok (e, xs.map (fun x => fmul x v)) := by
  induction xs with
  | nil => rfl
  | cons x xs ih =>
    exact runBlock_cons_ok.2 ⟨e, fmul x v, _, envApply_ok.2 ⟨v, hv, by simp [envAdvance, hf], rfl⟩, ih, rfl⟩

theorem slotBlock_inactive {c m k mode} {r : SlotRegs} {xs} (ha : r.oscActive = false) :
    slotBlock c m k mode r xs = .ok (r, xs) := by
  simp [slotBlock, ha]

theorem slotBlock_first_fault {c m k mode} {r : SlotRegs} {x xs f} (ha : r.oscActive = true)
    (h : oscStep c m k mode r.osc x = .error f) : slotBlock c m k mode r (x :: xs) = .error f := by
  simp [slotBlock, ha, oscBlock, runBlock_first_fault h]

/-- Where every sample runs, keeps what lets the next one run, and yields what `Q` asks, so does the block. -/
theorem runBlock_total_samples {σ} {f : σ → F32 → Except Fault (σ × F32)} {P : σ → Prop} {Q : F32 → Prop}
    (hstep : ∀ st x, P st → Q x → ∃ st' y, f st x = .ok (st', y) ∧ P st' ∧ Q y)
    {st : σ} (xs : List F32) (h0 : P st) (hx : ∀ x ∈ xs, Q x) : ∃ st' ys, runBlock f st xs = .ok (st', ys) ∧
      P st' ∧ ∀ y ∈ ys, Q y := by
  induction xs generalizing st with
  | nil => exact ⟨st, [], rfl, h0, by simp⟩
  | cons x xs ih =>
    obtain ⟨s1, y, h1, h2, h2'⟩ := hstep st x h0 (hx x (by simp))
    obtain ⟨s2, ys, h3, h4, h5⟩ := ih h2 (fun x hh => hx x (by simp [hh]))
    exact ⟨s2, y :: ys, runBlock_cons_ok.2 ⟨s1, y, ys, h1, h3, rfl⟩, h4, by
      intro z hz; rcases List.mem_cons.1 hz with rfl | hz; exact h2'; exact h5 z hz⟩

/-! ### Blocks split in two (70_reset_and_hazards.md R306) -/

theorem oscBlock_append {c m k mode o o' xs ys zs} : oscBlock c m k mode o (xs ++ ys) = .ok (o', zs) ↔ ∃ o1 us vs,
    oscBlock c m k mode o xs = .ok (o1, us) ∧ oscBlock c m k mode o1 ys = .ok (o', vs) ∧ zs = us ++ vs :=
      runBlock_append_ok

theorem envBlock_append {c m k o o' xs ys zs} : envBlock c m k o (xs ++ ys) = .ok (o', zs) ↔ ∃ o1 us vs,
    envBlock c m k o xs = .ok (o1, us) ∧ envBlock c m k o1 ys = .ok (o', vs) ∧ zs = us ++ vs := runBlock_append_ok

theorem slotBlock_append {c m k mode} {r r' : SlotRegs} {xs ys zs : List F32} :
    slotBlock c m k mode r (xs ++ ys) = .ok (r', zs) ↔ ∃ r1 us vs, slotBlock c m k mode r xs = .ok (r1, us) ∧
      slotBlock c m k mode r1 ys = .ok (r', vs) ∧ zs = us ++ vs := by
  constructor
  · intro h
    rcases slotBlock_ok.1 h with ⟨h0, rfl, rfl⟩ | ⟨h0, h1, o, ho, rfl⟩ | ⟨h0, h1, o, e, ws, ho, he, rfl⟩
    · exact ⟨r', xs, ys, slotBlock_inactive h0, slotBlock_inactive h0, rfl⟩
    · obtain ⟨o1, us, vs, a, b, rfl⟩ := oscBlock_append.1 ho
      exact ⟨{ r with osc := o1 }, us, vs, slotBlock_ok.2 (.inr (.inl ⟨h0, h1, _, a, rfl⟩)),
        slotBlock_ok.2 (.inr (.inl ⟨h0, h1, _, b, rfl⟩)), rfl⟩
    · obtain ⟨o1, us, vs, a, b, rfl⟩ := oscBlock_append.1 ho
      obtain ⟨e1, us', vs', a', b', rfl⟩ := envBlock_append.1 he
      exact ⟨{ r with osc := o1, env := e1 }, us', vs', slotBlock_ok.2 (.inr (.inr ⟨h0, h1, _, _, _, a, a', rfl⟩)),
        slotBlock_ok.2 (.inr (.inr ⟨h0, h1, _, _, _, b, b', rfl⟩)), rfl⟩
  · rintro ⟨r1, us, vs, h, h', rfl⟩
    rcases slotBlock_ok.1 h with ⟨h0, rfl, rfl⟩ | ⟨h0, h1, o, ho, rfl⟩ | ⟨h0, h1, o, e, ws, ho, he, rfl⟩
    · rw [slotBlock_inactive h0] at h' ⊢; cases h'; rfl
    · rcases slotBlock_ok.1 h' with ⟨h0', rfl, rfl⟩ | ⟨h0', h1', o', ho', rfl⟩ | ⟨h0', h1', o', e', ws', ho', he',
      rfl⟩
      · simp [h0] at h0'
      · exact slotBlock_ok.2 (.inr (.inl ⟨h0, h1, _, oscBlock_append.2 ⟨_, _, _, ho, ho', rfl⟩, rfl⟩))
      · simp [h1] at h1'
    · rcases slotBlock_ok.1 h' with ⟨h0', rfl, rfl⟩ | ⟨h0', h1', o', ho', rfl⟩ | ⟨h0', h1', o', e', ws', ho', he',
      rfl⟩
      · simp [h0] at h0'
      · simp [h1] at h1'
      · exact slotBlock_ok.2
          (.inr (.inr ⟨h0, h1, _, _, _, oscBlock_append.2 ⟨_, _, _, ho, ho', rfl⟩, envBlock_append.2 ⟨_, _, _, he, he', rfl⟩, rfl⟩))

theorem routerBlock_append {c m modes} {sl sl' : Slots SlotRegs} {xs ys zs : List F32} :
    routerBlock c m modes sl (xs ++ ys) = .ok (sl', zs) ↔ ∃ s1 us vs, routerBlock c m modes sl xs = .ok (s1, us) ∧
      routerBlock c m modes s1 ys = .ok (sl', vs) ∧ zs = us ++ vs := by
  constructor
  · intro h
    obtain ⟨b1, b2, b3, h1, h2, h3, h4⟩ := routerBlock_ok.1 h
    obtain ⟨r1, u1, v1, a1, c1, rfl⟩ := slotBlock_append.1 h1
    obtain ⟨r2, u2, v2, a2, c2, rfl⟩ := slotBlock_append.1 h2
    obtain ⟨r3, u3, v3, a3, c3, rfl⟩ := slotBlock_append.1 h3
    obtain ⟨r4, u4, v4, a4, c4, rfl⟩ := slotBlock_append.1 h4
    exact ⟨⟨r1, r2, r3, r4⟩, u4, v4, routerBlock_ok.2 ⟨u1, u2, u3, a1, a2, a3, a4⟩,
      routerBlock_ok.2 ⟨v1, v2, v3, c1, c2, c3, c4⟩, rfl⟩
  · rintro ⟨s1, us, vs, h, h', rfl⟩
    obtain ⟨u1, u2, u3, a1, a2, a3, a4⟩ := routerBlock_ok.1 h
    obtain ⟨v1, v2, v3, c1, c2, c3, c4⟩ := routerBlock_ok.1 h'
    exact routerBlock_ok.2 ⟨_, _, _, slotBlock_append.2 ⟨_, _, _, a1, c1, rfl⟩,
      slotBlock_append.2 ⟨_, _, _, a2, c2, rfl⟩, slotBlock_append.2 ⟨_, _, _, a3, c3, rfl⟩,
        slotBlock_append.2 ⟨_, _, _, a4, c4, rfl⟩⟩

/-! ### The voices -/

/-- The voices step alike whatever sample they are added to. -/
theorem mixVoices_any_sample {c m mo b b' vs vs'} (h : mixVoices c m mo vs b = .ok (vs', b')) (a : F32) : ∃ a',
    mixVoices c m mo vs a = .ok (vs', a') := by
  induction vs generalizing b vs' a with
  | nil => cases h; exact ⟨a, rfl⟩
  | cons w vs ih =>
    cases w with
    | none =>
      obtain ⟨ws, h1, rfl⟩ := mixVoices_none_ok.1 h
      obtain ⟨a', ha⟩ := ih h1 a
      exact ⟨a', mixVoices_none_ok.2 ⟨ws, ha, rfl⟩⟩
    | some v =>
      obtain ⟨v1, y, ws, h0, h1, rfl⟩ := mixVoices_some_ok.1 h
      obtain ⟨a', ha⟩ := ih h1 (fadd a y)
      exact ⟨a', mixVoices_some_ok.2 ⟨v1, y, ws, h0, ha, rfl⟩⟩

theorem vmBlock_any_samples {c m st st'} {zs ys : List F32} (h : vmBlock c m st zs = .ok (st', ys)) (us : List F32)
    (hl : us.length = zs.length) : ∃ ys', vmBlock c m st us = .ok (st', ys') := by
  induction zs generalizing st ys us with
  | nil =>
    cases us with
    | nil => exact ⟨_, h⟩
    | cons _ _ => simp at hl
  | cons z zs ih =>
    cases us with
    | nil => simp at hl
    | cons u us =>
      obtain ⟨st1, y, ws, h1, h2, rfl⟩ := runBlock_cons_ok.1 h
      obtain ⟨p, mo, vs, h3, h4, rfl⟩ := vmSample_ok.1 h1
      obtain ⟨a', ha⟩ := mixVoices_any_sample h4 u
      obtain ⟨ys', hy⟩ := ih h2 us (by simpa using hl)
      exact ⟨_, runBlock_cons_ok.2 ⟨_, a', ys', vmSample_ok.2 ⟨p, mo, vs, h3, ha, rfl⟩, hy, rfl⟩⟩

/-- A voice that is occupied after a block was so before it, with the same frequency and velocity. -/
theorem vmBlock_keeps_notes {c m st st'} {zs ys : List F32} (h : vmBlock c m st zs = .ok (st', ys)) {j : Nat}
    {w : Voice} (hw : st'.voices[j]? = some (some w)) :
    ∃ v, st.voices[j]? = some (some v) ∧ w.frequency = v.frequency ∧ w.velocity = v.velocity := by
  induction zs generalizing st ys with
  | nil => cases h; exact ⟨w, hw, rfl, rfl⟩
  | cons z zs ih =>
    obtain ⟨st1, y, us, h1, h2, rfl⟩ := runBlock_cons_ok.1 h
    obtain ⟨p, mo, vs, h3, h4, rfl⟩ := vmSample_ok.1 h1
    obtain ⟨v, hv, e1, e2⟩ := ih h2
    obtain ⟨hl, hj⟩ := mixVoices_get h4
    obtain ⟨a1, a2⟩ := hj j
    have hlt : j < vs.length := by
      by_contra hc
      rw [List.getElem?_eq_none (by dsimp only; omega)] at hv; cases hv
    have hlt' : j < st.voices.length := by omega
    cases hs : st.voices[j] with
    | none =>
      have := a1 (by rw [List.getElem?_eq_getElem hlt', hs])
      rw [this] at hv; cases hv
    | some u =>
      have hu : st.voices[j]? = some (some u) := by rw [List.getElem?_eq_getElem hlt', hs]
      obtain ⟨v1, y1, b1, b2⟩ := a2 u hu
      obtain ⟨_, _, _, _, _, _, rfl, _⟩ := voiceStep_ok.1 b1
      rw [b2] at hv
      unfold recycle at hv
      split_ifs at hv
      · cases hv
      · cases hv; exact ⟨u, hu, e1, e2⟩

/-- 43_voice_manager.md R201. -/
theorem allocate_first_free {v : Voice} {vs : List (Option Voice)} {j : Nat} (h : vs[j]? = some none)
    (h2 : ∀ i, i < j → vs[i]? ≠ some none) :
    allocate v vs = vs.set j (some v) := by
  induction vs generalizing j with
  | nil => simp at h
  | cons a vs ih =>
    cases j with
    | zero => simp at h; subst h; rfl
    | succ j =>
      have := h2 0 (by omega)
      simp at this
      cases a with
      | none => exact absurd rfl this
      | some w =>
        simp only [allocate, List.set_cons_succ]
        rw [ih (by simpa using h) (fun i hi => by simpa using h2 (i+1) (by omega))]

/-- 43_voice_manager.md R203. -/
theorem allocate_full {v : Voice} {vs : List (Option Voice)} (h : ∀ j : Nat, vs[j]? ≠ some none) :
    allocate v vs = vs := by
  induction vs with
  | nil => rfl
  | cons a vs ih =>
    have := h 0
    cases a with
    | none => simp at this
    | some w => simp only [allocate]; rw [ih (fun j => by simpa using h (j+1))]

theorem mem_allocate {v w : Voice} {vs : List (Option Voice)} (h : some w ∈ allocate v vs) : w = v ∨ some w ∈ vs :=
    by
  induction vs with
  | nil => cases h
  | cons a vs ih =>
    cases a with
    | none => simp [allocate] at h; rcases h with h | h; exact .inl h; exact .inr (by simp [h])
    | some a =>
      simp [allocate] at h
      rcases h with h | h
      · exact .inr (by simp [h])
      · rcases ih h with h | h
        · exact .inl h
        · exact .inr (by simp [h])

theorem length_allocate {v : Voice} {vs : List (Option Voice)} : (allocate v vs).length = vs.length := by
  induction vs with
  | nil => rfl
  | cons a vs ih => cases a <;> simp [allocate, ih]

end Sys2Proof.Machine
end

