-- ==== Sys2Proof/Laws/Faults.lean ====
section
/-! SUPPORT. When a sample or a block ends in a model fault: the lookups outside their tables (60_exceptions.md R279),
and the order in which a block meets them (44_router.md R231, R238). -/

namespace Sys2Proof.Machine

/-- A phase that is no place in a table of `size` elements, and the model fault its lookup ends in. -/
def BadPhase (size : Nat) (p : F32) (f : Fault) : Prop :=
  (isFinite p = false ∧ f = .indexUndefined) ∨
    (isFinite p = true ∧ inRange size p = false ∧ f = .tableIndexOutOfRange)

theorem BadPhase.undefined {size : Nat} {p : F32} (h : isFinite p = false) : BadPhase size p .indexUndefined :=
  .inl ⟨h, rfl⟩

theorem BadPhase.outside {size : Nat} {p : F32} (h : isFinite p = true) (hr : inRange size p = false) :
    BadPhase size p .tableIndexOutOfRange := .inr ⟨h, hr, rfl⟩

/-- The lookup at a bad phase, whatever follows it. -/
theorem BadPhase.lookup {size : Nat} {p : F32} {f : Fault} {m : Memory} {sp : Space} (h : BadPhase size p f)
    (hs : size ≤ 16777216) (hl : (m.table sp).length = size)
    {α : Type} (g : Int → F32 → Except Fault α) :
    (floorIndex p >>= fun i => m.read sp i >>= g i) = .error f := by
  rcases h with ⟨h, rfl⟩ | ⟨h, hr, rfl⟩
  · simp [floorIndex, floorIdx, h]
  · obtain ⟨i, h1, h2⟩ := lookup_not_inRange hs h hl hr
    simp [h1, h2]

theorem oscStep_fault {c m k mode} {o : Osc} {x f} (hw : m.wf c = true) (hN : c.N ≤ 16777216)
    (h : BadPhase c.N o.phase f) : oscStep c m k mode o x = .error f :=
  h.lookup hN (Memory.wt_length hw k) _

/-- The stages that read a table (42_envelope.md R166). -/
theorem envValue_fault {c m k} {e : Env} {f} (hw : m.wf c = true) (hM : c.M ≤ 16777216)
    (hs : e.stage = .attack ∨ e.stage = .decay ∨ e.stage = .release) (h : BadPhase c.M e.phaseIndex f) :
    envValue c m k e = .error f := by
  have hw' := (Memory.wf_iff c m).1 hw
  rcases hs with hs | hs | hs <;> simp only [envValue, hs]
  · have := h.lookup hM (hw' (.ea k)) fun _ => Except.ok
    rwa [show (fun i => m.read (.ea k) i >>= Except.ok) = m.read (.ea k) from funext fun i => by
      cases m.read (.ea k) i <;> rfl] at this
  · exact h.lookup hM (hw' (.ed k)) fun i t =>
      .ok (fadd t (fmul e.resultVolume (numPow (xOf i.toNat c.M) e.decayQ)))
  · exact h.lookup hM (hw' (.er k)) fun _ t => .ok (fmul t e.resultVolume)

theorem envStep_fault {c m k} {e : Env} {f} (h : envValue c m k e = .error f) : envStep c m k e = .error f := by
  simp [envStep, h]

theorem envBlock_first_fault {c m k} {e : Env} {x xs f} (h : envValue c m k e = .error f) :
    envBlock c m k e (x :: xs) = .error f :=
  runBlock_first_fault (by simp [envApply, envStep_fault h])

theorem vmodStep_fault {c m p f} (hw : m.wf c = true) (hN : c.N ≤ 16777216) (h : BadPhase c.N p f) :
    vmodStep c m p = .error f := h.lookup hN ((Memory.wf_iff c m).1 hw .sine) _

theorem voiceStep_fault {c m mo} {v : Voice} {f} (hw : m.wf c = true) (hN : c.N ≤ 16777216)
    (h : BadPhase c.N v.phase f) : voiceStep c m mo v = .error f := h.lookup hN ((Memory.wf_iff c m).1 hw .sine) _

/-- The lowest-numbered occupied voice is the first to step. -/
theorem mixVoices_first_fault {c m mo b} {vs : List (Option Voice)} {j : Nat} {v : Voice} {f}
    (hj : vs[j]? = some (some v)) (hi : ∀ i : Nat, i < j → vs[i]? = some none)
    (h : voiceStep c m mo v = .error f) : mixVoices c m mo vs b = .error f := by
  induction vs generalizing j with
  | nil => simp at hj
  | cons w vs ih =>
    cases j with
    | zero =>
      obtain rfl : w = some v := by simpa using hj
      simp [mixVoices, h]
    | succ j =>
      obtain rfl : w = none := by simpa using hi 0 (by omega)
      simp [mixVoices, ih (by simpa using hj) fun i hi' => by simpa using hi (i + 1) (by omega)]

/-- A slot whose oscillator's samples run stops where its active envelope does. -/
theorem slotBlock_env_fault {c m k mode} {r : SlotRegs} {o : Osc} {buf : List F32} {x xs f}
    (ha : r.oscActive = true) (he : r.envActive = true) (ho : oscBlock c m k mode r.osc (x :: xs) = .ok (o, buf))
    (h : envValue c m k r.env = .error f) : slotBlock c m k mode r (x :: xs) = .error f := by
  obtain ⟨_, y, ys, _, _, rfl⟩ := runBlock_cons_ok.1 ho
  simp [slotBlock, ha, he, ho, envBlock_first_fault h]

/-- The faults of the slots' parts, in their order. -/
theorem routerBlock_error {c m modes} {sl : Slots SlotRegs} {xs f} :
    routerBlock c m modes sl xs = .error f ↔
      slotBlock c m .s1 modes.s1 sl.s1 xs = .error f ∨ ∃ r1 b1, slotBlock c m .s1 modes.s1 sl.s1 xs = .ok (r1, b1) ∧
      (slotBlock c m .s2 modes.s2 sl.s2 b1 = .error f ∨ ∃ r2 b2, slotBlock c m .s2 modes.s2 sl.s2 b1 = .ok (r2, b2) ∧
      (slotBlock c m .s3 modes.s3 sl.s3 b2 = .error f ∨ ∃ r3 b3, slotBlock c m .s3 modes.s3 sl.s3 b2 = .ok (r3, b3) ∧
      slotBlock c m .s4 modes.s4 sl.s4 b3 = .error f)) := by
  simp [routerBlock, bind_eq_error]

/-- `PROCESS` ends in a model fault exactly when its block does. -/
theorem execProcess_fault {s : State} {xs f} :
    execProcess xs s = .fault f ↔
      routerBlock s.cfg s.mem (modesOf s.cfg s.currentAlgorithm) s.slots xs = .error f ∨
      ∃ slots buf, routerBlock s.cfg s.mem (modesOf s.cfg s.currentAlgorithm) s.slots xs = .ok (slots, buf) ∧
        vmBlock s.cfg s.mem ⟨s.vmodPhase, s.voices⟩ (masterGain s.masterAmplitude buf) = .error f := by
  have h : execProcess xs s = .fault f ↔ processBlock s xs = .error f := by
    unfold execProcess
    cases processBlock s xs <;> simp
  rw [h]
  simp [processBlock, bind_eq_error]

end Sys2Proof.Machine
end

