-- ==== Sys2Proof/Laws/PerInstr.lean ====
section
/-! SUPPORT. A statement about every command as syntax, proved command by command: an encoding has as many words as
the command's length, which is at least one (30_encoding.md R83). -/

namespace Sys2Proof.Laws.EncodedLength

/-- The words of the encoding are counted by `Instr.length`. -/
def Statement (i : Instr) : Prop := (encode i).length = i.length ∧ 1 ≤ i.length

theorem process (samples : List F32) : Statement (.process samples) := by
  simp [Statement, encode, Instr.length, Nat.add_comm]
theorem noteon (targets : BitVec 16) (frequency velocity : F32) :
    Statement (.noteon targets frequency velocity) := by simp [Statement, encode, Instr.length]
theorem noteoff (targets : BitVec 16) : Statement (.noteoff targets) := by
  simp [Statement, encode, Instr.length]
theorem setfactor (slot : BitVec 8) (factor : F32) : Statement (.setfactor slot factor) := by
  simp [Statement, encode, Instr.length]
theorem setamp (slot : BitVec 8) (amp : F32) : Statement (.setamp slot amp) := by
  simp [Statement, encode, Instr.length]
theorem setmfreq (f : F32) : Statement (.setmfreq f) := by simp [Statement, encode, Instr.length]
theorem setmamp (a : F32) : Statement (.setmamp a) := by simp [Statement, encode, Instr.length]
theorem setenv (slot : BitVec 8) (a d su r : F32) : Statement (.setenv slot a d su r) := by
  simp [Statement, encode, Instr.length]
theorem setq (slot : BitVec 8) (qa qd qr : F32) : Statement (.setq slot qa qd qr) := by
  simp [Statement, encode, Instr.length]
theorem setmode (slot : BitVec 8) (mode : BitVec 16) : Statement (.setmode slot mode) := by
  simp [Statement, encode, Instr.length]
theorem setsil (slot : BitVec 8) (silent sustainLoop : F32) :
    Statement (.setsil slot silent sustainLoop) := by simp [Statement, encode, Instr.length]
theorem setalg (id : BitVec 16) : Statement (.setalg id) := by simp [Statement, encode, Instr.length]
theorem loadtab (slot : BitVec 8) (samples : List F32) : Statement (.loadtab slot samples) := by
  simp [Statement, encode, Instr.length, Nat.add_comm]
theorem toggle (slot : BitVec 8) (kind : BitVec 16) : Statement (.toggle slot kind) := by
  simp [Statement, encode, Instr.length]

end Sys2Proof.Laws.EncodedLength
end

