-- ==== Sys2Proof/Laws/Special.lean ====
section
/-! SUPPORT. Where a rounded result overflows, and the results of the four operations on infinite and NaN operands. -/

namespace Sys2Proof.Machine

/-! ### The overflow threshold -/

theorem roundUnits_at_overflow {den : Nat} (hd : 0 < den) : roundUnits (overflowUnits * den) den = infMag := by
  have hq : overflowUnits * den / den = overflowUnits := Nat.mul_div_cancel _ hd
  have hl : Nat.log2 overflowUnits - 23 = 253 := by decide +kernel
  have e : overflowUnits * den = 16777215 * (den * 2 ^ 253) + den * 2 ^ 252 := by
    rw [show overflowUnits = 16777215 * 2 ^ 253 + 2 ^ 252 by decide +kernel]; ring
  have hD : 0 < den * 2 ^ 253 := Nat.mul_pos hd (Nat.two_pow_pos _)
  have hlt : den * 2 ^ 252 < den * 2 ^ 253 := Nat.mul_lt_mul_of_pos_left (by decide +kernel) hd
  have hdiv : overflowUnits * den / (den * 2 ^ 253) = 16777215 := by
    rw [e, Nat.mul_comm 16777215, Nat.mul_add_div hD, Nat.div_eq_of_lt hlt]
  have hmod : overflowUnits * den % (den * 2 ^ 253) = den * 2 ^ 252 := by
    rw [e, Nat.mul_comm 16777215, Nat.mul_add_mod, Nat.mod_eq_of_lt hlt]
  have htie : 2 * (den * 2 ^ 252) = den * 2 ^ 253 := by ring
  unfold roundUnits roundHalfEven
  dsimp only
  rw [hq, hl, hdiv, hmod, htie]
  simp

/-- Below a tie with the next integer. -/
theorem roundHalfEven_below_tie {num q t : Nat} (h : num < q * (2 * t) + t) : roundHalfEven num (2 * t) ≤ q := by
  have hdm := Nat.div_add_mod num (2 * t)
  have hq : num / (2 * t) ≤ q := by
    by_contra hc
    have : (2 * t) * (q + 1) ≤ (2 * t) * (num / (2 * t)) := Nat.mul_le_mul_left _ (by omega)
    rw [Nat.mul_add, Nat.mul_comm _ q] at this
    omega
  unfold roundHalfEven
  dsimp only
  rcases Nat.lt_or_eq_of_le hq with hq | hq
  · split_ifs <;> omega
  · rw [hq, Nat.mul_comm _ q] at hdm
    rw [hq, if_pos (by omega)]

theorem roundUnits_below_overflow {num den : Nat} (hd : 0 < den) (h : num < overflowUnits * den) :
    roundUnits num den < infMag := by
  obtain ⟨_, hlo⟩ := round_scale (num := num) hd
  obtain ⟨hhi, _⟩ := round_scale (num := num) hd
  unfold roundUnits
  generalize Nat.log2 (num / den) - 23 = k at *
  refine Nat.lt_of_le_of_lt (Nat.min_le_left _ _) ?_
  have hD : 0 < den * 2 ^ k := Nat.mul_pos hd (Nat.two_pow_pos k)
  rcases Nat.lt_trichotomy k 253 with hk | rfl | hk
  · have : roundHalfEven num (den * 2 ^ k) ≤ 16777216 := roundHalfEven_le hD (by
      calc num ≤ 16777216 * 2 ^ k * den := by omega
        _ = 16777216 * (den * 2 ^ k) := by ring)
    show k * 8388608 + roundHalfEven num (den * 2 ^ k) < 2139095040
    omega
  · have h1 : roundHalfEven num (den * 2 ^ 253) ≤ 16777215 := by
      have e : overflowUnits * den = 16777215 * (den * 2 ^ 253) + den * 2 ^ 252 := by
        rw [show overflowUnits = 16777215 * 2 ^ 253 + 2 ^ 252 by decide +kernel]; ring
      rw [show den * 2 ^ 253 = 2 * (den * 2 ^ 252) by ring] at e ⊢
      rw [e] at h
      exact roundHalfEven_below_tie h
    show 253 * 8388608 + roundHalfEven num (den * 2 ^ 253) < 2139095040
    omega
  · exfalso
    have h1 := hlo (by omega)
    have h2 : overflowUnits ≤ 8388608 * 2 ^ k :=
      calc overflowUnits ≤ 8388608 * 2 ^ 254 := by decide +kernel
        _ ≤ 8388608 * 2 ^ k := Nat.mul_le_mul_left _ (Nat.pow_le_pow_right (by decide) (by omega))
    have := Nat.mul_le_mul_right den h2
    omega

/-- The overflow threshold of IEEE 754: a magnitude rounds to a finite one exactly below it. -/
theorem roundUnits_lt_infMag_iff {num den : Nat} (hd : 0 < den) :
    roundUnits num den < infMag ↔ num < overflowUnits * den := by
  refine ⟨fun h => ?_, roundUnits_below_overflow hd⟩
  by_contra hc
  have := roundUnits_mono hd (Nat.le_of_not_lt hc)
  rw [roundUnits_at_overflow hd] at this
  omega

/-! ### Signed zeros and infinities -/

theorem ofSignMag_zero (neg : Bool) : ofSignMag neg 0 = zeroOf neg := by cases neg <;> rfl

theorem ofSignMag_infMag (neg : Bool) : ofSignMag neg infMag = infinityOf neg := by cases neg <;> rfl

/-- An infinity is the one of its sign. -/
theorem eq_infinityOf {v : F32} (h : isInf v = true) : v = infinityOf (signBit v) := by
  rw [← ofSignMag_infMag, ← show magBits v = infMag by simpa [isInf] using h, ofSignMag_signBit_magBits]

theorem fneg_of_isInf {v : F32} (h : isInf v = true) : fneg v = infinityOf (!signBit v) := by
  rw [eq_infinityOf (v := fneg v) (by simpa [isInf_fneg] using h), signBit_fneg]

theorem not_isNaN_of_isInf {v : F32} (h : isInf v = true) : isNaN v = false := by
  simp only [isInf, isNaN, decide_eq_true_eq, decide_eq_false_iff_not] at *; omega

theorem magBits_ne_zero_of_isInf {v : F32} (h : isInf v = true) : magBits v ≠ 0 := by
  rw [show magBits v = infMag by simpa [isInf] using h]; decide

theorem units_eq_zero_iff (v : F32) : units v = 0 ↔ magBits v = 0 := by
  rw [← Int.natAbs_eq_zero, units_natAbs]
  have := unitsOfMag_pos_iff (m := magBits v)
  omega

/-! ### NaN operands -/

theorem isNaN_of_operand {a b : F32} (h : isNaN a = true ∨ isNaN b = true) :
    isNaN (fadd a b) = true ∧ isNaN (fsub a b) = true ∧ isNaN (fmul a b) = true ∧ isNaN (fdiv a b) = true := by
  have hn : (isNaN a || isNaN b) = true := by simpa using h
  simp [fadd, fsub, fmul, fdiv, hn, isNaN_nanResult]

end Sys2Proof.Machine
end

