-- ==== Sys2Proof/Tests/Slice0.lean ====
section
/-! SUPPORT. The model's own tests. Expected results are taken from the spec's encodings (30_encoding.md R86, R93),
its rules' formulas and its vectors (95_test_vectors.md: T, O, E, V, R, X, hand-computed there). A `witness_` theorem
shows a concrete state and operands that meet all hypotheses of the obligation it is named after. -/

namespace Sys2Proof.Tests

open Sys2Proof.Machine

-- One test at a time: evaluated side by side they take a thread and its stack each.
set_option Elab.async false

/-! ### Helpers -/

/-- Configuration T with modes for `ALG2` and `ALG3`, so that the state is closed data. -/
def testConfig : Config :=
  { Config.configT with alg2 := Slots.all .modulatorWithInput, alg3 := Slots.all .carrierWithInput }

/-- The state after reset with `testConfig`. -/
def testState : State := State.resetWith testConfig

/-- `testState` with a command stream. -/
def streamState (ws : List Word) : State := { testState with cmd := ws }

/-- A slot that takes part with its envelope: Decay at phase index 1, volume 0.5. -/
def readySlot : SlotRegs :=
  { SlotRegs.reset testConfig with
    oscActive := true
    envActive := true
    env := { Env.reset ResetValues.decided with
      stage := .decay, phaseIndex := F32.one, resultVolume := F32.half, noteOnFlag := true } }

def readyVoice : Voice := { frequency := F32.one, velocity := F32.half, phase := F32.one, envIdx := 1 }

/-- Slot 2 and voice 0 take part, under algorithm 4; the stream is one block of one sample. -/
def readyState : State :=
  { testState with
    currentAlgorithm := .a4
    slots := testState.slots.set .s2 readySlot
    voices := [some readyVoice, none]
    cmd := [0x01000001#32, F32.half] }

/-- The next state of an outcome. -/
def nextOf : Host.Outcome State Fault Refusal → Option State
  | .next s => some s
  | .fault _ => none
  | .refused _ => none

/-- The model fault of an outcome. -/
def faultOf : Host.Outcome State Fault Refusal → Option Fault
  | .next _ => none
  | .fault f => some f
  | .refused _ => none

theorem exists_next {o : Host.Outcome State Fault Refusal} (h : (nextOf o).isSome = true) : ∃ t, o = .next t := by
  cases o with
  | next t => exact ⟨t, rfl⟩
  | fault f => cases h
  | refused r => cases h

/-- The value of a computation that did not fault. -/
def okOf {α : Type} : Except Fault α → Option α
  | .ok a => some a
  | .error _ => none

theorem ok_of_okOf {α : Type} {x : Except Fault α} {a : α} (h : okOf x = some a) : x = .ok a := by
  cases x with
  | ok b => cases h; rfl
  | error e => cases h

theorem exists_ok {α : Type} {x : Except Fault α} (h : (okOf x).isSome = true) : ∃ a, x = .ok a := by
  cases x with
  | ok a => exact ⟨a, rfl⟩
  | error e => cases h

/-- A property of every element of a list, asked element by element. -/
theorem forall_of_all {p : F32 → Bool} {l : List F32} (h : l.all p = true) : ∀ t ∈ l, p t = true :=
  List.all_eq_true.1 h

/-! ### Well-formedness: the one check, on the two commands that carry it -/

theorem test_wellFormed_process_refuses_65536_samples :
    (Instr.process (List.replicate 65536 F32.zero)).wellFormed = false := by
  rw [Instr.wellFormed, List.length_replicate]; decide

theorem test_wellFormed_loadtab_refuses_65536_samples :
    (Instr.loadtab 1#8 (List.replicate 65536 F32.zero)).wellFormed = false := by
  rw [Instr.wellFormed, List.length_replicate]; decide

theorem test_wellFormed_process_accepts_65535_samples :
    (Instr.process (List.replicate 65535 F32.zero)).wellFormed = true := by
  rw [Instr.wellFormed, List.length_replicate]; decide

/-! ### Decoding: words written out from R86 and R93 -/

theorem test_decode_process :
    decode [0x01000002#32, 0x00000000#32, 0x3E800000#32, 0xFFFFFFFF#32] =
      .command (.process [0x00000000#32, 0x3E800000#32]) [0xFFFFFFFF#32] := by decide

theorem test_decode_noteon :
    decode [0x02000001#32, 0x3F800000#32, 0x43000000#32] = .command (.noteon 1#16 F32.one F32.oneTwentyEight) [] := by
  decide

theorem test_decode_noteoff : decode [0x03000002#32] = .command (.noteoff 2#16) [] := by decide

theorem test_decode_setfactor :
    decode [0x10030000#32, 0x3FC00000#32] = .command (.setfactor 3#8 0x3FC00000#32) [] := by decide

theorem test_decode_setamp : decode [0x11020000#32, 0x3F000000#32] = .command (.setamp 2#8 F32.half) [] := by decide

theorem test_decode_setmfreq : decode [0x12000000#32, 0x40400000#32] = .command (.setmfreq 0x40400000#32) [] := by
  decide

theorem test_decode_setmamp : decode [0x13000000#32, 0x3F000000#32] = .command (.setmamp F32.half) [] := by decide

theorem test_decode_setenv :
    decode [0x20010000#32, 0x3E800000#32, 0x40000000#32, 0x3F400000#32, 0xBF800000#32] =
      .command (.setenv 1#8 0x3E800000#32 0x40000000#32 0x3F400000#32 0xBF800000#32) [] := by decide

theorem test_decode_setq :
    decode [0x21020000#32, 0x40000000#32, 0x00000000#32, 0x3F000000#32] =
      .command (.setq 2#8 0x40000000#32 0x00000000#32 0x3F000000#32) [] := by decide

theorem test_decode_setmode : decode [0x22030001#32] = .command (.setmode 3#8 1#16) [] := by decide

theorem test_decode_setsil :
    decode [0x23010000#32, 0x3E800000#32, 0x00000000#32] = .command (.setsil 1#8 0x3E800000#32 0x00000000#32) [] := by
  decide

theorem test_decode_setalg : decode [0x30000004#32] = .command (.setalg 4#16) [] := by decide

theorem test_decode_loadtab :
    decode [0x31010002#32, 0x3F000000#32, 0x3F000000#32] = .command (.loadtab 1#8 [F32.half, F32.half]) [] := by
  decide

theorem test_decode_toggle : decode [0x32010001#32] = .command (.toggle 1#8 1#16) [] := by decide

/-- X1, and a first word with bits in every field (X2). -/
theorem test_decode_reserved :
    decode [0x00000000#32] = .reserved 0#32 [] ∧ decode [0xFF123456#32] = .reserved 0xFF123456#32 [] := by decide

/-- X6. -/
theorem test_decode_truncated :
    decode [0x20010000#32, 0x3F000000#32, 0x3F000000#32] = .truncated 0x20010000#32 := by decide

/-- `SETAMP 2` with its first operand byte stored at the lowest address (R65, D4). -/
theorem test_bytes_little_endian :
    decodeBytes [0x00#8, 0x00#8, 0x02#8, 0x11#8, 0x00#8, 0x00#8, 0x00#8, 0x3F#8] =
      some (.command (.setamp 2#8 F32.half) []) := by decide

/-- The bits of `SETAMP 2, 0.5` as spec/opcode_table.json numbers them. -/
theorem test_decodeTableWord : decodeTableWord 64 0x3F00000011020000 = some (.setamp 2#8 F32.half) := by
  decide +kernel

/-! ### Arithmetic -/

/-- O9: `0.1` added to `0.9` rounds to the float above `1.0`. -/
theorem test_fadd_rounds : fadd 0x3F666668#32 0x3DCCCCCD#32 = 0x3F800001#32 := by decide +kernel

/-- T3: `1/3` and `2/3`, rounded to nearest. -/
theorem test_fdiv_rounds : xOf 1 3 = 0x3EAAAAAB#32 ∧ xOf 2 3 = 0x3F2AAAAB#32 := by decide +kernel

/-- T4: `1 - 1/3`, rounded. -/
theorem test_fsub_rounds : fsub F32.one 0x3EAAAAAB#32 = 0x3F2AAAAA#32 := by decide +kernel

/-- E2: `0.5 * 100.0`, then `/ 128.0`. -/
theorem test_fmul_exact : fdiv (fmul F32.half 0x42C80000#32) F32.oneTwentyEight = 0x3EC80000#32 := by decide +kernel

/-- IEEE 754: a sum beyond the largest finite value is infinite, the smallest subnormal is kept, and a zero
difference is `+0.0`. -/
theorem test_float_edges :
    fadd 0x7F7FFFFF#32 0x7F7FFFFF#32 = 0x7F800000#32 ∧ fmul 0x00000002#32 F32.half = 0x00000001#32 ∧
      fsub F32.one F32.one = F32.zero ∧ fadd 0x80000000#32 0x80000000#32 = 0x80000000#32 := by decide +kernel

/-- T6. -/
theorem test_clamp01 :
    clamp01 0xBF000000#32 = F32.zero ∧ clamp01 0x3FC00000#32 = F32.one ∧ clamp01 0x80000000#32 = 0x80000000#32 := by
  decide

/-- T1 and T2. -/
theorem test_curves :
    slopeUp 4 F32.one = [0x00000000#32, 0x3E800000#32, 0x3F000000#32, 0x3F400000#32] ∧
      slopeDown 4 F32.one = [0x3F800000#32, 0x3F400000#32, 0x3F000000#32, 0x3E800000#32] := by decide +kernel

/-! ### The per-sample steps -/

/-- The wave table `0, 1, 2, 3` of O2 to O4 in slot 2. -/
def rampMemory : Memory :=
  testState.mem.replace (.wt .s2) [0x00000000#32, 0x3F800000#32, 0x40000000#32, 0x40400000#32]

def testOsc (phase : F32) : Osc :=
  { phase := phase, frequency := F32.one, amplitude := F32.one, frequencyFactor := F32.one }

/-- O2: the increment is `(1 + 0.5)·1.0`. -/
theorem test_osc_modulated_increment :
    okOf (oscStep testConfig rampMemory .s2 .modulatorWithInput (testOsc F32.zero) F32.half) =
      some (testOsc 0x3FC00000#32, F32.zero) := by decide +kernel

/-- O4: the sum `4.5` is corrected once to `0.5`. -/
theorem test_osc_wraps_once :
    okOf (oscStep testConfig rampMemory .s2 .carrierWithInput (testOsc 0x40200000#32) F32.one) =
      some (testOsc F32.half, 0x40000000#32) := by decide +kernel

/-- O5 with the table value `1.0` at index 1: `(1.0 + 2.0)·0.5`. -/
theorem test_osc_sum :
    okOf (oscStep testConfig rampMemory .s2 .sumWithInput (testOsc F32.one) F32.two) =
      some (testOsc F32.two, 0x3FC00000#32) := by decide +kernel

/-- O11: a phase of `-0.5` is not corrected, and is outside the table. -/
theorem test_osc_negative_phase :
    oscStep testConfig rampMemory .s2 .modulatorWithInput (testOsc 0xBF000000#32) F32.zero =
      .error .tableIndexOutOfRange := by rfl

/-- V5. -/
theorem test_voice_step :
    okOf (voiceStep testConfig testState.mem F32.zero readyVoice) = some (none, 0x3E800000#32) := by decide +kernel

/-- E3, the second sample of Decay, `0.75 + 0.5·0.25`. -/
theorem test_envelope_decay_gain :
    okOf (envStep testConfig testState.mem .s2 readySlot.env) =
      some ({ readySlot.env with phaseIndex := F32.two }, 0x3F600000#32) := by decide +kernel

/-! ### The commands, one step each -/

/-- R1: no active slot. -/
theorem test_process_idle :
    (nextOf (step (streamState [0x01000003#32, 0x3E800000#32, 0xBF000000#32, 0x3F800000#32]))).map
      (fun t => (t.out, t.vmodPhase, t.cp)) =
      some ([0x3E800000#32, 0xBF000000#32, 0x3F800000#32], 0x40400000#32, 4) := by decide +kernel

/-- Slot 2 under algorithm 4 with its envelope, then voice 0 (R136, E3, V5): the table sample at phase `0` is `0`, so
`(0 + 0.5)·0.5·0.875`, plus the voice's `(1·0.5)·0.5`. -/
theorem test_process_slot_and_voice :
    (nextOf (step readyState)).map (fun t => (t.out, t.voices, t.slots.s2.env.phaseIndex, t.slots.s1)) =
      some ([0x3EF00000#32], [none, none], F32.two, testState.slots.s1) := by decide +kernel

/-- R11. -/
theorem test_noteon :
    (nextOf (step (streamState [0x02000003#32, 0x3F800000#32, 0x43000000#32]))).map
      (fun t => (t.slots.s4.env.resultVolume, t.slots.s4.env.stage, t.slots.s4.env.noteOnFlag, t.voices)) =
      some (F32.half, .attack, true,
        [some { frequency := F32.one, velocity := F32.oneTwentyEight, phase := F32.zero, envIdx := 0 }, none]) := by
  decide +kernel

/-- E6 and V4: a Silent Trigger envelope goes to Release, the voices stay. -/
theorem test_noteoff :
    (nextOf (step { readyState with cmd := [0x03000003#32] })).map
      (fun t => (t.slots.s1.env.stage, t.slots.s2.env.stage, t.slots.s2.env.noteOnFlag, t.voices)) =
      some (.release, .release, false, readyState.voices) := by decide +kernel

/-- O13, with a master frequency of 2. -/
theorem test_setfactor :
    (nextOf (step { streamState [0x10030000#32, 0x3FC00000#32] with masterFrequency := F32.two })).map
      (fun t => (t.slots.s3.osc.frequencyFactor, t.slots.s3.osc.frequency, t.slots.s1.osc.frequency)) =
      some (0x3FC00000#32, 0x40400000#32, F32.one) := by decide +kernel

/-- O16 and O17: `0.5` is taken, the float just above 1 is not. -/
theorem test_setamp :
    (nextOf (step (streamState [0x11020000#32, 0x3F000000#32]))).map (fun t => t.slots.s2.osc.amplitude) = some F32.half ∧
    (nextOf (step (streamState [0x11020000#32, 0x3F800001#32]))).map (fun t => (t.slots.s2.osc.amplitude, t.cp)) =
      some (F32.one, 2) := by decide +kernel

/-- R7: every slot's frequency follows, `0.0` is rejected. -/
theorem test_setmfreq :
    (nextOf (step (streamState [0x12000000#32, 0x40400000#32]))).map (fun t => (t.masterFrequency, t.slots.s4.osc.frequency)) =
      some (0x40400000#32, 0x40400000#32) ∧
    (nextOf (step (streamState [0x12000000#32, 0x00000000#32]))).map (fun t => t.masterFrequency) = some F32.one := by
  decide +kernel

/-- R2 and P2: `0.5` is taken, `1.5` is not. -/
theorem test_setmamp :
    (nextOf (step (streamState [0x13000000#32, 0x3F000000#32]))).map (fun t => t.masterAmplitude) = some F32.half ∧
    (nextOf (step (streamState [0x13000000#32, 0x3FC00000#32]))).map (fun t => t.masterAmplitude) = some F32.one := by
  decide +kernel

/-- E9. -/
theorem test_setenv :
    (nextOf (step (streamState [0x20010000#32, 0x3E800000#32, 0x40000000#32, 0x3F400000#32, 0xBF800000#32]))).map
      (fun t => (t.slots.s1.env.attackTime, t.slots.s1.env.decayTime, t.slots.s1.env.sustainLevel,
        t.slots.s1.env.releaseTime)) =
      some (0x3E800000#32, F32.half, 0x3F400000#32, F32.half) := by decide +kernel

/-- E11: the middle factor is kept, the first element of each curve is exact. -/
theorem test_setq :
    (nextOf (step (streamState [0x21020000#32, 0x40000000#32, 0x00000000#32, 0x3F000000#32]))).map
      (fun t => (t.slots.s2.env.attackQ, t.slots.s2.env.decayQ, t.slots.s2.env.releaseQ)) =
      some (F32.two, F32.one, F32.half) ∧
    (nextOf (step (streamState [0x21020000#32, 0x40000000#32, 0x00000000#32, 0x3F000000#32]))).map
      (fun t => ((t.mem.table (.ea .s2)).head?, t.mem.table (.ed .s2), (t.mem.table (.er .s2)).head?)) =
      some (some F32.zero, testState.mem.table (.ed .s2), some F32.one) := by decide +kernel

/-- E15. -/
theorem test_setmode :
    (nextOf (step (streamState [0x22030001#32]))).map (fun t => t.slots.s3.env.mode) = some .loop ∧
    (nextOf (step (streamState [0x22030002#32]))).map (fun t => t.slots.s3.env.mode) = some .trigger := by
  decide +kernel

/-- E13. -/
theorem test_setsil :
    (nextOf (step (streamState [0x23010000#32, 0x3E800000#32, 0x00000000#32]))).map
      (fun t => (t.slots.s1.env.silentTime, t.slots.s1.env.sustainLoopTime)) = some (0x3E800000#32, F32.half) := by
  decide +kernel

/-- R8. -/
theorem test_setalg :
    (nextOf (step (streamState [0x30000004#32]))).map (fun t => t.currentAlgorithm) = some .a4 ∧
    (nextOf (step (streamState [0x30000005#32]))).map (fun t => (t.currentAlgorithm, t.cp)) = some (.a1, 1) := by
  decide +kernel

/-- O20 and O19: four samples replace the table, two do not. -/
theorem test_loadtab :
    (nextOf (step (streamState [0x31010004#32, 1#32, 2#32, 3#32, 4#32]))).map (fun t => t.mem.table (.wt .s1)) =
      some [1#32, 2#32, 3#32, 4#32] ∧
    (nextOf (step (streamState [0x31010002#32, 0x3F000000#32, 0x3F000000#32]))).map
      (fun t => (t.mem.table (.wt .s1), t.cp)) = some (testState.mem.table (.wt .s1), 3) := by decide +kernel

/-- R9 and X5. -/
theorem test_toggle :
    (nextOf (step (streamState [0x32010000#32]))).map (fun t => (t.slots.s1.oscActive, t.slots.s1.envActive)) =
      some (true, false) ∧
    (nextOf (step (streamState [0x32010002#32]))).map (fun t => (t.slots.s1.oscActive, t.slots.s1.envActive)) =
      some (false, false) := by decide +kernel

/-- X3: a slot field of 5 rejects the whole and swallows its word. -/
theorem test_rejected_slot : nextOf (step (streamState [0x11050000#32, 0x3E800000#32])) =
    some { streamState [0x11050000#32, 0x3E800000#32] with cp := 2 } := by decide +kernel

/-- X6. -/
theorem test_truncated :
    faultOf (step (streamState [0x20010000#32, 0x3F000000#32, 0x3F000000#32])) = some .truncatedCommand := by
  decide +kernel

/-- The reset of `State.reset` gives T's tables (95_test_vectors.md section 0). -/
theorem test_reset_tables :
    State.reset.mem.table (.ea .s1) = [0x00000000#32, 0x3E800000#32, 0x3F000000#32, 0x3F400000#32] ∧
      State.reset.mem.table (.wt .s3) = [0x00000000#32, 0x3F800000#32, 0x00000000#32, 0xBF800000#32] := by
  decide +kernel

/-! ### Witnesses: the hypotheses of the obligations can be met -/

theorem readyState_legal : readyState.Legal := by
  refine ⟨by decide +kernel, by decide +kernel, by decide +kernel, by decide +kernel, ?_, by decide +kernel,
    by decide +kernel, ?_, by decide +kernel, ?_⟩
  · intro k; cases k <;> exact ⟨by decide +kernel, by decide +kernel, by decide +kernel⟩
  · intro k; cases k <;> decide +kernel
  · intro v hv
    have : v = readyVoice := by simpa [readyState] using hv
    subst this; decide +kernel

theorem readyState_vmReady : readyState.VmReady := by
  refine ⟨by decide +kernel, by decide +kernel, fun v hv => ?_⟩
  have : v = readyVoice := by simpa [readyState] using hv
  subst this
  exact ⟨by decide +kernel, by decide +kernel, forall_of_all (by decide +kernel)⟩

theorem readySlot_steps (stage : Stage) : inRange testConfig.M (stepOf testConfig readySlot.env stage) = true := by
  cases stage <;> decide +kernel

/-- Every number of samples up to the largest. -/
theorem witness_DecodeOfEncodedCommand :
    (Instr.process (List.replicate 65535 F32.zero)).wellFormed = true ∧ (Instr.process []).wellFormed = true ∧
      (Instr.toggle 0xFF#8 0xFFFF#16).wellFormed = true :=
  ⟨test_wellFormed_process_accepts_65535_samples, by decide, by decide⟩

theorem witness_EncodeOfDecodedCommand :
    decode [0x1102FFFF#32, 0x3E800000#32, 0x30000004#32] = .command (.setamp 2#8 0x3E800000#32) [0x30000004#32] := by
  decide

/-- The row whose length is largest, a row of every other length, a reserved `op`, and two headers that differ in
`slot` only; then a step of a rejected command. -/
theorem witness_CommandLengthComesFromOpAndImm :
    (headerOp 0x0100FFFF#32 = 0x01#8 ∧ headerNops 0x0100FFFF#32 = 65535) ∧
    (headerOp 0x20FF0000#32 = 0x20#8 ∧ headerOp 0x21000000#32 = 0x21#8 ∧ headerOp 0x23000000#32 = 0x23#8 ∧
      headerOp 0x10000000#32 = 0x10#8 ∧ headerOp 0x3200FFFF#32 = 0x32#8 ∧ headerOp 0xFF123456#32 ∉ assignedOps) ∧
    (headerOp 0x31010002#32 = headerOp 0x31FF0002#32 ∧ headerImm 0x31010002#32 = headerImm 0x31FF0002#32) ∧
    (streamState [0x11050000#32, 0x3E800000#32]).fetch = [0x11050000#32, 0x3E800000#32] ∧
    ∃ t, step (streamState [0x11050000#32, 0x3E800000#32]) = .next t :=
  ⟨by decide, by decide, by decide, rfl, exists_next (by decide +kernel)⟩

theorem witness_ReservedOpcodeHasNoEffect :
    (streamState [0xFF123456#32, 0x11020000#32]).fetch = [0xFF123456#32, 0x11020000#32] ∧
      headerOp 0xFF123456#32 ∉ assignedOps := ⟨rfl, by decide⟩

theorem witness_IgnoredFieldsHaveNoEffect :
    Op.process ∈ [Op.process, .noteon, .noteoff, .setmfreq, .setmamp, .setalg] ∧
      nops .process 2#16 ≤ [F32.zero, F32.zero].length ∧
      Op.setenv ∈ [Op.setfactor, .setamp, .setmfreq, .setmamp, .setenv, .setq, .setsil] ∧
      nops .setenv 0xFFFF#16 ≤ [F32.zero, F32.zero, F32.zero, F32.zero].length ∧
      (0x0003#16).extractLsb' 0 2 = (0xFFFF#16).extractLsb' 0 2 := by decide

theorem witness_WordsAreCarriedLittleEndian :
    wordsOfBytes [0x00#8, 0x00#8, 0x02#8, 0x11#8] = some [0x11020000#32] := by decide

theorem witness_StepRunsTheCommandAtThePointer :
    decode (streamState [0x11020000#32, 0x3F000000#32, 0x30000004#32]).fetch =
      .command (.setamp 2#8 F32.half) [0x30000004#32] := by decide +kernel

/-- A command cut by one word, a whole one, and a pointer at the end. -/
theorem witness_StreamEndFaultsOnlyInsideACommand :
    ((streamState [0x20010000#32, 1#32, 1#32, 1#32]).fetch = 0x20010000#32 :: [1#32, 1#32, 1#32] ∧
      [1#32, 1#32, 1#32].length < headerNops 0x20010000#32) ∧
    ((streamState [0x30000004#32]).fetch = 0x30000004#32 :: [] ∧
      ¬ ([] : List Word).length < headerNops 0x30000004#32) ∧
    testState.cmd.length ≤ testState.cp := by
  refine ⟨⟨rfl, by decide⟩, ⟨rfl, by decide⟩, by decide +kernel⟩

theorem witness_DeliveredTableWordIsTheNextStep :
    decodeTableWord 32 0x30000004 = some (.setalg 4#16) ∧
      decodeTableWord 160 0x3F0000003F0000003F0000003F00000020010000 =
        some (.setenv 1#8 F32.half F32.half F32.half F32.half) := by decide +kernel

theorem witness_StreamsWithoutProcessRunToTheirEnd :
    (∀ i ∈ [Instr.setalg 4#16, .toggle 1#8 0#16], i.wellFormed = true ∧ ∀ xs, i ≠ .process xs) ∧
      (streamState [0x30000004#32, 0x32010000#32]).fetch = [Instr.setalg 4#16, .toggle 1#8 0#16].flatMap encode ∧
      (streamState [0x30000004#32, 0x32010000#32]).cp ≤ (streamState [0x30000004#32, 0x32010000#32]).cmd.length := by
  refine ⟨?_, rfl, by decide +kernel⟩
  intro i hi
  simp only [List.mem_cons, List.not_mem_nil, or_false] at hi
  rcases hi with rfl | rfl <;> exact ⟨rfl, fun _ => by simp⟩

theorem witness_CommandsKeepConstantsAndAppendOutputs :
    (∃ t, exec (.process [F32.half]) readyState = .next t) ∧ ∃ t, exec (.setalg 4#16) readyState = .next t :=
  ⟨exists_next (by decide +kernel), exists_next (by decide +kernel)⟩

/-- `SETALG` meets the premises of every clause but its own, and `PROCESS` those of that one and, with a voice that
goes on, of the clause on the voices' frequency and velocity. -/
theorem witness_EachRegisterIsWrittenByItsCommandsOnly :
    (∃ t, exec (.setalg 4#16) readyState = .next t) ∧ (∀ xs, Instr.setalg 4#16 ≠ .process xs) ∧
      (∀ m f v, Instr.setalg 4#16 ≠ .noteon m f v) ∧ (∀ m, Instr.setalg 4#16 ≠ .noteoff m) ∧
      (∀ b n, Instr.setalg 4#16 ≠ .toggle b n) ∧ (∀ b f, Instr.setalg 4#16 ≠ .setfactor b f) ∧
      (∃ t, exec (.process [F32.half]) readyState = .next t) ∧ (∀ id, Instr.process [F32.half] ≠ .setalg id) ∧
      (∀ m f v, Instr.process [F32.half] ≠ .noteon m f v) ∧
      ((nextOf (exec (.process [F32.half])
        { readyState with voices := [some { readyVoice with envIdx := 0 }] })).map
        (fun t => t.voices.map (fun v => v.isSome))) = some [true] := by
  refine ⟨exists_next (by decide +kernel), by simp, by simp, by simp, by simp, by simp,
    exists_next (by decide +kernel), by simp, by simp, by decide +kernel⟩

/-- The largest slot number, and the fields on both sides of the range. -/
theorem witness_SlotFieldSelectsOneSlotOrRejects :
    slotOf 4#8 = some .s4 ∧ slotOf 1#8 = some .s1 ∧ slotOf 0#8 = none ∧ slotOf 5#8 = none ∧ slotOf 255#8 = none ∧
      (Instr.setamp 5#8 F32.one).slotField = some 5#8 := by decide

theorem witness_EveryStepKeepsTheStateLegal : readyState.Legal ∧ ∃ t, step readyState = .next t :=
  ⟨readyState_legal, exists_next (by decide +kernel)⟩

/-- Tables of one element, the smallest configuration, is legal; an empty one is not. -/
theorem witness_ConstructAdmitsExactlyTheLegalConfigurations :
    ({ testConfig with N := 1, M := 1, pool := 1, sinTab := [F32.zero], vmModFreq := F32.half } : Config).valid = true ∧
      testConfig.resetValues = ResetValues.decided ∧ inRange 1 F32.half = true ∧
      ({ testConfig with N := 0, sinTab := [] } : Config).valid = false := by decide +kernel

theorem witness_ResetValuesOfEveryRegister : testConfig.resetValues = ResetValues.decided := rfl

/-- The largest finite value, the smallest subnormal and the two zeros are finite; a divisor that is not zero and one
that is; exact sums that are zero; a NaN, and infinities of equal and of different signs. -/
theorem witness_FourOperationsRoundToNearestEven :
    isFinite 0x7F7FFFFF#32 = true ∧ isFinite 0x00000001#32 = true ∧ isFinite 0x80000000#32 = true ∧
      units 0x00000001#32 ≠ 0 ∧ units 0x80000000#32 = 0 ∧ units F32.one + units F32.negOne = 0 ∧
      units F32.one - units F32.one = 0 ∧ isNaN 0x7FC00000#32 = true ∧ isInf 0x7F800000#32 = true ∧
      isInf 0xFF800000#32 = true ∧ signBit 0x7F800000#32 ≠ signBit 0xFF800000#32 := by decide +kernel

/-- IEEE 754: half a unit in the last place above the largest finite value is the tie that overflows, the next smaller
addend is not; infinities and the signs of zeros. -/
theorem test_overflow_and_infinities :
    fadd 0x7F7FFFFF#32 0x73000000#32 = 0x7F800000#32 ∧ fadd 0x7F7FFFFF#32 0x72FFFFFF#32 = 0x7F7FFFFF#32 ∧
      fsub F32.one 0x7F800000#32 = 0xFF800000#32 ∧ fdiv F32.one 0x80000000#32 = 0xFF800000#32 ∧
      fdiv F32.one 0xFF800000#32 = 0x80000000#32 ∧ fmul F32.negOne F32.zero = 0x80000000#32 := by decide +kernel

theorem witness_ComparisonsTestsAndClamp :
    isNaN 0x7F800001#32 = true ∧ isFinite 0x7F7FFFFF#32 = true ∧ isNaN 0x7F800000#32 = false ∧
      inUnit 0x80000000#32 = true ∧ flt 0x80000001#32 F32.zero = true ∧ fgt 0x3F800001#32 F32.one = true := by
  decide

theorem witness_FloorAndIntegerConversionAreExact :
    isFinite 0x7F800000#32 = false ∧ isFinite 0xFF7FFFFF#32 = true ∧ (2 ^ 24 ≤ 2 ^ 24) := by decide

theorem witness_PowHasItsNamedProperties :
    fgt 0x00000001#32 F32.zero = true ∧ isFinite 0x7F7FFFFF#32 = true ∧ fle F32.zero F32.half = true ∧
      fle F32.half F32.one = true ∧ isFinite F32.two = true ∧ fge F32.two F32.zero = true := by decide

theorem witness_CurvesFollowTheirFormulaInsideTheUnitRange :
    fgt F32.two F32.zero = true ∧ isFinite F32.two = true ∧ fgt 0x7F800000#32 F32.zero = true ∧ 3 < 4 := by decide

theorem witness_TablesChangeOnlyBySetqAndLoadtab :
    (∃ t, exec (.setq 2#8 F32.two F32.zero F32.half) testState = .next t) ∧ slotOf 2#8 = some .s2 ∧
      slotOf 2#8 ≠ some .s1 ∧ (∃ t, exec (.loadtab 4#8 [F32.zero]) testState = .next t) ∧ slotOf 4#8 ≠ some .s1 :=
  ⟨exists_next (by decide +kernel), by decide, by decide, exists_next (by decide +kernel), by decide⟩

theorem witness_SetqWithUnchangedValuesChangesNothing : readyState.Legal ∧ slotOf 2#8 = some .s2 :=
  ⟨readyState_legal, by decide⟩

/-- Phase `3.5`, in the last element. -/
theorem witness_OscillatorStepInEachMode :
    floorIdx (testOsc 0x40600000#32).phase = some 3 ∧
      rampMemory.read (.wt .s2) 3 = .ok 0x40400000#32 :=
  ⟨by decide +kernel, by rfl⟩

/-- NaN, the value just below 0, the table size itself, and the largest value below it. -/
theorem witness_OscillatorLookupFloorsThePhase :
    rampMemory.wf testConfig = true ∧ testConfig.N ≤ 65535 ∧ isFinite 0x7FC00000#32 = false ∧
      flt 0x80000001#32 F32.zero = true ∧ fge 0x40800000#32 (i2f testConfig.N) = true ∧
      inRange testConfig.N 0x407FFFFF#32 = true ∧ inRange testConfig.N 0x80000000#32 = true := by decide +kernel

theorem witness_PhasesStayInsideTheirTables :
    inRange testConfig.N (testOsc 0x407FFFFF#32).phase = true ∧
      inRange testConfig.N (oscInc .carrierWithInput (testOsc 0x407FFFFF#32) F32.one) = true ∧
      (∃ r, oscStep testConfig rampMemory .s2 .carrierWithInput (testOsc 0x407FFFFF#32) F32.one = .ok r) ∧
      testState.mem.wf testConfig = true ∧ testConfig.M ≤ 2 ^ 24 ∧
      inRange testConfig.M readySlot.env.phaseIndex = true ∧
      inRange testConfig.M (stepOf testConfig readySlot.env readySlot.env.stage) = true :=
  ⟨by decide +kernel, by decide +kernel, exists_ok (by decide +kernel), by decide +kernel, by decide +kernel,
    by decide +kernel, by decide +kernel⟩

theorem witness_AmplitudeScalesTheWholeSample :
    oscStep testConfig rampMemory .s2 .sumWithInput { testOsc F32.one with amplitude := F32.one } F32.two =
      .ok (testOsc F32.two, 0x3FC00000#32) ∧ isNaN 0x3FC00000#32 = false :=
  ⟨ok_of_okOf (by decide +kernel), by decide⟩

theorem witness_UnitFrequencyReadsTheTableInOrder :
    rampMemory.wf testConfig = true ∧ 1 ≤ testConfig.N ∧ testConfig.N ≤ 65535 ∧ (testOsc F32.zero).phase = F32.zero ∧
      (testOsc F32.zero).frequency = F32.one ∧ [F32.zero, F32.zero, F32.zero, F32.zero].length = testConfig.N := by
  decide +kernel

/-- O12. -/
theorem witness_SetFrequencyAcceptsPositiveValues :
    fgt 0x00000001#32 F32.zero = true ∧ fgt 0x80000000#32 F32.zero = false ∧ isNaN 0x7FC00000#32 = true ∧
      ∃ r, oscStep testConfig rampMemory .s2 .carrierNoInput { testOsc F32.zero with frequency := 0x7F800000#32 }
        F32.zero = .ok r :=
  ⟨by decide, by decide, by decide, exists_ok (by decide +kernel)⟩

theorem witness_SetampResult :
    slotOf 2#8 = some .s2 ∧ fge 0x80000000#32 F32.zero = true ∧ fle F32.one F32.one = true ∧
      fle 0x3F800001#32 F32.one = false ∧ fge 0x7FC00000#32 F32.zero = false ∧ slotOf 5#8 = none ∧
      flt 0x80000001#32 F32.zero = true := by decide

theorem witness_SetfactorResult :
    slotOf 3#8 = some .s3 ∧ fgt 0x7F800000#32 F32.zero = true ∧ fgt 0x80000000#32 F32.zero = false ∧
      slotOf 9#8 = none := by decide

theorem witness_LoadtabResult :
    slotOf 1#8 = some .s1 ∧ [F32.zero, F32.one, F32.zero, F32.negOne].length = testState.cfg.N ∧
      [F32.half, F32.half].length ≠ testState.cfg.N ∧ slotOf 0#8 = none ∧ (testState.cfg.N : Int) ≤ 4 := by
  decide +kernel

/-- Each stage, the last element of each curve. -/
theorem witness_EnvelopeGainPerStage :
    floorIdx 0x407FFFFF#32 = some 3 ∧ (∃ v, testState.mem.read (.ea .s1) 3 = .ok v) ∧
      (∃ v, testState.mem.read (.ed .s1) 3 = .ok v) ∧ (∃ v, testState.mem.read (.er .s1) 3 = .ok v) ∧
      (Env.reset ResetValues.decided).stage = .silent ∧
      ({ Env.reset ResetValues.decided with stage := .sustain } : Env).stage = .sustain ∧
      testState.mem.wf testConfig = true ∧ testConfig.M ≤ 2 ^ 24 ∧ readySlot.env.stage = .decay ∧
      isFinite 0x7F800000#32 = false ∧ isFinite 0x40800000#32 = true ∧ inRange testConfig.M 0x40800000#32 = false :=
  ⟨by decide +kernel, exists_ok (by decide +kernel), exists_ok (by decide +kernel), exists_ok (by decide +kernel),
    rfl, rfl, by decide +kernel, by decide, rfl, by decide, by decide, by decide +kernel⟩

/-- Decay at index 3 with a step of 1 meets the table size exactly; at index 1 it does not reach it. -/
theorem witness_EnvelopeTransitionsAtTheWrap :
    (∃ r, envStep testConfig testState.mem .s2 { readySlot.env with phaseIndex := 0x40400000#32 } = .ok r) ∧
      ({ readySlot.env with phaseIndex := 0x40400000#32 } : Env).frozen = false ∧
      fge (fadd 0x40400000#32 (stepOf testConfig readySlot.env .decay)) (i2f testConfig.M) = true ∧
      (∃ r, envStep testConfig testState.mem .s2 readySlot.env = .ok r) ∧ readySlot.env.frozen = false ∧
      fge (fadd readySlot.env.phaseIndex (stepOf testConfig readySlot.env .decay)) (i2f testConfig.M) = false :=
  ⟨exists_ok (by decide +kernel), by decide, by decide +kernel, exists_ok (by decide +kernel), by decide,
    by decide +kernel⟩

/-- Every transition of the previous obligation, in the modes that reach it. -/
theorem witness_EnvelopeTransitionsAtTheWrap_stages :
    ∀ stage : Stage, (∃ r, envStep testConfig testState.mem .s2
        { readySlot.env with phaseIndex := 0x40400000#32, stage := stage, mode := .loop } = .ok r) ∧
      ({ readySlot.env with phaseIndex := 0x40400000#32, stage := stage, mode := .loop } : Env).frozen = false := by
  intro stage
  cases stage <;> exact ⟨exists_ok (by decide +kernel), by decide⟩

theorem witness_StageMovesOnlyForwardExceptReentry :
    ∃ r, envStep testConfig testState.mem .s2
      { readySlot.env with phaseIndex := 0x40400000#32, stage := .silent, mode := .loop } = .ok r :=
  exists_ok (by decide +kernel)

/-- A long enough block on a state whose envelopes hold in Sustain and are applied, and a wrap in Loop mode. -/
theorem witness_TriggerHoldEndsOnlyByANote :
    (∃ t, exec (.process [F32.half, F32.half]) { readyState with
      slots := readyState.slots.set .s2 { readySlot with env := { readySlot.env with stage := .sustain } } } = .next t) ∧
    (∀ m f v, Instr.process [F32.half, F32.half] ≠ .noteon m f v) ∧
    (∀ m, Instr.process [F32.half, F32.half] ≠ .noteoff m) ∧ readySlot.env.mode = .trigger ∧
    (∃ r, envStep testConfig testState.mem .s2
      { readySlot.env with phaseIndex := 0x40400000#32, stage := .sustain, mode := .loop } = .ok r) ∧
    fge (fadd 0x40400000#32 (stepOf testConfig readySlot.env .sustain)) (i2f testConfig.M) = true :=
  ⟨exists_next (by decide +kernel), by simp, by simp, rfl, exists_ok (by decide +kernel), by decide +kernel⟩

theorem witness_FrozenEnvelopeAppliesOneGain :
    (Env.reset ResetValues.decided).mode = .trigger ∧ (Env.reset ResetValues.decided).stage = .silent ∧
      ({ Env.reset ResetValues.decided with mode := .loop } : Env).noteOnFlag = false ∧
      ∃ r, envStep testConfig testState.mem .s1 { Env.reset ResetValues.decided with mode := .loop } = .ok r :=
  ⟨by decide, by decide, by decide, exists_ok (by decide +kernel)⟩

/-- The last index of each curve, Q-factors of 1, volumes 0 and 1. -/
theorem witness_EnvelopeGainStaysInTheUnitRange :
    1 ≤ testConfig.M ∧ testConfig.M ≤ 2 ^ 24 ∧ curvesMatch testConfig testState.mem .s2 readySlot.env ∧
      positive F32.one = true ∧ isFinite F32.one = true ∧ inUnit F32.one = true ∧ inUnit F32.zero = true ∧
      inRange testConfig.M 0x407FFFFF#32 = true :=
  ⟨by decide, by decide, ⟨by decide +kernel, by decide +kernel, by decide +kernel⟩, by decide, by decide, by decide,
    by decide, by decide +kernel⟩

/-- From index 2 of 4: one sample stays in Attack, two use the curve up. -/
theorem witness_AttackAtUnitStepUsesUpItsCurve :
    testState.mem.wf testConfig = true ∧ testConfig.M ≤ 2 ^ 24 ∧
      stepOf testConfig (Env.reset ResetValues.decided) .attack = F32.one ∧ F32.two = i2f 2 ∧ 2 < testConfig.M ∧
      2 + [F32.zero].length ≤ testConfig.M ∧ 2 + [F32.zero, F32.zero].length = testConfig.M := by decide +kernel

theorem witness_EnvelopeParameterCommandsResult :
    slotOf 1#8 = some .s1 ∧ slotOf 5#8 = none ∧ (1#16 ≠ 0#16) ∧ (2#16 ≠ 0#16 ∧ 2#16 ≠ 1#16) := by decide

theorem witness_SetqResult : slotOf 2#8 = some .s2 ∧ slotOf 255#8 = none := by decide

/-- The lowest free voice is not the first; a pool without a free one; both target bits. -/
theorem witness_NoteonResult :
    readyState.voices[1]? = some none ∧ (∀ i : Nat, i < 1 → readyState.voices[i]? ≠ some none) ∧
      (∀ j : Nat, ({ readyState with voices := [some readyVoice] } : State).voices[j]? ≠ some none) ∧
      (3#16).getLsbD 1 = true ∧ (1#16).getLsbD 1 = false ∧ fgt F32.one F32.zero = true ∧
      fgt F32.negOne F32.zero = false := by
  refine ⟨rfl, ?_, ?_, by decide, by decide, by decide, by decide⟩
  · intro i hi
    obtain rfl : i = 0 := by omega
    decide +kernel
  · intro j
    rcases j with _ | j
    · decide +kernel
    · simp

/-- The largest velocity. -/
theorem witness_NoteVolumeStaysInTheUnitRange :
    readyState.Legal ∧ isFinite readyState.cfg.velocityMax = true ∧ positive readyState.cfg.velocityMax = true ∧
      fge F32.oneTwentyEight F32.zero = true ∧ fle F32.oneTwentyEight readyState.cfg.velocityMax = true ∧
      (1#16).getLsbD 0 = true ∧ (∃ t, exec (.noteon 1#16 F32.one F32.oneTwentyEight) readyState = .next t) ∧
      (2#16).getLsbD 0 = false ∧ ∃ t, exec (.noteon 2#16 F32.one F32.oneTwentyEight) readyState = .next t :=
  ⟨readyState_legal, by decide +kernel, by decide +kernel, by decide, by decide +kernel, by decide,
    exists_next (by decide +kernel), by decide, exists_next (by decide +kernel)⟩

theorem witness_VoiceStepsAndTheirMix :
    floorIdx readyVoice.phase = some 1 ∧ testState.mem.read .sine 1 = .ok F32.one ∧
      testState.mem.read .vmcurve readyVoice.envIdx = .ok F32.half ∧
      (∃ r, mixVoices testConfig testState.mem F32.zero [none, some readyVoice] F32.zero = .ok r) ∧
      testState.mem.wf testConfig = true ∧ testConfig.N ≤ 65535 ∧ isFinite 0x7FC00000#32 = false ∧
      isFinite 0x80000001#32 = true ∧ inRange testConfig.N 0x80000001#32 = false :=
  ⟨by decide +kernel, ok_of_okOf (by decide +kernel), ok_of_okOf (by decide +kernel), exists_ok (by decide +kernel),
    by decide +kernel, by decide, by decide, by decide, by decide +kernel⟩

/-- The last sample of a curve of two, and a voice that goes on. -/
theorem witness_VoiceSoundsForTheRestOfItsCurve :
    (∃ t, exec (.process [F32.half]) readyState = .next t) ∧ readyState.voices[0]? = some (some readyVoice) ∧
      readyState.voices[1]? = some none ∧ readyVoice.envIdx < readyState.cfg.C ∧
      readyState.cfg.C ≤ readyVoice.envIdx + [F32.half].length ∧
      (∃ t, exec (.process [F32.half]) { readyState with voices := [some { readyVoice with envIdx := 0 }] } = .next t) ∧
      0 + [F32.half].length < readyState.cfg.C :=
  ⟨exists_next (by decide +kernel), rfl, rfl, by decide +kernel, by decide +kernel, exists_next (by decide +kernel),
    by decide +kernel⟩

theorem witness_AlgorithmTableAndInactiveSlots :
    testState.slots.s1.oscActive = false ∧ readySlot.oscActive = true ∧ readySlot.envActive = true ∧
      (∃ o, oscBlock testConfig testState.mem .s2 .sumWithInput readySlot.osc [F32.half] = .ok o) ∧
      ∃ e, envBlock testConfig testState.mem .s2 readySlot.env [F32.half] = .ok e :=
  ⟨by decide +kernel, rfl, rfl, exists_ok (by decide +kernel), exists_ok (by decide +kernel)⟩

theorem witness_ProcessRunsSlotsThenGainThenVoices : ∃ t, exec (.process [F32.half]) readyState = .next t :=
  exists_next (by decide +kernel)

theorem witness_MasterGainTouchesTheOutputOnly : ∃ t, exec (.process [F32.half, F32.one]) readyState = .next t :=
  exists_next (by decide +kernel)

theorem witness_ProcessFrame :
    (∃ t, exec (.process [F32.half]) readyState = .next t) ∧ (readyState.slots.get .s1).oscActive = false ∧
      (readyState.slots.get .s1).envActive = false :=
  ⟨exists_next (by decide +kernel), by decide +kernel, by decide +kernel⟩

theorem witness_IdleBlockScalesItsInput :
    ∃ s : State, s.Legal ∧ (∀ k, (s.slots.get k).oscActive = false) ∧ (∀ v ∈ s.voices, v = none) ∧
      inRange s.cfg.N s.vmodPhase = true ∧ inRange s.cfg.N s.cfg.vmModFreq = true := by
  refine ⟨testState, ⟨by decide +kernel, by decide +kernel, by decide +kernel, by decide +kernel, ?_,
    by decide +kernel, by decide +kernel, ?_, by decide +kernel, ?_⟩, ?_, by decide +kernel, by decide +kernel,
    by decide +kernel⟩
  · intro k; cases k <;> exact ⟨by decide +kernel, by decide +kernel, by decide +kernel⟩
  · intro k; cases k <;> decide +kernel
  · intro v hv; simp [testState, State.resetWith] at hv
  · intro k; cases k <;> decide +kernel

theorem readyState_inactive (k : Slot) (h : k ≠ .s2) : (readyState.slots.get k).oscActive = false := by
  revert h; cases k <;> decide +kernel

theorem witness_ReadyBlockCompletes : readyState.Legal ∧ readyState.BlockReady := by
  refine ⟨readyState_legal, ⟨fun k => ?_, readyState_vmReady⟩⟩
  by_cases hk : k = .s2
  · subst hk
    exact ⟨fun _ => by decide +kernel, fun _ => by decide +kernel, fun _ => by decide +kernel,
      fun _ _ => by decide +kernel, fun _ _ stage => readySlot_steps stage⟩
  · have h0 := readyState_inactive k hk
    refine ⟨?_, ?_, ?_, ?_, ?_⟩ <;> (intro h1; exact absurd (h0.symm.trans h1) (by decide))

/-- Under algorithm 2, whose modes take the input into the phase, with the extreme inputs. -/
theorem witness_UnitBlockCompletesUnderEveryAlgorithm :
    let s := { readyState with currentAlgorithm := .a2 }
    s.Legal ∧ s.UnitReady ∧ (∀ x ∈ [F32.one, F32.negOne], signedUnit x = true) := by
  have h := readyState_legal
  have hv := readyState_vmReady
  refine ⟨⟨h.1, h.2, h.3, h.4, h.5, h.6, h.7, h.8, h.9, h.10⟩, ⟨fun k => ?_, ⟨hv.1, hv.2, hv.3⟩⟩, forall_of_all (by decide +kernel)⟩
  by_cases hk : k = .s2
  · subst hk
    exact ⟨fun _ => by decide +kernel, fun _ => by decide +kernel, fun _ _ => by decide +kernel,
      fun _ => forall_of_all (by decide +kernel), fun _ _ => by decide +kernel, fun _ _ stage => readySlot_steps stage,
      fun _ _ => by decide +kernel, fun _ _ => by decide +kernel⟩
  · have h0 := readyState_inactive k hk
    refine ⟨?_, ?_, ?_, ?_, ?_, ?_, ?_, ?_⟩ <;> (intro h1; exact absurd (h0.symm.trans h1) (by decide))

/-- Slot 2, the first active one, with a NaN phase and with a phase of the table size itself; its envelope in Decay with
its oscillator's samples run; the modulator's good phase and a voice that is the lowest-numbered occupied one. -/
theorem witness_ProcessFaultsAtABadPhase :
    readyState.mem.wf readyState.cfg = true ∧ readyState.cfg.N ≤ 65535 ∧
      (∀ j : Slot, j.number < Slot.number .s2 → (readyState.slots.get j).oscActive = false) ∧
      (readyState.slots.get .s2).oscActive = true ∧ isFinite 0x7FC00000#32 = false ∧
      isFinite 0x40800000#32 = true ∧ inRange readyState.cfg.N 0x40800000#32 = false ∧ testConfig.M ≤ 2 ^ 24 ∧
      (∃ r, oscBlock testConfig testState.mem .s2 .sumWithInput readySlot.osc [F32.half] = .ok r) ∧
      readySlot.envActive = true ∧ readySlot.env.stage = .decay ∧ inRange testConfig.M 0x40800000#32 = false ∧
      inRange testConfig.N testState.vmodPhase = true ∧
      ([none, some readyVoice] : List (Option Voice))[1]? = some (some readyVoice) ∧
      ∀ i : Nat, i < 1 → ([none, some readyVoice] : List (Option Voice))[i]? = some none := by
  refine ⟨by decide +kernel, by decide +kernel, ?_, by decide +kernel, by decide, by decide, by decide +kernel,
    by decide, exists_ok (by decide +kernel), rfl, rfl, by decide +kernel, by decide +kernel, rfl, ?_⟩
  · intro j; cases j <;> decide +kernel
  · intro i hi
    obtain rfl : i = 0 := by omega
    rfl

/-- Slot 1 is active and good, slot 2 behind it has a phase of the table size itself (R231, R279). -/
theorem test_fault_behind_a_good_slot :
    faultOf (exec (.process [F32.half]) { readyState with
      slots := (readyState.slots.set .s1 readySlot).set .s2
        { readySlot with osc := { readySlot.osc with phase := 0x40800000#32 } } }) = some .tableIndexOutOfRange := by
  decide +kernel

/-- R279, witness for the fault clause: the voice's bad phase is met after the slots. -/
theorem test_fault_of_a_voice :
    faultOf (exec (.process [F32.half]) { readyState with
      voices := [none, some { readyVoice with phase := 0x7FC00000#32 }] }) = some .indexUndefined := by
  decide +kernel

/-- Every clause of the identifiers, kinds, frequencies and amplitudes, at the ends of its range. -/
theorem witness_RouterConfigurationCommandsResult :
    5 ≤ (5#16).toNat ∧ 5 ≤ (0xFFFF#16).toNat ∧ 2 ≤ (2#16).toNat ∧ slotOf 4#8 = some .s4 ∧ slotOf 0#8 = none ∧
      (∃ t u, exec (.toggle 1#8 0#16) testState = .next t ∧ exec (.toggle 1#8 0#16) t = .next u) ∧
      fgt 0x00000001#32 F32.zero = true ∧ fgt 0x80000000#32 F32.zero = false ∧ fge 0x80000000#32 F32.zero = true ∧
      fle F32.one F32.one = true ∧ fle 0x3F800001#32 F32.one = false :=
  ⟨by decide, by decide, by decide, by decide, by decide, ⟨_, _, rfl, rfl⟩, by decide, by decide, by decide, by decide,
    by decide⟩

end Sys2Proof.Tests
end

section
/-! PROOFS. The family of 30_encoding.md: the fields of the header word (R81), and the length of a command with the
advance of the command pointer (R83). -/

namespace Sys2Proof

/-! ### The header word's fields as numbers (R81) -/

theorem headerOp_toNat (w : Word) : (headerOp w).toNat = w.toNat / 2 ^ 24 := by
  have h := w.isLt
  simp only [headerOp, BitVec.extractLsb'_toNat, Nat.shiftRight_eq_div_pow]
  omega

theorem headerSlot_toNat (w : Word) : (headerSlot w).toNat = w.toNat / 2 ^ 16 % 2 ^ 8 := by
  simp only [headerSlot, BitVec.extractLsb'_toNat, Nat.shiftRight_eq_div_pow]

theorem headerImm_toNat (w : Word) : (headerImm w).toNat = w.toNat % 2 ^ 16 := by
  simp only [headerImm, BitVec.extractLsb'_toNat, Nat.shiftRight_eq_div_pow, pow_zero, Nat.div_one]

/-- Settles O4: each field is its slice of the word's number, and the three slices are adjacent and cover it. -/
theorem headerWordHasThreeUnsignedFields : Obligations.HeaderWordHasThreeUnsignedFields := by
  intro w
  refine ⟨headerOp_toNat w, headerSlot_toNat w, headerImm_toNat w, ?_⟩
  rw [headerOp_toNat, headerSlot_toNat, headerImm_toNat]
  omega

/-! ### The operand count (R83) -/

theorem code_mem_assignedOps (o : Op) : o.code ∈ assignedOps := by cases o <;> decide

theorem opOf_eq_none_of_not_assigned {b : BitVec 8} (hb : b ∉ assignedOps) : opOf b = none := by
  cases h : opOf b with
  | none => rfl
  | some o => exact absurd (code_of_opOf h ▸ code_mem_assignedOps o) hb

theorem headerNops_of_opOf_some {h : Word} {o : Op} (ho : opOf (headerOp h) = some o) :
    headerNops h = nops o (headerImm h) := by
  simp only [headerNops, ho]

theorem headerNops_of_opOf_none {h : Word} (ho : opOf (headerOp h) = none) : headerNops h = 0 := by
  simp only [headerNops, ho]

theorem headerNops_of_code (o : Op) {h : Word} (hop : headerOp h = o.code) : headerNops h = nops o (headerImm h) :=
  headerNops_of_opOf_some (hop ▸ opOf_code o)

theorem headerNops_congr {h h' : Word} (hop : headerOp h = headerOp h') (himm : headerImm h = headerImm h') :
    headerNops h = headerNops h' := by
  simp only [headerNops, hop, himm]

theorem length_buildInstr {o : Op} {slot : BitVec 8} {imm : BitVec 16} {ops : List Word}
    (h : ops.length = nops o imm) : (buildInstr o slot imm ops).length = 1 + nops o imm := by
  cases o with
  | process | loadtab => exact congrArg (1 + ·) h
  | _ => rfl

/-! ### The decoder on a header word and what follows it, branch by branch -/

theorem decode_cons_reserved {h : Word} (rest : List Word) (ho : opOf (headerOp h) = none) :
    decode (h :: rest) = .reserved h rest := by
  simp only [decode, ho]

theorem decode_cons_truncated {h : Word} {rest : List Word} {o : Op} (ho : opOf (headerOp h) = some o)
    (hl : rest.length < nops o (headerImm h)) : decode (h :: rest) = .truncated h := by
  simp only [decode, ho, if_pos hl]

theorem decode_cons_command {h : Word} {rest : List Word} {o : Op} (ho : opOf (headerOp h) = some o)
    (hl : nops o (headerImm h) ≤ rest.length) :
    decode (h :: rest) =
      .command (buildInstr o (headerSlot h) (headerImm h) (rest.take (nops o (headerImm h))))
        (rest.drop (nops o (headerImm h))) := by
  simp only [decode, ho, if_neg (Nat.not_lt.2 hl)]

end Sys2Proof

namespace Sys2Proof.Machine

/-! ### A completed command advances the pointer by its length (R83) -/

/-- A slot-addressed command whose effect keeps the pointer advances it whether or not its slot is rejected (R84). -/
theorem cp_of_onSlot_advance {field : BitVec 8} {f : Slot → State → State} {s t : State} {n : Nat}
    (h : (.next ((onSlot field f s).advance n) : Host.Outcome State Fault Refusal) = .next t)
    (hf : ∀ k, (f k s).cp = s.cp) : t.cp = s.cp + n := by
  cases h
  rw [State.advance_cp, onSlot_induction (P := fun u => u.cp = s.cp) rfl fun k _ => hf k]

theorem execNoteon_cp {targets : BitVec 16} {frequency velocity : F32} {s t : State}
    (h : execNoteon targets frequency velocity s = .next t) : t.cp = s.cp + 3 := by
  unfold execNoteon at h
  cases h
  rw [State.advance_cp]
  split_ifs <;> rfl

theorem execNoteoff_cp {targets : BitVec 16} {s t : State} (h : execNoteoff targets s = .next t) :
    t.cp = s.cp + 1 := by
  unfold execNoteoff at h
  cases h
  rw [State.advance_cp]
  split_ifs <;> rfl

theorem execSetalg_cp {id : BitVec 16} {s t : State} (h : execSetalg id s = .next t) : t.cp = s.cp + 1 := by
  unfold execSetalg at h
  split at h <;> cases h <;> rfl

theorem exec_cp {i : Instr} {s t : State} (h : exec i s = .next t) : t.cp = s.cp + i.length := by
  cases i with
  | process samples => obtain ⟨b, -, rfl⟩ := execProcess_next.1 h; rfl
  | noteon targets frequency velocity => exact execNoteon_cp h
  | noteoff targets => exact execNoteoff_cp h
  | setfactor slot factor => exact cp_of_onSlot_advance h fun k => by rw [setFrequencyFactor_frame]
  | setamp slot amp => exact cp_of_onSlot_advance h fun k => by rw [setAmplitude_frame]
  | setmfreq f => cases h; rw [State.advance_cp, setMasterFrequency_frame]; rfl
  | setmamp a => cases h; rfl
  | setenv slot a d su r => exact cp_of_onSlot_advance h fun k => by rw [setADSR_frame]
  | setq slot qa qd qr => exact cp_of_onSlot_advance h fun k => by rw [setQ_frame]
  | setmode slot mode => exact cp_of_onSlot_advance h fun k => by rw [setEnvMode_frame]
  | setsil slot x y => exact cp_of_onSlot_advance h fun k => by rw [setSilentAndSustainTime_frame]
  | setalg id => exact execSetalg_cp h
  | loadtab slot samples => exact cp_of_onSlot_advance h fun k => by rw [loadWaveTable_frame]
  | toggle slot kind => exact cp_of_onSlot_advance h fun k => by rw [toggleActive_frame]

theorem step_cp {s t : State} {h : Word} {rest : List Word} (hf : s.fetch = h :: rest) (hs : step s = .next t) :
    t.cp = s.cp + (1 + headerNops h) := by
  unfold step at hs
  rw [hf] at hs
  cases ho : opOf (headerOp h) with
  | none =>
    rw [decode_cons_reserved rest ho] at hs
    cases hs
    rw [headerNops_of_opOf_none ho, State.skipReserved_cp]
  | some o =>
    rw [headerNops_of_opOf_some ho]
    rcases Nat.lt_or_ge rest.length (nops o (headerImm h)) with hl | hl
    · rw [decode_cons_truncated ho hl] at hs
      cases hs
    · rw [decode_cons_command ho hl] at hs
      rw [exec_cp hs, length_buildInstr (List.length_take_of_le hl)]

/-- Settles O3: the count of a row is that of its `op` value, a value outside the map has none, and a step that
completes executes the decoded command, which advances the pointer by its own length, or skips one reserved word. -/
theorem commandLengthComesFromOpAndImm : Obligations.CommandLengthComesFromOpAndImm := by
  refine ⟨fun h => ?table, fun h h' => headerNops_congr, fun s t h rest => step_cp⟩
  exact ⟨headerNops_of_code .process, headerNops_of_code .noteon, headerNops_of_code .noteoff,
    headerNops_of_code .setfactor, headerNops_of_code .setamp, headerNops_of_code .setmfreq,
    headerNops_of_code .setmamp, headerNops_of_code .setenv, headerNops_of_code .setq, headerNops_of_code .setmode,
    headerNops_of_code .setsil, headerNops_of_code .setalg, headerNops_of_code .loadtab, headerNops_of_code .toggle,
    fun hr => headerNops_of_opOf_none (opOf_eq_none_of_not_assigned hr)⟩

end Sys2Proof.Machine
end

section
/-! PROOFS. The family of 41_oscillator.md: the lookup at the floor of the phase (R137), and the two setters that test
their argument, `setFrequency` (R143) and `setAmplitude` with its command `SETAMP` (R144, R147). -/

namespace Sys2Proof.Machine

/-! ### The lookup (R137) -/

theorem floorIndex_of_not_finite {p : F32} (h : isFinite p = false) : floorIndex p = .error .indexUndefined := by
  simp only [floorIndex, floorIdx, h, Bool.false_eq_true, if_false]

/-- The index is the whole number of units of `1.0` that the phase has reached. -/
theorem floorIndex_bounds {p : F32} {i : Int} (h : floorIndex p = .ok i) :
    i * (unitsPerOne : Int) ≤ units p ∧ units p < (i + 1) * (unitsPerOne : Int) := by
  cases hf : isFinite p with
  | false => rw [floorIndex_of_not_finite hf] at h; cases h
  | true =>
    rw [floorIndex, floorIdx, if_pos hf] at h
    cases h
    have hpos : (0 : Int) < (unitsPerOne : Int) := by exact_mod_cast unitsPerOne_pos
    exact ⟨Int.ediv_mul_le _ hpos.ne', Int.lt_ediv_add_one_mul_self _ hpos⟩

/-- A read that succeeds at a natural index returns the element of the space at that index. -/
theorem Memory.getElem?_of_read {m : Memory} {sp : Space} {i : Nat} {v : F32} (h : m.read sp i = .ok v) :
    (m.table sp)[i]? = some v := by
  rcases Nat.lt_or_ge i (m.table sp).length with hlt | hge
  · rw [m.read_of_lt sp hlt] at h
    cases h
    exact List.getElem?_eq_getElem hlt
  · rw [m.read_out_of_range sp (.inr (by exact_mod_cast hge))] at h
    cases h

/-- The phase that is no number or infinite faults before any table is read, so no size is asked for. -/
theorem oscStep_of_phase_not_finite {c : Config} {m : Memory} {k : Slot} {mode : OscMode} {o : Osc} {x : F32}
    (h : isFinite o.phase = false) : oscStep c m k mode o x = .error .indexUndefined := by
  rw [oscStep, floorIndex_of_not_finite h, error_bind]

/-- Settles O28: outside the table the step is the fault of `BadPhase`; inside it the lookup finds the element at the
floor of the phase, which the step scales by the amplitude. -/
theorem oscillatorLookupFloorsThePhase : Obligations.OscillatorLookupFloorsThePhase := by
  intro c m k mode o x hw hN
  have hN' : c.N ≤ 16777216 := by omega
  refine ⟨oscStep_of_phase_not_finite, fun hf hout => ?outside, fun hr => ?inside⟩
  case outside => exact oscStep_fault hw hN' (.outside hf (inRange_of_outside hN' hout))
  case inside =>
    obtain ⟨i, hi, hlt, e, he, -⟩ := lookup_inRange hN' hr (Memory.wt_length hw k)
    obtain ⟨hlo, hhi⟩ := floorIndex_bounds hi
    exact ⟨i, e, _, hlt, hlo, hhi, Memory.getElem?_of_read he, oscStep_ok.2 ⟨i, e, hi, he, rfl, rfl⟩⟩

/-! ### Acceptance of a frequency (R143) and of an amplitude (R144) -/

theorem fgt_zero_of_isNaN {f : F32} (h : isNaN f = true) : fgt f F32.zero = false := by
  simp only [fgt, flt, h, Bool.not_true, Bool.and_false, Bool.false_and]

theorem inUnit_of_negative {a : F32} (h : flt a F32.zero = true) : inUnit a = false := by
  obtain ⟨ha, h0, hlt⟩ := (flt_iff _ _).1 h
  rw [inUnit, (fge_eq_false_iff ha h0).2 hlt, Bool.false_and]

theorem inUnit_of_isNaN {a : F32} (h : isNaN a = true) : inUnit a = false := by
  simp only [inUnit, fge, fle, h, Bool.not_true, Bool.and_false, Bool.false_and]

theorem setFrequency_of_positive {k : Slot} {f : F32} {s : State} (h : positive f = true) :
    setFrequency k f s = s.setOsc k { (s.slots.get k).osc with frequency := f } := by
  rw [setFrequency, h, accept_true]

theorem setFrequency_of_not_positive {k : Slot} {f : F32} {s : State} (h : positive f = false) :
    setFrequency k f s = s := by
  rw [setFrequency, h, accept_false]
  exact s.setOsc_self k

theorem setAmplitude_of_inUnit {k : Slot} {a : F32} {s : State} (h : inUnit a = true) :
    setAmplitude k a s = s.setOsc k { (s.slots.get k).osc with amplitude := a } := by
  rw [setAmplitude, h, accept_true]

theorem setAmplitude_of_not_inUnit {k : Slot} {a : F32} {s : State} (h : inUnit a = false) :
    setAmplitude k a s = s := by
  rw [setAmplitude, h, accept_false]
  exact s.setOsc_self k

/-! ### An infinite frequency makes the phase infinite or NaN -/

theorem oscInc_not_finite {mode : OscMode} {o : Osc} (x : F32) (h : isInf o.frequency = true) :
    isFinite (oscInc mode o x) = false := by
  cases mode with
  | modulatorNoInput | carrierNoInput | sumWithInput => exact isFinite_of_isInf h
  | modulatorWithInput | carrierWithInput => exact fmul_infinite h

/-- The wrap correction does not bring a phase back from an increment that is not finite. -/
theorem advancePhase_not_finite {size : Nat} {p inc : F32} (h : isFinite inc = false) :
    isFinite (advancePhase size p inc) = false := by
  have hsum : isFinite (fadd p inc) = false := fadd_not_finite (.inr h)
  unfold advancePhase
  dsimp only
  split
  · exact fsub_not_finite (.inl hsum)
  · exact hsum

/-- Settles O32: the step that takes the infinite increment leaves a phase that is not finite, whatever the mode and
the input, and the next lookup has no index. -/
theorem setFrequencyAcceptsPositiveValues : Obligations.SetFrequencyAcceptsPositiveValues := by
  refine ⟨fun k f s => ⟨setFrequency_of_positive, setFrequency_of_not_positive⟩,
    ⟨by decide, by decide, by decide, fun f => fgt_zero_of_isNaN⟩, ?nextStep⟩
  intro c m k mode o o' x y x' _ hfreq hstep
  obtain ⟨_, _, _, _, rfl, _⟩ := oscStep_ok.1 hstep
  have hinf : isInf o.frequency = true := by rw [hfreq]; decide
  exact oscStep_of_phase_not_finite (advancePhase_not_finite (oscInc_not_finite x hinf))

/-! ### `SETAMP` (R147) -/

theorem exec_setamp_of_accepted {s : State} {field : BitVec 8} {a : F32} {k : Slot} (hk : slotOf field = some k)
    (ha : inUnit a = true) :
    exec (.setamp field a) s = .next ((s.setOsc k { (s.slots.get k).osc with amplitude := a }).advance 2) := by
  rw [exec, execSetamp, onSlot_some hk, setAmplitude_of_inUnit ha]

theorem exec_setamp_of_rejected {s : State} {field : BitVec 8} {a : F32}
    (h : inUnit a = false ∨ slotOf field = none) : exec (.setamp field a) s = .next (s.advance 2) := by
  have hkept : onSlot field (fun k t => setAmplitude k a t) s = s := by
    rcases h with ha | hnone
    · exact onSlot_induction (P := (· = s)) rfl fun k _ => setAmplitude_of_not_inUnit ha
    · exact onSlot_none hnone _ s
  rw [exec, execSetamp, hkept]

/-- Settles O33: `SETAMP` is one header word and one operand; its amplitude is written when the field names a slot and
the two comparisons of `inUnit` hold, and only the pointer moves when one of the three fails. -/
theorem setampResult : Obligations.SetampResult := by
  refine ⟨fun slot imm w rest => decode_header (o := .setamp) (ops := [w]) rfl, fun s field a => ⟨?written, ?kept⟩,
    ⟨by decide, by decide, by decide, by decide, fun a => inUnit_of_negative, fun a => inUnit_of_isNaN⟩⟩
  case written =>
    intro k hk hge hle
    exact exec_setamp_of_accepted hk (by rw [inUnit, hge, hle, Bool.and_self])
  case kept =>
    rintro (hge | hle | hnone)
    · exact exec_setamp_of_rejected (.inl (by rw [inUnit, hge, Bool.false_and]))
    · exact exec_setamp_of_rejected (.inl (by rw [inUnit, hle, Bool.and_false]))
    · exact exec_setamp_of_rejected (.inr hnone)

end Sys2Proof.Machine
end

section
/-! PROOFS. The family of 42_envelope.md: where the per-sample step leaves stage and phase index (R172 to R177), the
order of the stages (R160), and what ends a frozen envelope's hold (R161, R165, R175). -/

namespace Sys2Proof.Machine

/-! ### The frozen envelope (R165) -/

theorem Env.frozen_iff {e : Env} : e.frozen = true ↔ e.mode = .trigger ∧ (e.stage = .sustain ∨ e.stage = .silent) := by
  simp only [Env.frozen, Bool.and_eq_true, Bool.or_eq_true, beq_iff_eq]

/-- An envelope that moves in one of the two stages that Trigger mode freezes is in Loop mode. -/
theorem Env.mode_of_not_frozen {e : Env} (hf : e.frozen = false) (hs : e.stage = .sustain ∨ e.stage = .silent) :
    e.mode = .loop := by
  cases hm : e.mode with
  | loop => rfl
  | trigger => exact absurd (Env.frozen_iff.2 ⟨hm, hs⟩) (Bool.eq_false_iff.1 hf)

theorem Env.not_frozen_of_loop {e : Env} (hm : e.mode = .loop) : e.frozen = false := by
  rw [Bool.eq_false_iff, Ne, Env.frozen_iff, hm]
  exact fun h => nomatch h.1

/-! ### The advance, branch by branch (R165, R172, R173) -/

theorem envAdvance_of_frozen (c : Config) {e : Env} (hf : e.frozen = true) : envAdvance c e = e := by
  rw [envAdvance, if_pos hf]

theorem envAdvance_of_wrap {c : Config} {e : Env} (hf : e.frozen = false)
    (hw : fge (fadd e.phaseIndex (stepOf c e e.stage)) (i2f c.M) = true) :
    envAdvance c e = { e with
      phaseIndex := fsub (fadd e.phaseIndex (stepOf c e e.stage)) (i2f c.M), stage := e.nextStage } := by
  simp only [envAdvance, hf, hw, Bool.false_eq_true, if_false, if_true]

theorem envAdvance_of_no_wrap {c : Config} {e : Env} (hf : e.frozen = false)
    (hw : fge (fadd e.phaseIndex (stepOf c e e.stage)) (i2f c.M) = false) :
    envAdvance c e = { e with phaseIndex := fadd e.phaseIndex (stepOf c e e.stage) } := by
  simp only [envAdvance, hf, hw, Bool.false_eq_true, if_false]

/-- The stage stays, or a moving envelope takes the transition of its stage. -/
theorem envAdvance_stage_cases (c : Config) (e : Env) :
    (envAdvance c e).stage = e.stage ∨ (e.frozen = false ∧ (envAdvance c e).stage = e.nextStage) := by
  rw [envAdvance_stage]
  split_ifs with hf hw
  · exact .inl rfl
  · exact .inr ⟨Bool.eq_false_iff.2 hf, rfl⟩
  · exact .inl rfl

/-! ### The transition of each stage (R173 to R177) -/

theorem Env.nextStage_of_attack {e : Env} (h : e.stage = .attack) : e.nextStage = .decay := by
  simp only [Env.nextStage, h]

theorem Env.nextStage_of_decay {e : Env} (h : e.stage = .decay) : e.nextStage = .sustain := by
  simp only [Env.nextStage, h]

theorem Env.nextStage_of_sustain {e : Env} (h : e.stage = .sustain) : e.nextStage = .release := by
  simp only [Env.nextStage, h]

theorem Env.nextStage_of_release {e : Env} (h : e.stage = .release) : e.nextStage = .silent := by
  simp only [Env.nextStage, h]

theorem Env.nextStage_of_silent {e : Env} (h : e.stage = .silent) :
    e.nextStage = if e.noteOnFlag then .attack else .silent := by
  simp only [Env.nextStage, h]

/-- Settles O37: at the wrap the advance writes the remainder and the transition of the stage; Sustain and Silent,
which Trigger mode freezes, come to a wrap in Loop mode only. -/
theorem envelopeTransitionsAtTheWrap : Obligations.EnvelopeTransitionsAtTheWrap := by
  intro c m k e e' v hstep hf p
  obtain ⟨-, rfl⟩ := envStep_ok.1 hstep
  refine ⟨fun hwrap => ⟨e.nextStage, envAdvance_of_wrap hf hwrap, Env.nextStage_of_attack, Env.nextStage_of_decay,
    fun hs => ⟨Env.mode_of_not_frozen hf (.inl hs), Env.nextStage_of_sustain hs⟩, Env.nextStage_of_release,
    fun hs => ⟨Env.mode_of_not_frozen hf (.inr hs), fun hn => ?reentry, fun hn => ?stay⟩⟩, envAdvance_of_no_wrap hf⟩
  case reentry => rw [Env.nextStage_of_silent hs, if_pos hn]
  case stay => rw [Env.nextStage_of_silent hs, hn, if_neg Bool.false_ne_true]

/-! ### The order of the stages (R160) -/

/-- The transition is one place forward, except from Silent: there the note flag decides between staying and Attack. -/
theorem Env.nextStage_cases (e : Env) :
    e.nextStage = e.stage ∨ e.nextStage.rank = e.stage.rank + 1 ∨
      (e.stage = .silent ∧ e.noteOnFlag = true ∧ e.nextStage = .attack) := by
  cases hs : e.stage with
  | attack => exact .inr (.inl (by rw [Env.nextStage_of_attack hs]; rfl))
  | decay => exact .inr (.inl (by rw [Env.nextStage_of_decay hs]; rfl))
  | sustain => exact .inr (.inl (by rw [Env.nextStage_of_sustain hs]; rfl))
  | release => exact .inr (.inl (by rw [Env.nextStage_of_release hs]; rfl))
  | silent =>
    rw [Env.nextStage_of_silent hs]
    cases e.noteOnFlag with
    | false => exact .inl rfl
    | true => exact .inr (.inr ⟨rfl, rfl, rfl⟩)

/-- A note off leaves Release, except that Silent in Loop mode stays (R179, R180). -/
theorem Env.noteOffStage_cases (e : Env) :
    e.noteOffStage = .release ∨ (e.mode = .loop ∧ e.stage = .silent ∧ e.noteOffStage = .silent) := by
  unfold Env.noteOffStage
  cases e.mode with
  | trigger => exact .inl rfl
  | loop =>
    dsimp only
    split_ifs with hs
    · exact .inr ⟨rfl, hs, rfl⟩
    · exact .inl rfl

/-- Settles O38: a step keeps the stage or takes its transition, and the one transition that goes back starts in Silent,
where only an envelope in Loop mode moves. -/
theorem stageMovesOnlyForwardExceptReentry : Obligations.StageMovesOnlyForwardExceptReentry := by
  refine ⟨?step, fun _ _ _ => rfl, Env.noteOffStage_cases, by decide, by decide, by decide, by decide⟩
  intro c m k e e' v hstep
  obtain ⟨-, rfl⟩ := envStep_ok.1 hstep
  rcases envAdvance_stage_cases c e with hstay | ⟨hf, hnext⟩
  · exact .inl hstay
  · rw [hnext]
    rcases e.nextStage_cases with hstay | hforward | ⟨hs, hn, hattack⟩
    · exact .inl hstay
    · exact .inr (.inl hforward)
    · exact .inr (.inr ⟨Env.mode_of_not_frozen hf (.inr hs), hs, hn, hattack⟩)

/-! ### Blocks keep a frozen envelope (R165, R188) -/

theorem envBlock_keeps_frozen {c : Config} {m : Memory} {k : Slot} {e e' : Env} {xs ys : List F32}
    (hf : e.frozen = true) (h : envBlock c m k e xs = .ok (e', ys)) : e' = e := by
  refine runBlock_invariant (P := (· = e)) ?_ rfl h
  rintro _ x e1 y rfl happly
  obtain ⟨_, _, rfl, _⟩ := envApply_ok.1 happly
  exact envAdvance_of_frozen c hf

theorem slotBlock_keeps_frozen {c : Config} {m : Memory} {k : Slot} {mode : OscMode} {r r' : SlotRegs}
    {xs ys : List F32} (hf : r.env.frozen = true) (h : slotBlock c m k mode r xs = .ok (r', ys)) :
    r'.env = r.env := by
  rcases slotBlock_ok.1 h with ⟨_, rfl, _⟩ | ⟨_, _, o, _, rfl⟩ | ⟨_, _, o, e, zs, _, henv, rfl⟩
  · rfl
  · rfl
  · exact envBlock_keeps_frozen hf henv

theorem execProcess_keeps_frozen {s t : State} {xs : List F32} {k : Slot} (hf : (s.slots.get k).env.frozen = true)
    (h : execProcess xs s = .next t) : (t.slots.get k).env = (s.slots.get k).env := by
  obtain ⟨b, hb, rfl⟩ := execProcess_next.1 h
  obtain ⟨buf, hrouter, _⟩ := processBlock_ok.1 hb
  obtain ⟨us, vs, hslot⟩ := routerBlock_slot hrouter k
  exact slotBlock_keeps_frozen hf hslot

/-! ### Where an envelope is: its stage and its phase index, which only `PROCESS` and the note commands write (R26) -/

/-- The stage and the place in it. -/
def Env.position (e : Env) : Stage × F32 := (e.stage, e.phaseIndex)

theorem Env.position_eq_iff {e e' : Env} :
    e'.position = e.position ↔ e'.stage = e.stage ∧ e'.phaseIndex = e.phaseIndex := Prod.ext_iff

/-- A slot-addressed command keeps every envelope's position when its effect keeps that of the slot it names and the
registers of the other slots; a field that names no slot rejects it (30_encoding.md R84). -/
theorem position_of_onSlot_advance {field : BitVec 8} {f : Slot → State → State} {s t : State} {n : Nat}
    (h : (.next ((onSlot field f s).advance n) : Host.Outcome State Fault Refusal) = .next t)
    (hsame : ∀ j, ((f j s).slots.get j).env.position = (s.slots.get j).env.position)
    (hother : ∀ j k, k ≠ j → (f j s).slots.get k = s.slots.get k) (k : Slot) :
    (t.slots.get k).env.position = (s.slots.get k).env.position := by
  cases h
  refine onSlot_induction (P := fun u => (u.slots.get k).env.position = (s.slots.get k).env.position) rfl
    fun j _ => ?_
  by_cases hk : k = j
  · rw [hk, hsame]
  · rw [hother j k hk]

theorem setFrequencyFactor_env (k : Slot) (master factor : F32) (s : State) :
    ((setFrequencyFactor k master factor s).slots.get k).env = (s.slots.get k).env := by
  rw [setFrequencyFactor_same]
  split_ifs <;> rfl

theorem toggleActive_env (k : Slot) (kind : BitVec 16) (s : State) :
    ((toggleActive k kind s).slots.get k).env = (s.slots.get k).env := by
  rw [toggleActive_same]
  cases toggleKindOf kind with
  | none => rfl
  | some t => exact SlotRegs.toggle_env _ t

theorem setMasterFrequency_env (f : F32) (s : State) (k : Slot) :
    ((setMasterFrequency f s).slots.get k).env = (s.slots.get k).env := by
  unfold setMasterFrequency
  split_ifs
  · rw [Slots.get_map]; rfl
  · rfl

theorem loadWaveTable_slots (k : Slot) (samples : List F32) (s : State) :
    (loadWaveTable k samples s).slots = s.slots := by
  rw [loadWaveTable_frame]

theorem execSetalg_slots {id : BitVec 16} {s t : State} (h : execSetalg id s = .next t) : t.slots = s.slots := by
  unfold execSetalg at h
  split at h <;> cases h <;> rfl

/-- The position of a frozen envelope is kept by `PROCESS` because the envelope is frozen, and by every other command
but the two note commands because they write no envelope's position. -/
theorem exec_keeps_frozen_position {i : Instr} {s t : State} {k : Slot} (h : exec i s = .next t)
    (hf : (s.slots.get k).env.frozen = true) (hon : ∀ m f v, i ≠ .noteon m f v) (hoff : ∀ m, i ≠ .noteoff m) :
    (t.slots.get k).env.position = (s.slots.get k).env.position := by
  cases i with
  | process samples => rw [execProcess_keeps_frozen hf h]
  | noteon targets frequency velocity => exact absurd rfl (hon targets frequency velocity)
  | noteoff targets => exact absurd rfl (hoff targets)
  | setfactor slot factor =>
    exact position_of_onSlot_advance h (fun j => by rw [setFrequencyFactor_env])
      (fun _ _ hk => setFrequencyFactor_other hk _ _ s) k
  | setamp slot amp =>
    exact position_of_onSlot_advance h (fun j => by rw [setAmplitude_same]) (fun _ _ hk => setAmplitude_other hk _ s) k
  | setmfreq f => cases h; rw [State.advance_slots, setMasterFrequency_env]
  | setmamp a => cases h; rfl
  | setenv slot a d su r =>
    exact position_of_onSlot_advance h (fun j => by rw [setADSR_same]; rfl) (fun _ _ hk => setADSR_other hk _ _ _ _ s) k
  | setq slot qa qd qr =>
    exact position_of_onSlot_advance h (fun j => by rw [setQ_same]; rfl) (fun _ _ hk => setQ_other hk _ _ _ s) k
  | setmode slot mode =>
    exact position_of_onSlot_advance h (fun j => by rw [setEnvMode_same]; rfl) (fun _ _ hk => setEnvMode_other hk _ s) k
  | setsil slot x y =>
    exact position_of_onSlot_advance h (fun j => by rw [setSilentAndSustainTime_same]; rfl)
      (fun _ _ hk => setSilentAndSustainTime_other hk _ _ s) k
  | setalg id => rw [execSetalg_slots h]
  | loadtab slot samples =>
    exact position_of_onSlot_advance h (fun j => by rw [loadWaveTable_slots])
      (fun _ _ _ => by rw [loadWaveTable_slots]) k
  | toggle slot kind =>
    exact position_of_onSlot_advance h (fun j => by rw [toggleActive_env]) (fun _ _ hk => toggleActive_other hk _ s) k

/-! ### What ends the hold (R175) -/

/-- Sustain is left by the step only while the envelope moves, which it does in Loop mode. -/
theorem mode_of_release_after_sustain {c : Config} {e : Env} (hs : e.stage = .sustain)
    (hr : (envAdvance c e).stage = .release) : e.mode = .loop := by
  rcases envAdvance_stage_cases c e with hstay | ⟨hf, _⟩
  · rw [hr, hs] at hstay
    cases hstay
  · exact Env.mode_of_not_frozen hf (.inl hs)

/-- Settles O39: in Trigger mode the step is that of a frozen envelope, which every sample of a block keeps; in Loop mode
the wrap takes the transition of Sustain. -/
theorem triggerHoldEndsOnlyByANote : Obligations.TriggerHoldEndsOnlyByANote := by
  refine ⟨?sample, ?command⟩
  case sample =>
    intro c m k e e' v hstep hs
    obtain ⟨-, rfl⟩ := envStep_ok.1 hstep
    refine ⟨fun hm => envAdvance_of_frozen c (Env.frozen_iff.2 ⟨hm, .inl hs⟩), fun hm hwrap => ?_,
      mode_of_release_after_sustain hs⟩
    rw [← hs] at hwrap
    rw [envAdvance_of_wrap (Env.not_frozen_of_loop hm) hwrap]
    exact Env.nextStage_of_sustain hs
  case command =>
    intro i s t k h hm hs hon hoff
    exact Env.position_eq_iff.1 (exec_keeps_frozen_position h (Env.frozen_iff.2 ⟨hm, hs⟩) hon hoff)

end Sys2Proof.Machine
end


section
/-! PROOFS. The family of 44_router.md: the master gain between the last slot and the voices (R241). -/

namespace Sys2Proof.Machine

/-! ### The master gain (R241) -/

@[simp] theorem masterGain_length (a : F32) (buf : List F32) : (masterGain a buf).length = buf.length :=
  List.length_map ..

/-- The slots run before the gain, and after it the voices step alike whatever samples they are added to: only the
output of a block depends on the master amplitude. -/
theorem processBlock_any_masterAmplitude {s : State} {xs : List F32} {b : BlockResult}
    (h : processBlock s xs = .ok b) (a : F32) :
    ∃ ys, processBlock { s with masterAmplitude := a } xs = .ok { b with output := ys } := by
  obtain ⟨buf, hrouter, hvoices⟩ := processBlock_ok.1 h
  obtain ⟨ys, hys⟩ := vmBlock_any_samples hvoices (masterGain a buf) (by rw [masterGain_length, masterGain_length])
  exact ⟨ys, processBlock_ok.2 ⟨buf, hrouter, hys⟩⟩

/-- Settles O52: the one use of the master amplitude in a block is the gain over the router's buffer, which enters
neither the slots before it nor the registers of the voices after it. -/
theorem masterGainTouchesTheOutputOnly : Obligations.MasterGainTouchesTheOutputOnly := by
  refine ⟨fun s t xs h => ?gainOnce, fun s t xs a h => ?sameRegisters⟩
  case gainOnce =>
    obtain ⟨b, hb, rfl⟩ := execProcess_next.1 h
    obtain ⟨buf, hrouter, hvoices⟩ := processBlock_ok.1 hb
    exact ⟨buf, b.output, b.vm, hrouter, hvoices, rfl⟩
  case sameRegisters =>
    obtain ⟨b, hb, rfl⟩ := execProcess_next.1 h
    obtain ⟨ys, hys⟩ := processBlock_any_masterAmplitude hb a
    exact ⟨_, execProcess_next.2 ⟨_, hys, rfl⟩, rfl, rfl, rfl⟩

end Sys2Proof.Machine
end

section
/-! PROOFS. The encoding (30_encoding.md, 20_memory.md R65): decoding and encoding are inverse on commands, reserved
opcodes and unused fields have no effect, and words carried as bytes lose nothing. -/

namespace Sys2Proof

/-! ### Commands and their encodings (R81, R83, R86) -/

/-- A sample count that fits its field is the number the field spells (R85). -/
theorem toNat_ofNat_count {n : Nat} (h : n ≤ blockMax) : (BitVec.ofNat 16 n).toNat = n :=
  Nat.mod_eq_of_lt (Nat.lt_succ_of_le h)

/-- Settles O1: every encoding is the header word of its row followed by exactly the row's operand words. -/
theorem decodeOfEncodedCommand : Obligations.DecodeOfEncodedCommand := by
  intro i rest hwf
  cases i with
  | process samples =>
    exact decode_header (o := .process) (ops := samples) (toNat_ofNat_count (of_decide_eq_true hwf)).symm
  | noteon targets f v => exact decode_header (o := .noteon) (ops := [f, v]) rfl
  | noteoff targets => exact decode_header (o := .noteoff) (ops := []) rfl
  | setfactor slot f => exact decode_header (o := .setfactor) (ops := [f]) rfl
  | setamp slot a => exact decode_header (o := .setamp) (ops := [a]) rfl
  | setmfreq f => exact decode_header (o := .setmfreq) (ops := [f]) rfl
  | setmamp a => exact decode_header (o := .setmamp) (ops := [a]) rfl
  | setenv slot a d su r => exact decode_header (o := .setenv) (ops := [a, d, su, r]) rfl
  | setq slot qa qd qr => exact decode_header (o := .setq) (ops := [qa, qd, qr]) rfl
  | setmode slot mode => exact decode_header (o := .setmode) (ops := []) rfl
  | setsil slot x y => exact decode_header (o := .setsil) (ops := [x, y]) rfl
  | setalg id => exact decode_header (o := .setalg) (ops := []) rfl
  | loadtab slot samples =>
    exact decode_header (o := .loadtab) (ops := samples) (toNat_ofNat_count (of_decide_eq_true hwf)).symm
  | toggle slot kind => exact decode_header (o := .toggle) (ops := []) rfl

theorem length_encode (i : Instr) : (encode i).length = i.length := by
  cases i with
  | process samples => exact (Laws.EncodedLength.process samples).1
  | loadtab slot samples => exact (Laws.EncodedLength.loadtab slot samples).1
  | _ => rfl

/-- What a decoded command comes from: a header word of the opcode map and at least its operand words. -/
theorem exists_header_of_decode {ws rest : List Word} {i : Instr} (hd : decode ws = .command i rest) :
    ∃ h tl o, ws = h :: tl ∧ opOf (headerOp h) = some o ∧ nops o (headerImm h) ≤ tl.length ∧
      i = buildInstr o (headerSlot h) (headerImm h) (tl.take (nops o (headerImm h))) := by
  cases ws with
  | nil => cases hd
  | cons h tl =>
    cases ho : opOf (headerOp h) with
    | none => rw [decode_cons_reserved tl ho] at hd; cases hd
    | some o =>
      rcases Nat.lt_or_ge tl.length (nops o (headerImm h)) with hl | hl
      · rw [decode_cons_truncated ho hl] at hd; cases hd
      · rw [decode_cons_command ho hl] at hd
        cases hd
        exact ⟨h, tl, o, rfl, ho, hl, rfl⟩

/-- A row's command is encoded with the row's opcode and its operand words; unused header fields may differ (R88). -/
theorem encode_buildInstr {o : Op} {slot : BitVec 8} {imm : BitVec 16} {ops : List Word} (h : ops.length = nops o imm) :
    ∃ slot' imm', encode (buildInstr o slot imm ops) = header o.code slot' imm' :: ops := by
  cases o with
  | process | loadtab => exact ⟨_, _, rfl⟩
  | noteoff | setmode | setalg | toggle => obtain rfl := List.length_eq_zero_iff.1 h; exact ⟨_, _, rfl⟩
  | setfactor | setamp | setmfreq | setmamp => obtain ⟨a, rfl⟩ := List.length_eq_one_iff.1 h; exact ⟨_, _, rfl⟩
  | noteon | setsil => obtain ⟨a, b, rfl⟩ := List.length_eq_two.1 h; exact ⟨_, _, rfl⟩
  | setq => obtain ⟨a, b, c, rfl⟩ := List.length_eq_three.1 h; exact ⟨_, _, rfl⟩
  | setenv =>
    match ops, h with
    | [a, b, c, d], _ => exact ⟨_, _, rfl⟩

theorem wellFormed_buildInstr {o : Op} {slot : BitVec 8} {imm : BitVec 16} {ops : List Word}
    (h : ops.length = nops o imm) : (buildInstr o slot imm ops).wellFormed = true := by
  have himm := imm.isLt
  cases o with
  | process | loadtab => exact decide_eq_true (h.trans_le (Nat.le_of_lt_succ himm))
  | _ => rfl

/-- Settles O2: the decoded command is the one its row builds from the words after the header, and the encoding of that
command repeats the opcode and those words. -/
theorem encodeOfDecodedCommand : Obligations.EncodeOfDecodedCommand := by
  intro ws rest i hd
  obtain ⟨hrest, hle⟩ := decode_consumes hd
  obtain ⟨h, tl, o, rfl, ho, hl, rfl⟩ := exists_header_of_decode hd
  have hops : (tl.take (nops o (headerImm h))).length = nops o (headerImm h) := List.length_take_of_le hl
  obtain ⟨slot', imm', henc⟩ := encode_buildInstr (slot := headerSlot h) hops
  refine ⟨wellFormed_buildInstr hops, length_encode _, ?_, hrest.symm, ?_, ?_⟩
  · rw [hrest, List.length_drop, Nat.add_sub_cancel' hle]
  · rw [henc, length_buildInstr hops, Nat.add_comm 1, List.take_succ_cons, List.tail_cons, List.tail_cons]
  · rw [henc, List.head?_cons, List.head?_cons, Option.map_some, Option.map_some, headerOp_header, code_of_opOf ho]

/-! ### Unused fields (R88) -/

theorem decode_header_code {o : Op} {slot : BitVec 8} {imm : BitVec 16} {rest : List Word}
    (h : nops o imm ≤ rest.length) :
    decode (header o.code slot imm :: rest) =
      .command (buildInstr o slot imm (rest.take (nops o imm))) (rest.drop (nops o imm)) := by
  conv_lhs => rw [← List.take_append_drop (nops o imm) rest]
  exact decode_header (List.length_take_of_le h)

/-- The rows whose command keeps no `slot` field. -/
theorem buildInstr_any_slot {o : Op} (ho : o ∈ [Op.process, .noteon, .noteoff, .setmfreq, .setmamp, .setalg])
    (slot slot' : BitVec 8) (imm : BitVec 16) (ops : List Word) :
    buildInstr o slot imm ops = buildInstr o slot' imm ops := by
  cases o with
  | process | noteon | noteoff | setmfreq | setmamp | setalg => rfl
  | _ => exact absurd ho (by decide)

/-- The rows whose command keeps no `imm` field; their operand count is a constant. -/
theorem buildInstr_any_imm {o : Op}
    (ho : o ∈ [Op.setfactor, .setamp, .setmfreq, .setmamp, .setenv, .setq, .setsil]) (slot : BitVec 8)
    (imm imm' : BitVec 16) (ops : List Word) :
    buildInstr o slot imm ops = buildInstr o slot imm' ops ∧ nops o imm = nops o imm' := by
  cases o with
  | setfactor | setamp | setmfreq | setmamp | setenv | setq | setsil => exact ⟨rfl, rfl⟩
  | _ => exact absurd ho (by decide)

end Sys2Proof

namespace Sys2Proof.Machine

/-- The two bits of a target mask that are read are its two lowest. -/
theorem targets_congr {mask mask' : BitVec 16} (h : mask.extractLsb' 0 2 = mask'.extractLsb' 0 2) :
    targetsRouter mask = targetsRouter mask' ∧ targetsVoices mask = targetsVoices mask' := by
  have hbit : ∀ i, i < 2 → mask.getLsbD i = mask'.getLsbD i := fun i hi => by
    have := congrArg (·.getLsbD i) h
    simpa [BitVec.getLsbD_extractLsb', hi] using this
  exact ⟨hbit 0 (by decide), hbit 1 (by decide)⟩

/-- Settles O6: a row that keeps no `slot` or `imm` field builds the same command from every value of it, and the note
commands read a mask through its two target bits only. -/
theorem ignoredFieldsHaveNoEffect : Obligations.IgnoredFieldsHaveNoEffect := by
  refine ⟨fun o slot slot' imm rest ho hl => ?slot, fun o slot imm imm' rest ho hl => ?imm,
    fun mask mask' f v s hmask => ?mask⟩
  case slot => rw [decode_header_code hl, decode_header_code hl, buildInstr_any_slot ho slot slot']
  case imm =>
    obtain ⟨hbuild, hn⟩ := buildInstr_any_imm ho slot imm imm' (rest.take (nops o imm))
    rw [decode_header_code hl, decode_header_code (hn ▸ hl), ← hn, hbuild]
  case mask =>
    obtain ⟨hrouter, hvoices⟩ := targets_congr hmask
    exact ⟨by rw [exec, exec, execNoteon, execNoteon, hrouter, hvoices],
      by rw [exec, exec, execNoteoff, execNoteoff, hrouter]⟩

/-! ### Reserved opcodes (R87) -/

theorem step_reserved {s : State} {h : Word} {rest : List Word} (hf : s.fetch = h :: rest)
    (ho : opOf (headerOp h) = none) : step s = .next s.skipReserved := by
  rw [step, hf, decode_cons_reserved rest ho]

/-- Settles O5: no row has the opcode, so the step skips the one word. -/
theorem reservedOpcodeHasNoEffect : Obligations.ReservedOpcodeHasNoEffect :=
  ⟨fun _ _ _ hf ho => step_reserved hf (opOf_eq_none_of_not_assigned ho), by decide⟩

end Sys2Proof.Machine

namespace Sys2Proof

/-- Settles O7: a closed fact about eleven rows, evaluated. -/
theorem workedEncodings : Obligations.WorkedEncodings := by
  unfold Obligations.WorkedEncodings
  decide

/-! ### Words as bytes (20_memory.md R65) -/

theorem toNat_eq_of_bytes (w : Word) :
    w.toNat = (w.extractLsb' 0 8).toNat + 2 ^ 8 * (w.extractLsb' 8 8).toNat + 2 ^ 16 * (w.extractLsb' 16 8).toNat +
      2 ^ 24 * (w.extractLsb' 24 8).toNat := by
  have h := w.isLt
  simp only [BitVec.extractLsb'_toNat, Nat.shiftRight_eq_div_pow]
  omega

@[simp] theorem bytesOfWord_wordOfBytes (b0 b1 b2 b3 : Byte) :
    bytesOfWord (wordOfBytes b0 b1 b2 b3) = [b0, b1, b2, b3] := by
  have h0 := b0.isLt
  have h1 := b1.isLt
  have h2 := b2.isLt
  have h3 := b3.isLt
  have hw : (wordOfBytes b0 b1 b2 b3).toNat =
      b0.toNat + 2 ^ 8 * b1.toNat + 2 ^ 16 * b2.toNat + 2 ^ 24 * b3.toNat := by
    simp only [wordOfBytes, BitVec.toNat_append]
    rw [← Nat.shiftLeft_add_eq_or_of_lt h2, ← Nat.shiftLeft_add_eq_or_of_lt h1, ← Nat.shiftLeft_add_eq_or_of_lt h0]
    simp only [Nat.shiftLeft_eq]
    omega
  simp only [bytesOfWord, List.cons.injEq, ← BitVec.toNat_inj, BitVec.extractLsb'_toNat, Nat.shiftRight_eq_div_pow, hw,
    and_true]
  omega

theorem wordsOfBytes_bytesOfWords (ws : List Word) : wordsOfBytes (bytesOfWords ws) = some ws := by
  induction ws with
  | nil => rfl
  | cons w ws ih =>
    have hcons : wordsOfBytes (bytesOfWords (w :: ws)) =
        (wordsOfBytes (bytesOfWords ws)).map (wordOfBytes (w.extractLsb' 0 8) (w.extractLsb' 8 8)
          (w.extractLsb' 16 8) (w.extractLsb' 24 8) :: ·) := rfl
    rw [hcons, ih, Option.map_some, wordOfBytes_bytesOfWord]

theorem bytesOfWords_of_wordsOfBytes {bs : List Byte} {ws : List Word} (h : wordsOfBytes bs = some ws) :
    bytesOfWords ws = bs := by
  induction bs using wordsOfBytes.induct generalizing ws with
  | case1 => cases h; rfl
  | case2 b0 b1 b2 b3 rest ih =>
    rw [wordsOfBytes, Option.map_eq_some_iff] at h
    obtain ⟨us, hus, rfl⟩ := h
    rw [bytesOfWords, List.flatMap_cons, bytesOfWord_wordOfBytes, ← bytesOfWords, ih hus]
    rfl
  | case3 bs hnil hcons =>
    rw [wordsOfBytes.eq_3 bs hnil hcons] at h
    cases h

/-- Settles O8: the four bytes are the word's digits to the base 256, lowest first, and both directions of the carriage
go four bytes at a time. -/
theorem wordsAreCarriedLittleEndian : Obligations.WordsAreCarriedLittleEndian :=
  ⟨fun w => ⟨_, _, _, _, rfl, toNat_eq_of_bytes w⟩, wordsOfBytes_bytesOfWords, fun _ _ => bytesOfWords_of_wordsOfBytes⟩

end Sys2Proof
end

section
/-! PROOFS. What each command does to the state, as one equation: the slot-addressed commands (30_encoding.md R84,
41_oscillator.md, 42_envelope.md), the router's configuration (44_router.md R244 to R247) and the notes (R248, R249). -/

namespace Sys2Proof.Machine

/-! ### The slot field (30_encoding.md R84) -/

theorem slotOf_eq_some_iff {field : BitVec 8} {k : Slot} : slotOf field = some k ↔ field.toNat = k.number := by
  simp only [slotOf, ← BitVec.toNat_inj]
  cases k <;> split_ifs <;> simp [Slot.number] <;> simp at * <;> omega

theorem slotOf_eq_none_iff {field : BitVec 8} : slotOf field = none ↔ field.toNat = 0 ∨ 5 ≤ field.toNat := by
  simp only [slotOf, ← BitVec.toNat_inj]
  split_ifs <;> simp at * <;> omega

/-- Every slot-addressed command is an effect on the slot its field names, and an advance by its length. -/
theorem exec_of_slotField {i : Instr} {field : BitVec 8} (h : i.slotField = some field) :
    ∃ f : Slot → State → State, ∀ s, exec i s = .next ((onSlot field f s).advance i.length) := by
  cases i with
  | setfactor | setamp | setenv | setq | setmode | setsil | loadtab | toggle => cases h; exact ⟨_, fun _ => rfl⟩
  | _ => cases h

theorem exec_of_rejected {i : Instr} {field : BitVec 8} {s : State} (hi : i.slotField = some field)
    (h : slotOf field = none) : exec i s = .next (s.advance i.length) := by
  obtain ⟨f, hf⟩ := exec_of_slotField hi
  rw [hf, onSlot_none h]

/-- Settles O15: the four comparisons of `slotOf` are comparisons of numbers, and a rejected effect leaves the
advance. -/
theorem slotFieldSelectsOneSlotOrRejects : Obligations.SlotFieldSelectsOneSlotOrRejects :=
  ⟨fun _ _ => slotOf_eq_some_iff, fun _ => slotOf_eq_none_iff, fun _ _ _ => exec_of_rejected⟩

/-! ### `SETFACTOR` (41_oscillator.md R145, R146) -/

theorem setFrequencyFactor_of_positive {k : Slot} {master f : F32} {s : State} (h : positive f = true) :
    setFrequencyFactor k master f s =
      s.setOsc k { (s.slots.get k).osc with frequencyFactor := f, frequency := fmul f master } := by
  rw [setFrequencyFactor, if_pos h]

theorem setFrequencyFactor_of_not_positive {k : Slot} {master f : F32} {s : State} (h : positive f = false) :
    setFrequencyFactor k master f s = s := by
  rw [setFrequencyFactor, h, if_neg Bool.false_ne_true]

/-- Settles O34: the accepted effect is the setter's own, and what is rejected leaves the advance alone. -/
theorem setfactorResult : Obligations.SetfactorResult := by
  refine fun s field f => ⟨fun k hk hf => ?written, ?kept⟩
  case written =>
    rw [exec, execSetfactor, onSlot_some hk, setFrequencyFactor_of_positive hf]
    rfl
  case kept =>
    rintro (hf | hnone)
    · have hkept : onSlot field (fun k t => setFrequencyFactor k t.masterFrequency f t) s = s :=
        onSlot_induction (P := (· = s)) rfl fun k _ => setFrequencyFactor_of_not_positive hf
      rw [exec, execSetfactor, hkept]
      rfl
    · exact exec_of_rejected rfl hnone

/-! ### `LOADTAB` (41_oscillator.md R148) -/

/-- A read depends on the elements of its own space only. -/
theorem Memory.read_congr {m m' : Memory} {sp : Space} (h : m'.table sp = m.table sp) (idx : Int) :
    m'.read sp idx = m.read sp idx := by
  rw [Memory.read, Memory.read, h]

theorem loadWaveTable_of_count {k : Slot} {xs : List F32} {s : State} (h : xs.length = s.cfg.N) :
    loadWaveTable k xs s = s.setMem (s.mem.replace (.wt k) xs) := by
  rw [loadWaveTable, if_pos h]

theorem loadWaveTable_of_other_count {k : Slot} {xs : List F32} {s : State} (h : xs.length ≠ s.cfg.N) :
    loadWaveTable k xs s = s := by
  rw [loadWaveTable, if_neg h]

/-- Settles O35: the new memories are the old ones with the slot's wave table replaced. -/
theorem loadtabResult : Obligations.LoadtabResult := by
  refine fun s field xs => ⟨fun k hk hl => ⟨s.mem.replace (.wt k) xs, ?step, fun i hi => ?own, fun sp idx hsp => ?other,
    fun idx hidx => ?outside⟩, ?kept⟩
  case step =>
    rw [exec, execLoadtab, onSlot_some hk, loadWaveTable_of_count hl]
    rfl
  case own =>
    have ht : (s.mem.replace (.wt k) xs).table (.wt k) = xs := Memory.table_replace_same _ _ rfl
    have hread := Memory.read_of_lt (s.mem.replace (.wt k) xs) (.wt k) (i := i) (ht.symm ▸ hi)
    exact ⟨_, List.getElem?_eq_getElem hi, by simpa only [ht] using hread⟩
  case other => exact Memory.read_congr (Memory.table_replace_other _ _ hsp) idx
  case outside =>
    exact Memory.read_out_of_range _ _ (by rwa [Memory.table_replace_same _ _ rfl, hl])
  case kept =>
    rintro (hl | hnone)
    · have hkept : onSlot field (fun k t => loadWaveTable k xs t) s = s :=
        onSlot_induction (P := (· = s)) rfl fun k _ => loadWaveTable_of_other_count hl
      rw [exec, execLoadtab, hkept]
      rfl
    · exact exec_of_rejected rfl hnone

/-! ### `SETENV`, `SETMODE`, `SETSIL` (42_envelope.md R181, R183, R186) -/

theorem envModeOf_of_valid {imm : BitVec 16} (h : imm = 0#16 ∨ imm = 1#16) :
    envModeOf imm = some (if imm = 0#16 then .trigger else .loop) := by
  rcases h with rfl | rfl <;> rfl

theorem envModeOf_of_invalid {imm : BitVec 16} (h : imm ≠ 0#16 ∧ imm ≠ 1#16) : envModeOf imm = none := by
  rw [envModeOf, if_neg h.1, if_neg h.2]

theorem setEnvMode_of_some {k : Slot} {imm : BitVec 16} {mode : EnvMode} {s : State} (h : envModeOf imm = some mode) :
    setEnvMode k imm s = s.setEnv k { (s.slots.get k).env with mode := mode } := by
  simp only [setEnvMode, h]

theorem setEnvMode_of_none {k : Slot} {imm : BitVec 16} {s : State} (h : envModeOf imm = none) :
    setEnvMode k imm s = s := by
  simp only [setEnvMode, h]

/-- Settles O43: the acceptance tests are the comparisons written out, so each accepted case is the setter's own
equation. -/
theorem envelopeParameterCommandsResult : Obligations.EnvelopeParameterCommandsResult := by
  refine ⟨fun s field a d u r => ⟨fun k hk => ?setenv, exec_of_rejected rfl⟩,
    fun s field imm => ⟨fun k hk himm => ?setmode, ?rejectedMode⟩,
    fun s field x y => ⟨fun k hk => ?setsil, exec_of_rejected rfl⟩⟩
  case setenv =>
    rw [exec, execSetenv, onSlot_some hk]
    rfl
  case setsil =>
    rw [exec, execSetsil, onSlot_some hk]
    rfl
  case setmode =>
    rw [exec, execSetmode, onSlot_some hk, setEnvMode_of_some (envModeOf_of_valid himm)]
    rfl
  case rejectedMode =>
    rintro (himm | hnone)
    · have hkept : onSlot field (fun k t => setEnvMode k imm t) s = s :=
        onSlot_induction (P := (· = s)) rfl fun k _ => setEnvMode_of_none (envModeOf_of_invalid himm)
      rw [exec, execSetmode, hkept]
      rfl
    · exact exec_of_rejected rfl hnone

/-! ### `SETQ` (42_envelope.md R182, 40_table_generator.md R116, R118) -/

theorem rebuildCurves_ea (c : Config) (k : Slot) (e : Env) (m : Memory) :
    (rebuildCurves c k e m).table (.ea k) = slopeUp c.M e.attackQ := by
  rw [rebuildCurves, Memory.table_replace_other, Memory.table_replace_other,
    Memory.table_replace_same (sp := .ea k) _ _ rfl] <;> nofun

theorem rebuildCurves_ed (c : Config) (k : Slot) (e : Env) (m : Memory) :
    (rebuildCurves c k e m).table (.ed k) = slopeDown c.M e.decayQ := by
  rw [rebuildCurves, Memory.table_replace_other, Memory.table_replace_same (sp := .ed k) _ _ rfl]
  nofun

theorem rebuildCurves_er (c : Config) (k : Slot) (e : Env) (m : Memory) :
    (rebuildCurves c k e m).table (.er k) = slopeDown c.M e.releaseQ := by
  rw [rebuildCurves, Memory.table_replace_same _ _ rfl]

theorem rebuildCurves_other {c : Config} {k : Slot} {e : Env} {m : Memory} {sp : Space} (ha : sp ≠ .ea k)
    (hd : sp ≠ .ed k) (hr : sp ≠ .er k) : (rebuildCurves c k e m).table sp = m.table sp := by
  rw [rebuildCurves, Memory.table_replace_other _ _ hr, Memory.table_replace_other _ _ hd,
    Memory.table_replace_other _ _ ha]

/-- The curves of the registers themselves are no change. -/
theorem rebuildCurves_of_curvesMatch {c : Config} {k : Slot} {e : Env} {m : Memory} (h : curvesMatch c m k e) :
    rebuildCurves c k e m = m := by
  obtain ⟨ha, hd, hr⟩ := h
  rw [rebuildCurves, ← ha, Memory.replace_table, ← hd, Memory.replace_table, ← hr, Memory.replace_table]

@[simp] theorem acceptQ_self (e : Env) : acceptQ e.attackQ e.decayQ e.releaseQ e = e := by
  simp only [acceptQ, accept_self]

/-- Settles O44: the new memory is the rebuilt one, whose reads `rebuildCurves_ea` to `rebuildCurves_other` give. -/
theorem setqResult : Obligations.SetqResult := by
  refine fun s field qa qd qr => ⟨fun k hk => ?_, exec_of_rejected rfl⟩
  refine ⟨rebuildCurves s.cfg k (acceptQ qa qd qr (s.slots.get k).env) s.mem, ?_, rebuildCurves_ea ..,
    rebuildCurves_ed .., rebuildCurves_er ..,
    fun sp idx ha hd hr => Memory.read_congr (rebuildCurves_other ha hd hr) idx⟩
  rw [exec, execSetq, onSlot_some hk]
  rfl

/-- Settles O26: the current values are accepted or retained, which is the same, and a legal state's curves are those
of its registers. -/
theorem setqWithUnchangedValuesChangesNothing : Obligations.SetqWithUnchangedValuesChangesNothing := by
  intro s field k hs hk
  have hkept : setQ k (s.slots.get k).env.attackQ (s.slots.get k).env.decayQ (s.slots.get k).env.releaseQ s = s := by
    rw [setQ, acceptQ_self, rebuildCurves_of_curvesMatch (hs.curves k), State.setEnv_self, State.setMem_self]
  rw [exec, execSetq, onSlot_some hk, hkept]
  rfl

/-! ### The router's configuration (44_router.md R244 to R247) -/

theorem algorithmOf_of_invalid {imm : BitVec 16} (h : imm = 0#16 ∨ 5 ≤ imm.toNat) : algorithmOf imm = none := by
  simp only [← BitVec.toNat_inj] at h
  simp only [algorithmOf, ← BitVec.toNat_inj]
  split_ifs <;> simp at * <;> omega

theorem exec_setalg_of_some {imm : BitVec 16} {a : Algorithm} {s : State} (h : algorithmOf imm = some a) :
    exec (.setalg imm) s = .next { s with currentAlgorithm := a, cp := s.cp + 1 } := by
  simp only [exec, execSetalg, h]
  rfl

theorem exec_setalg_of_none {imm : BitVec 16} {s : State} (h : algorithmOf imm = none) :
    exec (.setalg imm) s = .next { s with cp := s.cp + 1 } := by
  simp only [exec, execSetalg, h]
  rfl

theorem toggleKindOf_of_invalid {imm : BitVec 16} (h : 2 ≤ imm.toNat) : toggleKindOf imm = none := by
  simp only [toggleKindOf, ← BitVec.toNat_inj]
  split_ifs <;> simp at * <;> omega

theorem toggleActive_of_some {k : Slot} {imm : BitVec 16} {t : ToggleKind} {s : State} (h : toggleKindOf imm = some t) :
    toggleActive k imm s = s.setSlot k ((s.slots.get k).toggle t) := by
  simp only [toggleActive, h]

theorem toggleActive_of_none {k : Slot} {imm : BitVec 16} {s : State} (h : toggleKindOf imm = none) :
    toggleActive k imm s = s := by
  simp only [toggleActive, h]

theorem SlotRegs.toggle_toggle (r : SlotRegs) (t : ToggleKind) : (r.toggle t).toggle t = r := by
  cases t <;> simp only [SlotRegs.toggle, Bool.not_not]

/-- A second equal toggle restores the flag, wherever the pointer stands. -/
theorem toggleActive_twice (k : Slot) (imm : BitVec 16) (s : State) (n : Nat) :
    toggleActive k imm ((toggleActive k imm s).advance n) = s.advance n := by
  cases h : toggleKindOf imm with
  | none => rw [toggleActive_of_none h, toggleActive_of_none h]
  | some t =>
    rw [toggleActive_of_some h, toggleActive_of_some h]
    have hslots : (s.slots.set k ((s.slots.get k).toggle t)).set k
        (((s.slots.set k ((s.slots.get k).toggle t)).get k).toggle t) = s.slots := by
      rw [Slots.get_set_same, SlotRegs.toggle_toggle]
      cases k <;> rfl
    simp only [State.setSlot, State.advance, hslots]

theorem exec_toggle_twice {field : BitVec 8} {imm : BitVec 16} {s t u : State}
    (h : exec (.toggle field imm) s = .next t)
    (h' : exec (.toggle field imm) t = .next u) : u = { s with cp := s.cp + 2 } := by
  cases h
  cases h'
  cases hk : slotOf field with
  | none => rw [onSlot_none hk, onSlot_none hk]; rfl
  | some k => rw [onSlot_some hk, onSlot_some hk, toggleActive_twice]; rfl

theorem exec_toggle_of_invalid {field : BitVec 8} {imm : BitVec 16} {s : State} (h : 2 ≤ imm.toNat) :
    exec (.toggle field imm) s = .next { s with cp := s.cp + 1 } := by
  have hkept : onSlot field (fun k t => toggleActive k imm t) s = s :=
    onSlot_induction (P := (· = s)) rfl fun k _ => toggleActive_of_none (toggleKindOf_of_invalid h)
  rw [exec, execToggle, hkept]
  rfl

theorem setMasterFrequency_of_positive {f : F32} {s : State} (h : positive f = true) :
    setMasterFrequency f s = { s with masterFrequency := f, slots := s.slots.map (followMaster f) } := by
  rw [setMasterFrequency, if_pos h]

theorem setMasterFrequency_of_not_positive {f : F32} {s : State} (h : positive f = false) :
    setMasterFrequency f s = s := by
  rw [setMasterFrequency, h, if_neg Bool.false_ne_true]

/-- Settles O60: identifiers and kinds are exhausted by their decoders, and each accepted case is its setter's
equation. -/
theorem routerConfigurationCommandsResult : Obligations.RouterConfigurationCommandsResult := by
  refine ⟨fun s imm => ⟨?a1, ?a2, ?a3, ?a4, fun h => exec_setalg_of_none (algorithmOf_of_invalid h)⟩,
    fun s field imm => ⟨fun k hk => ⟨?osc, ?env⟩, ?rejectedToggle, fun t u => exec_toggle_twice⟩,
    fun s f => ⟨fun h => ?master, fun h => ?keptMaster⟩, fun s a => ⟨fun h0 h1 => ?amplitude, fun h => ?keptAmplitude⟩⟩
  case a1 | a2 | a3 | a4 => rintro rfl; exact exec_setalg_of_some rfl
  case osc | env =>
    rintro rfl
    rw [exec, execToggle, onSlot_some hk, toggleActive_of_some rfl]
    rfl
  case rejectedToggle =>
    rintro (h | hnone)
    · exact exec_toggle_of_invalid h
    · exact exec_of_rejected rfl hnone
  case master => rw [exec, execSetmfreq, setMasterFrequency_of_positive h]; rfl
  case keptMaster => rw [exec, execSetmfreq, setMasterFrequency_of_not_positive h]; rfl
  case amplitude => rw [exec, execSetmamp, inUnit, h0, h1, Bool.and_self, accept_true]; rfl
  case keptAmplitude =>
    have hu : inUnit a = false := by rcases h with h | h <;> simp only [inUnit, h, Bool.false_and, Bool.and_false]
    rw [exec, execSetmamp, hu, accept_false]
    rfl

/-! ### Notes (42_envelope.md R178 to R180, 43_voice_manager.md R201 to R204, 44_router.md R248, R249) -/

/-- The slots after `NOTEON`: target bit 0 delivers the note to every envelope. -/
def slotsAfterNoteon (c : Config) (targets : BitVec 16) (velocity : F32) (slots : Slots SlotRegs) : Slots SlotRegs :=
  if targets.getLsbD 0 then slots.map (fun r => { r with env := envNoteOn c velocity r.env }) else slots

/-- The voices after `NOTEON`: target bit 1 delivers the note to the Voice Manager. -/
def voicesAfterNoteon (targets : BitVec 16) (frequency velocity : F32) (voices : List (Option Voice)) :
    List (Option Voice) :=
  if targets.getLsbD 1 then vmNoteOn frequency velocity voices else voices

theorem exec_noteon (targets : BitVec 16) (frequency velocity : F32) (s : State) :
    exec (.noteon targets frequency velocity) s = .next { s with
      slots := slotsAfterNoteon s.cfg targets velocity s.slots
      voices := voicesAfterNoteon targets frequency velocity s.voices
      cp := s.cp + 3 } := by
  unfold slotsAfterNoteon voicesAfterNoteon exec execNoteon targetsRouter targetsVoices
  dsimp only
  split_ifs <;> rfl

theorem vmNoteOn_of_positive {f v : F32} {voices : List (Option Voice)} (h : positive f = true) :
    vmNoteOn f v voices = allocate (newVoice f v) voices := by
  rw [vmNoteOn, if_pos h]

theorem voicesAfterNoteon_of_rejected {targets : BitVec 16} {f v : F32} {voices : List (Option Voice)}
    (h : targets.getLsbD 1 = false ∨ positive f = false) : voicesAfterNoteon targets f v voices = voices := by
  unfold voicesAfterNoteon vmNoteOn
  rcases h with h | h <;> simp only [h, Bool.false_eq_true, if_false, ite_self]

theorem voicesAfterNoteon_of_accepted {targets : BitVec 16} {f v : F32} {voices : List (Option Voice)}
    (ht : targets.getLsbD 1 = true) (hf : positive f = true) :
    voicesAfterNoteon targets f v voices = allocate (newVoice f v) voices := by
  rw [voicesAfterNoteon, if_pos ht, vmNoteOn_of_positive hf]

/-- Settles O45: the two target bits act on slots and voices separately, and an accepted note takes the first free
voice. -/
theorem noteonResult : Obligations.NoteonResult := by
  intro s mask f v
  refine ⟨voicesAfterNoteon mask f v s.voices, exec_noteon mask f v s, voicesAfterNoteon_of_rejected, fun ht hf => ?_⟩
  rw [voicesAfterNoteon_of_accepted ht hf]
  exact ⟨fun j => allocate_first_free, allocate_full⟩

theorem Env.noteOffStage_eq (e : Env) :
    e.noteOffStage = if e.mode = .loop ∧ e.stage = .silent then .silent else .release := by
  unfold Env.noteOffStage
  cases e.mode <;> simp

theorem exec_noteoff (targets : BitVec 16) (s : State) :
    exec (.noteoff targets) s = .next { s with
      slots := if targets.getLsbD 0 then s.slots.map (fun r => { r with env := envNoteOff r.env }) else s.slots
      cp := s.cp + 1 } := by
  unfold exec execNoteoff targetsRouter
  dsimp only
  split_ifs <;> rfl

/-- Settles O46: `Env.noteOffStage` says by mode and stage what the statement spells out. -/
theorem noteoffResult : Obligations.NoteoffResult := by
  intro s mask
  simp only [exec_noteoff, envNoteOff, Env.noteOffStage_eq]

/-! ### The volume of a note (42_envelope.md R178) -/

/-- A quotient of a value by a finite value that is not below it is in `[0, 1]`. -/
theorem fdiv_inUnit {a b : F32} (ha : isFinite a = true) (hb : isFinite b = true)
    (ha0 : signBit a = true → magBits a = 0) (hsb : signBit b = false) (hb0 : magBits b ≠ 0)
    (hle : magBits a ≤ magBits b) : inUnit (fdiv a b) = true := by
  have hden : 0 < unitsOfMag (magBits b) := unitsOfMag_pos_iff.2 (Nat.pos_of_ne_zero hb0)
  rw [inUnit_iff, fdiv_of_finite ha hb hb0, magBits_rounded, signBit_rounded, hsb, Bool.bne_false]
  refine ⟨roundUnits_le hden ?_, fun hs => ?_⟩
  · rw [unitsOfMag_oneMag, Nat.mul_comm]
    exact Nat.mul_le_mul_left _ (unitsOfMag_le_iff.2 hle)
  · have hnum : unitsOfMag (magBits a) * unitsPerOne ≤ unitsOfMag 0 * unitsOfMag (magBits b) := by
      rw [ha0 hs, unitsOfMag_zero, Nat.zero_mul, Nat.zero_mul]
    exact Nat.le_zero.1 (roundUnits_le hden hnum)

/-- A non-negative value is zero where its sign bit is set. -/
theorem magBits_of_nonneg {v : F32} (h : 0 ≤ units v) (hs : signBit v = true) : magBits v = 0 := by
  rw [units, if_pos hs] at h
  have := unitsOfMag_pos_iff (m := magBits v)
  omega

theorem signBit_of_units_pos {v : F32} (h : 0 < units v) : signBit v = false := by
  cases hs : signBit v with
  | false => rfl
  | true => rw [units, if_pos hs] at h; omega

/-- The finite values between zero and a finite value. -/
theorem magBits_le_of_between {v b : F32} (hb : isFinite b = true) (h0 : fge v F32.zero = true) (hle : fle v b = true) :
    isFinite v = true ∧ (signBit v = true → magBits v = 0) ∧ magBits v ≤ magBits b := by
  obtain ⟨-, -, h0⟩ := (fge_iff _ _).1 h0
  obtain ⟨-, -, hle⟩ := (fle_iff _ _).1 hle
  rw [units_zero] at h0
  have hmag : magBits v ≤ magBits b := by
    rw [← unitsOfMag_le_iff, ← units_natAbs, ← units_natAbs]
    omega
  exact ⟨isFinite_of_mag_le hmag ((isFinite_iff b).1 hb), magBits_of_nonneg h0, hmag⟩

/-- The volume that a note writes (R178): a level in `[0, 1]` times a velocity in range, over the largest velocity. -/
theorem noteVolume_inUnit {level v vmax : F32} (hl : inUnit level = true) (hf : isFinite vmax = true)
    (hp : positive vmax = true) (h0 : fge v F32.zero = true) (hle : fle v vmax = true) :
    inUnit (fdiv (fmul level v) vmax) = true := by
  obtain ⟨hvf, hv0, hvm⟩ := magBits_le_of_between hf h0 hle
  obtain ⟨-, -, hpos⟩ := (flt_iff _ _).1 hp
  rw [units_zero] at hpos
  have hls := signedUnit_of_inUnit hl
  have hlf := isFinite_of_signedUnit hls
  have hmag : magBits (fmul level v) ≤ magBits v := by
    have hcomm : magBits (fmul level v) = magBits (fmul v level) := by
      rw [fmul_of_finite hlf hvf, fmul_of_finite hvf hlf, magBits_rounded, magBits_rounded, Nat.mul_comm]
    exact hcomm ▸ magBits_fmul_le hvf hls
  have hb0 : magBits vmax ≠ 0 := fun h => hpos.ne' ((units_eq_zero_iff vmax).2 h)
  exact fdiv_inUnit (isFinite_of_mag_le hmag ((isFinite_iff v).1 hvf)) hf
    (fmul_nonneg hlf hvf ((inUnit_iff _).1 hl).2 hv0) (signBit_of_units_pos hpos) hb0 (hmag.trans hvm)

/-- The registers of a legal slot (10_state.md R24, R26). -/
theorem SlotRegs.legal_iff {mf : F32} {r : SlotRegs} :
    r.legal mf = true ↔ inUnit r.osc.amplitude = true ∧ positive r.osc.frequencyFactor = true ∧
      r.osc.frequency = fmul r.osc.frequencyFactor mf ∧ inUnit r.env.attackTime = true ∧
      inUnit r.env.decayTime = true ∧ inUnit r.env.sustainLevel = true ∧ inUnit r.env.releaseTime = true ∧
      positive r.env.attackQ = true ∧ positive r.env.decayQ = true ∧ positive r.env.releaseQ = true ∧
      positive r.env.silentTime = true ∧ positive r.env.sustainLoopTime = true := by
  simp only [SlotRegs.legal, Bool.and_eq_true, decide_eq_true_eq, and_assoc]

/-- Settles O47: the note writes the volume of each envelope from its own legal sustain level. -/
theorem noteVolumeStaysInTheUnitRange : Obligations.NoteVolumeStaysInTheUnitRange := by
  refine ⟨fun s t mask f v hs hf hp h0 hle ht h k => ?volume, fun s t mask f v ht h k => ?kept⟩
  case volume =>
    rw [exec_noteon, slotsAfterNoteon, if_pos ht] at h
    cases h
    obtain ⟨-, -, -, -, -, hlevel, -⟩ := SlotRegs.legal_iff.1 (hs.slots k)
    rw [Slots.get_map]
    exact noteVolume_inUnit hlevel hf hp h0 hle
  case kept =>
    rw [exec_noteon, slotsAfterNoteon, ht, if_neg Bool.false_ne_true] at h
    cases h
    rfl

end Sys2Proof.Machine
end

section
/-! PROOFS. What a command can write (10_state.md R21 to R30, 40_table_generator.md R117), said once for the slots, the
table memories and the rest of the state; and the steps of a stream (R30, 60_exceptions.md R279). -/

namespace Sys2Proof.Machine

/-! ### The state outside slots, tables and pointer -/

theorem frame_of_onSlot_advance {field : BitVec 8} {f : Slot → State → State} {s t : State} {n : Nat}
    (h : (.next ((onSlot field f s).advance n) : Host.Outcome State Fault Refusal) = .next t)
    (hf : ∀ k, f k s = { s with slots := (f k s).slots, mem := (f k s).mem }) :
    t = { s with slots := t.slots, mem := t.mem, cp := t.cp } := by
  cases h
  have hframe : onSlot field f s = { s with slots := (onSlot field f s).slots, mem := (onSlot field f s).mem } :=
    onSlot_induction (P := fun u => u = { s with slots := u.slots, mem := u.mem }) rfl fun k _ => hf k
  rw [hframe]
  rfl

/-- A slot-addressed command writes slots, table memories and the pointer only. -/
theorem exec_slotAddressed_frame {i : Instr} {field : BitVec 8} {s t : State} (hi : i.slotField = some field)
    (h : exec i s = .next t) : t = { s with slots := t.slots, mem := t.mem, cp := t.cp } := by
  cases i with
  | setfactor slot factor => exact frame_of_onSlot_advance h fun k => by rw [setFrequencyFactor_frame]
  | setamp slot amp => exact frame_of_onSlot_advance h fun k => by rw [setAmplitude_frame]
  | setenv slot a d su r => exact frame_of_onSlot_advance h fun k => by rw [setADSR_frame]
  | setq slot qa qd qr => exact frame_of_onSlot_advance h fun k => by rw [setQ_frame]
  | setmode slot mode => exact frame_of_onSlot_advance h fun k => by rw [setEnvMode_frame]
  | setsil slot x y => exact frame_of_onSlot_advance h fun k => by rw [setSilentAndSustainTime_frame]
  | loadtab slot samples => exact frame_of_onSlot_advance h fun k => by rw [loadWaveTable_frame]
  | toggle slot kind => exact frame_of_onSlot_advance h fun k => by rw [toggleActive_frame]
  | _ => cases hi

theorem execSetalg_frame {id : BitVec 16} {s t : State} (h : execSetalg id s = .next t) :
    t = { s with currentAlgorithm := t.currentAlgorithm, cp := t.cp } := by
  unfold execSetalg at h
  split at h <;> cases h <;> rfl

theorem execSetmfreq_frame {f : F32} {s t : State} (h : execSetmfreq f s = .next t) :
    t = { s with masterFrequency := t.masterFrequency, slots := t.slots, cp := t.cp } := by
  cases h
  rw [setMasterFrequency_frame]
  rfl

/-- The registers outside the slots that each command but `PROCESS` can write; parameters, streams and the modulator's
phase are written by none of them. -/
theorem exec_frame {i : Instr} {s t : State} (h : exec i s = .next t) (hp : ∀ xs, i ≠ .process xs) :
    (t.cfg = s.cfg ∧ t.vmodPhase = s.vmodPhase ∧ t.cmd = s.cmd ∧ t.out = s.out) ∧
      ((∀ f, i ≠ .setmfreq f) → t.masterFrequency = s.masterFrequency) ∧
      ((∀ a, i ≠ .setmamp a) → t.masterAmplitude = s.masterAmplitude) ∧
      ((∀ id, i ≠ .setalg id) → t.currentAlgorithm = s.currentAlgorithm) ∧
      ((∀ m f v, i ≠ .noteon m f v) → t.voices = s.voices) := by
  cases hi : i.slotField with
  | some field =>
    rw [exec_slotAddressed_frame hi h]
    exact ⟨⟨rfl, rfl, rfl, rfl⟩, fun _ => rfl, fun _ => rfl, fun _ => rfl, fun _ => rfl⟩
  | none =>
    cases i with
    | process samples => exact absurd rfl (hp samples)
    | noteon m f v =>
      rw [exec_noteon] at h
      cases h
      exact ⟨⟨rfl, rfl, rfl, rfl⟩, fun _ => rfl, fun _ => rfl, fun _ => rfl, fun hn => absurd rfl (hn m f v)⟩
    | noteoff m =>
      rw [exec_noteoff] at h
      cases h
      exact ⟨⟨rfl, rfl, rfl, rfl⟩, fun _ => rfl, fun _ => rfl, fun _ => rfl, fun _ => rfl⟩
    | setmfreq f =>
      rw [execSetmfreq_frame h]
      exact ⟨⟨rfl, rfl, rfl, rfl⟩, fun hn => absurd rfl (hn f), fun _ => rfl, fun _ => rfl, fun _ => rfl⟩
    | setmamp a =>
      cases h
      exact ⟨⟨rfl, rfl, rfl, rfl⟩, fun _ => rfl, fun hn => absurd rfl (hn a), fun _ => rfl, fun _ => rfl⟩
    | setalg id =>
      rw [execSetalg_frame h]
      exact ⟨⟨rfl, rfl, rfl, rfl⟩, fun _ => rfl, fun _ => rfl, fun hn => absurd rfl (hn id), fun _ => rfl⟩
    | _ => cases hi

theorem processBlock_length {s : State} {xs : List F32} {b : BlockResult} (h : processBlock s xs = .ok b) :
    b.output.length = xs.length := by
  obtain ⟨buf, hrouter, hvoices⟩ := processBlock_ok.1 h
  rw [runBlock_length hvoices, masterGain_length, routerBlock_length hrouter]

theorem outputs_of_not_process {i : Instr} (h : ∀ xs, i ≠ .process xs) : i.outputs = 0 := by
  cases i with
  | process samples => exact absurd rfl (h samples)
  | _ => rfl

/-- Settles O13: `PROCESS` commits its block, which has a sample for each of its samples; no other command outputs. -/
theorem commandsKeepConstantsAndAppendOutputs : Obligations.CommandsKeepConstantsAndAppendOutputs := by
  intro i s t h
  by_cases hp : ∃ xs, i = .process xs
  · obtain ⟨xs, rfl⟩ := hp
    obtain ⟨b, hb, rfl⟩ := execProcess_next.1 h
    exact ⟨rfl, rfl, rfl, b.output, rfl, processBlock_length hb⟩
  · have hp' : ∀ xs, i ≠ .process xs := fun xs hxs => hp ⟨xs, hxs⟩
    obtain ⟨⟨hcfg, -, hcmd, hout⟩, -⟩ := exec_frame h hp'
    exact ⟨hcfg, hcmd, exec_cp h, [], by rw [hout, List.append_nil], (outputs_of_not_process hp').symm⟩

/-! ### The registers of a slot -/

/-- `SlotWrite c mf i r r'`: the command `i` can leave `r'` in a slot that held `r`, with parameters `c` and master
frequency `mf`. -/
inductive SlotWrite (c : Config) (mf : F32) : Instr → SlotRegs → SlotRegs → Prop where
  | process (xs : List F32) (r : SlotRegs) (phase phaseIndex : F32) (stage : Stage) :
    SlotWrite c mf (.process xs) r
      { r with osc := { r.osc with phase := phase }, env := { r.env with phaseIndex := phaseIndex, stage := stage } }
  | noteon (m : BitVec 16) (f v : F32) (r : SlotRegs) :
    SlotWrite c mf (.noteon m f v) r { r with env := envNoteOn c v r.env }
  | noteoff (m : BitVec 16) (r : SlotRegs) : SlotWrite c mf (.noteoff m) r { r with env := envNoteOff r.env }
  | setfactor (b : BitVec 8) (f : F32) (r : SlotRegs) (hf : positive f = true) :
    SlotWrite c mf (.setfactor b f) r { r with osc := { r.osc with frequencyFactor := f, frequency := fmul f mf } }
  | setamp (b : BitVec 8) (a : F32) (r : SlotRegs) :
    SlotWrite c mf (.setamp b a) r { r with osc := { r.osc with amplitude := accept (inUnit a) a r.osc.amplitude } }
  | setmfreq (f : F32) (r : SlotRegs) (hf : positive f = true) : SlotWrite c mf (.setmfreq f) r (followMaster f r)
  | setenv (b : BitVec 8) (a d su rel : F32) (r : SlotRegs) :
    SlotWrite c mf (.setenv b a d su rel) r { r with
      env := { r.env with
        attackTime   := accept (inUnit a) a r.env.attackTime
        decayTime    := accept (inUnit d) d r.env.decayTime
        sustainLevel := accept (inUnit su) su r.env.sustainLevel
        releaseTime  := accept (inUnit rel) rel r.env.releaseTime } }
  | setq (b : BitVec 8) (qa qd qr : F32) (r : SlotRegs) :
    SlotWrite c mf (.setq b qa qd qr) r { r with env := acceptQ qa qd qr r.env }
  | setmode (b : BitVec 8) (n : BitVec 16) (r : SlotRegs) (mode : EnvMode) :
    SlotWrite c mf (.setmode b n) r { r with env := { r.env with mode := mode } }
  | setsil (b : BitVec 8) (x y : F32) (r : SlotRegs) :
    SlotWrite c mf (.setsil b x y) r { r with
      env := { r.env with
        silentTime      := accept (positive x) x r.env.silentTime
        sustainLoopTime := accept (positive y) y r.env.sustainLoopTime } }
  | toggle (b : BitVec 8) (n : BitVec 16) (r : SlotRegs) (kind : ToggleKind) :
    SlotWrite c mf (.toggle b n) r (r.toggle kind)

/-- A slot after a slot-addressed command whose effect keeps the other slots: as it was, or as the effect left it. -/
theorem get_of_onSlot_advance {field : BitVec 8} {f : Slot → State → State} {s t : State} {n : Nat}
    (h : (.next ((onSlot field f s).advance n) : Host.Outcome State Fault Refusal) = .next t)
    (hother : ∀ {j k}, k ≠ j → (f j s).slots.get k = s.slots.get k) (k : Slot) :
    t.slots.get k = s.slots.get k ∨ t.slots.get k = (f k s).slots.get k := by
  cases h
  refine onSlot_induction (P := fun u => u.slots.get k = s.slots.get k ∨ u.slots.get k = (f k s).slots.get k) (.inl rfl)
    fun j _ => ?_
  by_cases hk : k = j
  · exact .inr (hk ▸ rfl)
  · exact .inl (hother hk)

theorem execProcess_slot {s t : State} {xs : List F32} (h : execProcess xs s = .next t) (k : Slot) :
    ∃ mode us vs, slotBlock s.cfg s.mem k mode (s.slots.get k) us = .ok (t.slots.get k, vs) := by
  obtain ⟨b, hb, rfl⟩ := execProcess_next.1 h
  obtain ⟨buf, hrouter, -⟩ := processBlock_ok.1 hb
  obtain ⟨us, vs, hslot⟩ := routerBlock_slot hrouter k
  exact ⟨_, us, vs, hslot⟩

theorem slotBlock_writes {c : Config} {m : Memory} {k : Slot} {mode : OscMode} {r r' : SlotRegs} {xs ys : List F32}
    (h : slotBlock c m k mode r xs = .ok (r', ys)) :
    r' = { r with
      osc := { r.osc with phase := r'.osc.phase }
      env := { r.env with phaseIndex := r'.env.phaseIndex, stage := r'.env.stage } } := by
  obtain ⟨hosc, henv, ho, he, -⟩ := slotBlock_frame h
  obtain ⟨oscActive', envActive', osc', env'⟩ := r'
  dsimp only at hosc henv ho he ⊢
  rw [hosc, henv, ← ho, ← he]

/-- What a command can do to a slot. -/
theorem exec_slot_cases {i : Instr} {s t : State} (h : exec i s = .next t) (k : Slot) :
    t.slots.get k = s.slots.get k ∨ SlotWrite s.cfg s.masterFrequency i (s.slots.get k) (t.slots.get k) := by
  cases i with
  | process xs =>
    obtain ⟨mode, us, vs, hslot⟩ := execProcess_slot h k
    rw [slotBlock_writes hslot]
    exact .inr (.process ..)
  | noteon m f v =>
    rw [exec_noteon] at h
    cases h
    unfold slotsAfterNoteon
    split_ifs
    · rw [Slots.get_map]; exact .inr (.noteon ..)
    · exact .inl rfl
  | noteoff m =>
    rw [exec_noteoff] at h
    cases h
    dsimp only
    split_ifs
    · rw [Slots.get_map]; exact .inr (.noteoff ..)
    · exact .inl rfl
  | setfactor b f =>
    rcases get_of_onSlot_advance h (fun hk => setFrequencyFactor_other hk ..) k with hw | hw
    · exact .inl hw
    · rw [hw, setFrequencyFactor_same]
      split_ifs with hf
      · exact .inr (.setfactor _ _ _ hf)
      · exact .inl rfl
  | setamp b a =>
    refine (get_of_onSlot_advance h (fun hk => setAmplitude_other hk ..) k).imp_right fun hw => ?_
    rw [hw, setAmplitude_same]
    exact .setamp ..
  | setmfreq f =>
    cases h
    cases hf : positive f with
    | true => rw [setMasterFrequency_of_positive hf]; exact .inr (by simpa using .setmfreq f _ hf)
    | false => rw [setMasterFrequency_of_not_positive hf]; exact .inl rfl
  | setmamp a => cases h; exact .inl rfl
  | setenv b a d su r =>
    refine (get_of_onSlot_advance h (fun hk => setADSR_other hk ..) k).imp_right fun hw => ?_
    rw [hw, setADSR_same]
    exact .setenv ..
  | setq b qa qd qr =>
    refine (get_of_onSlot_advance h (fun hk => setQ_other hk ..) k).imp_right fun hw => ?_
    rw [hw, setQ_same]
    exact .setq ..
  | setmode b n =>
    refine (get_of_onSlot_advance h (fun hk => setEnvMode_other hk ..) k).imp_right fun hw => ?_
    rw [hw, setEnvMode_same]
    exact .setmode ..
  | setsil b x y =>
    refine (get_of_onSlot_advance h (fun hk => setSilentAndSustainTime_other hk ..) k).imp_right fun hw => ?_
    rw [hw, setSilentAndSustainTime_same]
    exact .setsil ..
  | setalg id => rw [execSetalg_slots h]; exact .inl rfl
  | loadtab b xs =>
    rcases get_of_onSlot_advance h (fun _ => by rw [loadWaveTable_slots]) k with hw | hw
    · exact .inl hw
    · exact .inl (by rw [hw, loadWaveTable_slots])
  | toggle b n =>
    rcases get_of_onSlot_advance h (fun hk => toggleActive_other hk ..) k with hw | hw
    · exact .inl hw
    · rw [hw, toggleActive_same]
      cases toggleKindOf n with
      | none => exact .inl rfl
      | some kind => exact .inr (.toggle ..)

theorem execProcess_frame {s t : State} {xs : List F32} (h : execProcess xs s = .next t) :
    t = { s with slots := t.slots, vmodPhase := t.vmodPhase, voices := t.voices, cp := t.cp, out := t.out } := by
  obtain ⟨b, -, rfl⟩ := execProcess_next.1 h
  rfl

/-- Without `NOTEON`, an occupied voice was occupied before, with the same frequency and velocity. -/
theorem exec_keeps_notes {i : Instr} {s t : State} (h : exec i s = .next t) (hn : ∀ m f v, i ≠ .noteon m f v) {j : Nat}
    {w : Voice} (hw : t.voices[j]? = some (some w)) :
    ∃ v, s.voices[j]? = some (some v) ∧ w.frequency = v.frequency ∧ w.velocity = v.velocity := by
  by_cases hp : ∃ xs, i = .process xs
  · obtain ⟨xs, rfl⟩ := hp
    obtain ⟨b, hb, rfl⟩ := execProcess_next.1 h
    obtain ⟨buf, -, hvoices⟩ := processBlock_ok.1 hb
    exact vmBlock_keeps_notes hvoices hw
  · obtain ⟨-, -, -, -, hvoices⟩ := exec_frame h fun xs hxs => hp ⟨xs, hxs⟩
    rw [hvoices hn] at hw
    exact ⟨w, hw, rfl, rfl⟩

/-- The registers of a slot that each command writes are those of its case; every other command keeps them. -/
theorem SlotWrite.registers {c : Config} {mf : F32} {i : Instr} {r r' : SlotRegs} (h : SlotWrite c mf i r r') :
    ((∀ b n, i ≠ .toggle b n) → r'.oscActive = r.oscActive ∧ r'.envActive = r.envActive) ∧
    ((∀ xs, i ≠ .process xs) → r'.osc.phase = r.osc.phase ∧ r'.env.phaseIndex = r.env.phaseIndex) ∧
    ((∀ b f, i ≠ .setfactor b f) → (∀ f, i ≠ .setmfreq f) → r'.osc.frequency = r.osc.frequency) ∧
    ((∀ b f, i ≠ .setfactor b f) → r'.osc.frequencyFactor = r.osc.frequencyFactor) ∧
    ((∀ b a, i ≠ .setamp b a) → r'.osc.amplitude = r.osc.amplitude) ∧
    ((∀ b a d u rel, i ≠ .setenv b a d u rel) →
      r'.env.attackTime = r.env.attackTime ∧ r'.env.decayTime = r.env.decayTime ∧
      r'.env.sustainLevel = r.env.sustainLevel ∧ r'.env.releaseTime = r.env.releaseTime) ∧
    ((∀ b qa qd qr, i ≠ .setq b qa qd qr) →
      r'.env.attackQ = r.env.attackQ ∧ r'.env.decayQ = r.env.decayQ ∧ r'.env.releaseQ = r.env.releaseQ) ∧
    ((∀ b x y, i ≠ .setsil b x y) →
      r'.env.silentTime = r.env.silentTime ∧ r'.env.sustainLoopTime = r.env.sustainLoopTime) ∧
    ((∀ b n, i ≠ .setmode b n) → r'.env.mode = r.env.mode) ∧
    ((∀ m f v, i ≠ .noteon m f v) → r'.env.resultVolume = r.env.resultVolume) ∧
    ((∀ m f v, i ≠ .noteon m f v) → (∀ m, i ≠ .noteoff m) → r'.env.noteOnFlag = r.env.noteOnFlag) ∧
    ((∀ xs, i ≠ .process xs) → (∀ m f v, i ≠ .noteon m f v) → (∀ m, i ≠ .noteoff m) → r'.env.stage = r.env.stage) := by
  cases h with
  | toggle b n r kind => cases kind <;> simp [SlotRegs.toggle]
  | _ => simp [envNoteOn, envNoteOff, acceptQ, followMaster]

/-- Settles O14: outside the slots by the frame of each command, inside them by the cases of `SlotWrite`. -/
theorem eachRegisterIsWrittenByItsCommandsOnly : Obligations.EachRegisterIsWrittenByItsCommandsOnly := by
  intro i s t h
  have hslots : ∀ k, _ := fun k => (exec_slot_cases h k).elim (fun hk => by rw [hk]; simp) SlotWrite.registers
  by_cases hp : ∃ xs, i = .process xs
  · obtain ⟨xs, rfl⟩ := hp
    have hframe := execProcess_frame h
    refine ⟨fun _ => by rw [hframe], fun _ => by rw [hframe], fun _ => by rw [hframe], fun hn => absurd rfl (hn xs),
      fun hn => absurd rfl (hn xs), fun hn _ _ => exec_keeps_notes h hn, hslots⟩
  · obtain ⟨⟨-, hvmod, -⟩, hfreq, hamp, halg, hvoices⟩ := exec_frame h fun xs hxs => hp ⟨xs, hxs⟩
    exact ⟨hfreq, hamp, halg, fun _ => hvmod, fun _ => hvoices, fun hn _ _ => exec_keeps_notes h hn, hslots⟩

/-! ### The table memories (40_table_generator.md R116, R117) -/

theorem mem_of_onSlot_advance {field : BitVec 8} {f : Slot → State → State} {s t : State} {n : Nat}
    (h : (.next ((onSlot field f s).advance n) : Host.Outcome State Fault Refusal) = .next t)
    (hf : ∀ k, (f k s).mem = s.mem) : t.mem = s.mem := by
  cases h
  exact onSlot_induction (P := fun u => u.mem = s.mem) rfl fun k _ => hf k

theorem exec_setq_next {b : BitVec 8} {qa qd qr : F32} {k : Slot} {s t : State}
    (h : exec (.setq b qa qd qr) s = .next t)    (hk : slotOf b = some k) : t = (setQ k qa qd qr s).advance 4 := by
  rw [exec, execSetq, onSlot_some hk] at h
  cases h
  rfl

/-- What a command can do to the table memories: `SETQ` rebuilds the curves of its slot from the registers it leaves,
`LOADTAB` replaces the wave table of its slot, and nothing else writes a table. -/
theorem exec_mem_cases {i : Instr} {s t : State} (h : exec i s = .next t) :
    t.mem = s.mem ∨
      (∃ b qa qd qr k, i = .setq b qa qd qr ∧ slotOf b = some k ∧
        t.mem = rebuildCurves s.cfg k (t.slots.get k).env s.mem) ∨
      (∃ b xs k, i = .loadtab b xs ∧ slotOf b = some k ∧ xs.length = s.cfg.N ∧
        t.mem = s.mem.replace (.wt k) xs) := by
  cases i with
  | process xs => rw [execProcess_frame h]; exact .inl rfl
  | noteon m f v => rw [exec_noteon] at h; cases h; exact .inl rfl
  | noteoff m => rw [exec_noteoff] at h; cases h; exact .inl rfl
  | setfactor b f => exact .inl (mem_of_onSlot_advance h fun k => by rw [setFrequencyFactor_frame])
  | setamp b a => exact .inl (mem_of_onSlot_advance h fun k => by rw [setAmplitude_frame])
  | setmfreq f => rw [execSetmfreq_frame h]; exact .inl rfl
  | setmamp a => cases h; exact .inl rfl
  | setenv b a d su r => exact .inl (mem_of_onSlot_advance h fun k => by rw [setADSR_frame])
  | setq b qa qd qr =>
    cases hk : slotOf b with
    | none =>
      rw [exec_of_rejected rfl hk] at h
      cases h
      exact .inl rfl
    | some k =>
      obtain rfl := exec_setq_next h hk
      refine .inr (.inl ⟨b, qa, qd, qr, k, rfl, hk, ?_⟩)
      rw [State.advance_mem, State.advance_slots, setQ_same, setQ_mem]
  | setmode b n => exact .inl (mem_of_onSlot_advance h fun k => by rw [setEnvMode_frame])
  | setsil b x y => exact .inl (mem_of_onSlot_advance h fun k => by rw [setSilentAndSustainTime_frame])
  | setalg id => rw [execSetalg_frame h]; exact .inl rfl
  | loadtab b xs =>
    cases hk : slotOf b with
    | none =>
      rw [exec_of_rejected rfl hk] at h
      cases h
      exact .inl rfl
    | some k =>
      rw [exec, execLoadtab, onSlot_some hk] at h
      cases h
      rw [State.advance_mem, loadWaveTable_mem]
      split_ifs with hl
      · exact .inr (.inr ⟨b, xs, k, rfl, hk, hl, rfl⟩)
      · exact .inl rfl
  | toggle b n => exact .inl (mem_of_onSlot_advance h fun k => by rw [toggleActive_frame])

/-- Which tables a command can change: the curves of the slot of a `SETQ` and the wave table of the slot of a
`LOADTAB`. -/
theorem exec_table {i : Instr} {s t : State} (h : exec i s = .next t) :
    t.mem.table .sine = s.mem.table .sine ∧ t.mem.table .vmcurve = s.mem.table .vmcurve ∧
    ∀ k : Slot,
      ((∀ b qa qd qr, i = .setq b qa qd qr → slotOf b ≠ some k) →
        t.mem.table (.ea k) = s.mem.table (.ea k) ∧ t.mem.table (.ed k) = s.mem.table (.ed k) ∧
        t.mem.table (.er k) = s.mem.table (.er k)) ∧
      ((∀ b xs, i = .loadtab b xs → slotOf b ≠ some k) → t.mem.table (.wt k) = s.mem.table (.wt k)) := by
  rcases exec_mem_cases h with hm | ⟨b, qa, qd, qr, j, rfl, hj, hm⟩ | ⟨b, xs, j, rfl, hj, -, hm⟩ <;> rw [hm]
  case inl => exact ⟨rfl, rfl, fun k => ⟨fun _ => ⟨rfl, rfl, rfl⟩, fun _ => rfl⟩⟩
  case inr.inl =>
    refine ⟨rebuildCurves_other nofun nofun nofun, rebuildCurves_other nofun nofun nofun, fun k => ⟨fun hn => ?_,
      fun _ => rebuildCurves_other nofun nofun nofun⟩⟩
    have hkj : k ≠ j := fun he => hn b qa qd qr rfl (he ▸ hj)
    refine ⟨?_, ?_, ?_⟩ <;> exact rebuildCurves_other (by simp [hkj]) (by simp [hkj]) (by simp [hkj])
  case inr.inr =>
    refine ⟨Memory.table_replace_other _ _ nofun, Memory.table_replace_other _ _ nofun, fun k => ⟨fun _ =>
      ⟨Memory.table_replace_other _ _ nofun, Memory.table_replace_other _ _ nofun,
        Memory.table_replace_other _ _ nofun⟩, fun hn => Memory.table_replace_other _ _ ?_⟩⟩
    rintro ⟨⟩
    exact hn b xs rfl hj

/-- `SETQ` leaves the curves of the registers it leaves (R116, 42_envelope.md R182). -/
theorem exec_setq_curves {b : BitVec 8} {qa qd qr : F32} {k : Slot} {s t : State}
    (h : exec (.setq b qa qd qr) s = .next t) (hk : slotOf b = some k) :
    curvesMatch s.cfg t.mem k (t.slots.get k).env := by
  obtain rfl := exec_setq_next h hk
  rw [State.advance_mem, State.advance_slots, setQ_same, setQ_mem]
  exact ⟨rebuildCurves_ea .., rebuildCurves_ed .., rebuildCurves_er ..⟩

/-- `LOADTAB` keeps a wave table or replaces it whole. -/
theorem exec_loadtab_wt {b : BitVec 8} {xs : List F32} {s t : State} (h : exec (.loadtab b xs) s = .next t) (k : Slot) :
    t.mem.table (.wt k) = s.mem.table (.wt k) ∨ t.mem.table (.wt k) = xs := by
  rcases exec_mem_cases h with hm | ⟨_, _, _, _, _, hi, -⟩ | ⟨b', xs', j, hi, -, -, hm⟩
  · exact .inl (by rw [hm])
  · cases hi
  · cases hi
    rw [hm]
    by_cases hk : k = j
    · exact .inr (hk ▸ Memory.table_replace_same _ _ rfl)
    · exact .inl (Memory.table_replace_other _ _ (by simp [hk]))

/-- Settles O25: reads follow the tables, which change as `exec_table` says. -/
theorem tablesChangeOnlyBySetqAndLoadtab : Obligations.TablesChangeOnlyBySetqAndLoadtab := by
  intro i s t h
  obtain ⟨hsine, hvmcurve, htable⟩ := exec_table h
  refine ⟨fun idx => ⟨Memory.read_congr hsine idx, Memory.read_congr hvmcurve idx⟩, fun k =>
    ⟨fun hn idx => ?curves, ?setq, fun hn idx => Memory.read_congr ((htable k).2 hn) idx, ?loadtab⟩⟩
  case curves =>
    obtain ⟨ha, hd, hr⟩ := (htable k).1 hn
    exact ⟨Memory.read_congr ha idx, Memory.read_congr hd idx, Memory.read_congr hr idx⟩
  case setq =>
    rintro b qa qd qr rfl hk
    exact exec_setq_curves h hk
  case loadtab =>
    rintro b xs rfl
    exact exec_loadtab_wt h k

/-! ### A step of a stream (10_state.md R30) -/

theorem step_of_command {s : State} {i : Instr} {rest : List Word} (hd : decode s.fetch = .command i rest) :
    step s = exec i s := by
  rw [step, hd]

/-- After a completed command the words that followed it are read next. -/
theorem fetch_of_exec {s t : State} {i : Instr} {rest : List Word} (hd : decode s.fetch = .command i rest)
    (h : exec i s = .next t) : t.fetch = rest := by
  obtain ⟨-, hcmd, hcp, -⟩ := commandsKeepConstantsAndAppendOutputs i s t h
  rw [(decode_consumes hd).1, State.fetch, State.fetch, hcmd, hcp, List.drop_drop]

/-- Settles O9: the step is the execution by definition, and the pointer moves by what the decoder consumed. -/
theorem stepRunsTheCommandAtThePointer : Obligations.StepRunsTheCommandAtThePointer :=
  fun _ _ _ hd => ⟨step_of_command hd, fun _ => fetch_of_exec hd⟩

/-- Settles O11: the delivered words stand at the pointer, and words after a command do not change what is decoded. -/
theorem deliveredTableWordIsTheNextStep : Obligations.DeliveredTableWordIsTheNextStep := by
  intro s nbits w i h
  unfold decodeTableWord at h
  split at h
  case h_1 j rest hd =>
    cases h
    have hfetch := s.fetch_deliverAtCp (tableWords nbits w)
    exact step_of_command (hfetch ▸ decode_append hd)
  all_goals cases h

/-! ### The faults of a command are those of its lookups (60_exceptions.md R279) -/

theorem floorIndex_error {v : F32} {f : Fault} (h : floorIndex v = .error f) : f ≠ .truncatedCommand := by
  unfold floorIndex at h
  split at h <;> cases h
  nofun

theorem Memory.read_error {m : Memory} {sp : Space} {i : Int} {f : Fault} (h : m.read sp i = .error f) :
    f ≠ .truncatedCommand := by
  unfold Memory.read at h
  split at h
  · cases h; nofun
  · split at h <;> cases h; nofun

/-- A lookup and what is computed from the element found. -/
theorem lookup_error {v : F32} {m : Memory} {sp : Space} {α : Type} {g : Int → F32 → Except Fault α} {f : Fault}
    (hg : ∀ i t, g i t = .error f → f ≠ .truncatedCommand)
    (h : (floorIndex v >>= fun i => m.read sp i >>= g i) = .error f) : f ≠ .truncatedCommand := by
  rcases bind_eq_error.1 h with h | ⟨i, -, h⟩
  · exact floorIndex_error h
  · rcases bind_eq_error.1 h with h | ⟨t, -, h⟩
    · exact Memory.read_error h
    · exact hg i t h

theorem oscStep_error {c : Config} {m : Memory} {k : Slot} {mode : OscMode} {o : Osc} {x : F32} {f : Fault}
    (h : oscStep c m k mode o x = .error f) : f ≠ .truncatedCommand :=
  lookup_error (fun _ _ h => by cases h) h

theorem envValue_error {c : Config} {m : Memory} {k : Slot} {e : Env} {f : Fault} (h : envValue c m k e = .error f) :
    f ≠ .truncatedCommand := by
  unfold envValue at h
  split at h
  · rcases bind_eq_error.1 h with h | ⟨i, -, h⟩
    · exact floorIndex_error h
    · exact Memory.read_error h
  · exact lookup_error (fun _ _ h => by cases h) h
  · cases h
  · exact lookup_error (fun _ _ h => by cases h) h
  · cases h

theorem envApply_error {c : Config} {m : Memory} {k : Slot} {e : Env} {x : F32} {f : Fault}
    (h : envApply c m k e x = .error f) : f ≠ .truncatedCommand := by
  rcases bind_eq_error.1 h with h | ⟨_, -, h⟩
  · rcases bind_eq_error.1 h with h | ⟨_, -, h⟩
    · exact envValue_error h
    · cases h
  · cases h

theorem slotBlock_error {c : Config} {m : Memory} {k : Slot} {mode : OscMode} {r : SlotRegs} {xs : List F32} {f : Fault}
    (h : slotBlock c m k mode r xs = .error f) : f ≠ .truncatedCommand := by
  unfold slotBlock at h
  split at h
  · rcases bind_eq_error.1 h with h | ⟨⟨o, buf⟩, -, h⟩
    · exact runBlock_error (fun _ _ _ => oscStep_error) h
    · dsimp only at h
      split at h
      · rcases bind_eq_error.1 h with h | ⟨_, -, h⟩
        · exact runBlock_error (fun _ _ _ => envApply_error) h
        · cases h
      · cases h
  · cases h

theorem mixVoices_error {c : Config} {m : Memory} {mo b : F32} {vs : List (Option Voice)} {f : Fault}
    (h : mixVoices c m mo vs b = .error f) : f ≠ .truncatedCommand := by
  induction vs generalizing b with
  | nil => cases h
  | cons w vs ih =>
    cases w with
    | none =>
      rcases bind_eq_error.1 h with h | ⟨_, -, h⟩
      · exact ih h
      · cases h
    | some v =>
      rcases bind_eq_error.1 h with h | ⟨⟨v1, y⟩, -, h⟩
      · refine lookup_error (fun _ _ h => ?_) h
        rcases bind_eq_error.1 h with h | ⟨_, -, h⟩
        · exact Memory.read_error h
        · cases h
      · rcases bind_eq_error.1 h with h | ⟨_, -, h⟩
        · exact ih h
        · cases h

theorem vmSample_error {c : Config} {m : Memory} {st : VmRegs} {b : F32} {f : Fault}
    (h : vmSample c m st b = .error f) :
    f ≠ .truncatedCommand := by
  rcases bind_eq_error.1 h with h | ⟨⟨p, mo⟩, -, h⟩
  · exact lookup_error (fun _ _ h => by cases h) h
  · rcases bind_eq_error.1 h with h | ⟨_, -, h⟩
    · exact mixVoices_error h
    · cases h

theorem execProcess_error {s : State} {xs : List F32} {f : Fault} (h : execProcess xs s = .fault f) :
    f ≠ .truncatedCommand := by
  rcases execProcess_fault.1 h with h | ⟨_, _, -, h⟩
  · rcases routerBlock_error.1 h with h | ⟨_, _, -, h | ⟨_, _, -, h | ⟨_, _, -, h⟩⟩⟩ <;> exact slotBlock_error h
  · exact runBlock_error (fun _ _ _ => vmSample_error) h

/-- Every command but `PROCESS` completes. -/
theorem exec_total {i : Instr} (hp : ∀ xs, i ≠ .process xs) (s : State) : ∃ t, exec i s = .next t := by
  cases i with
  | process xs => exact absurd rfl (hp xs)
  | setalg id => unfold exec execSetalg; dsimp only; split <;> exact ⟨_, rfl⟩
  | _ => exact ⟨_, rfl⟩

theorem exec_fault {i : Instr} {s : State} {f : Fault} (h : exec i s = .fault f) : f ≠ .truncatedCommand := by
  by_cases hp : ∃ xs, i = .process xs
  · obtain ⟨xs, rfl⟩ := hp
    exact execProcess_error h
  · obtain ⟨t, ht⟩ := exec_total (fun xs hxs => hp ⟨xs, hxs⟩) s
    rw [h] at ht
    cases ht

/-! ### The end of the stream (10_state.md R30) -/

theorem step_truncated_iff {s : State} {h : Word} {rest : List Word} (hf : s.fetch = h :: rest) :
    step s = .fault .truncatedCommand ↔ rest.length < headerNops h := by
  cases ho : opOf (headerOp h) with
  | none =>
    rw [headerNops_of_opOf_none ho, step_reserved hf ho]
    exact ⟨nofun, fun hl => absurd hl (Nat.not_lt_zero _)⟩
  | some o =>
    rw [headerNops_of_opOf_some ho]
    rcases Nat.lt_or_ge rest.length (nops o (headerImm h)) with hl | hl
    · rw [step, hf, decode_cons_truncated ho hl]
      exact ⟨fun _ => hl, fun _ => rfl⟩
    · rw [step_of_command (hf ▸ decode_cons_command ho hl)]
      exact ⟨fun hx => absurd rfl (exec_fault hx), fun hlt => absurd hlt (Nat.not_lt.2 hl)⟩

theorem fetch_eq_nil_iff {s : State} : s.fetch = [] ↔ s.cmd.length ≤ s.cp := List.drop_eq_nil_iff

/-- Settles O10: the decoder is cut exactly where fewer words than the operand count are left, and no executed command
ends in the fault of a cut stream. -/
theorem streamEndFaultsOnlyInsideACommand : Obligations.StreamEndFaultsOnlyInsideACommand :=
  ⟨fun _ _ _ => step_truncated_iff, fun s hle => by rw [step, fetch_eq_nil_iff.2 hle]; rfl⟩

/-! ### Streams without `PROCESS` (60_exceptions.md R270, R279) -/

/-- A step at an encoded command that is no `PROCESS` completes, and what is left of the stream is read next. -/
theorem step_of_encoded {i : Instr} {rest : List Word} {s : State} (hwf : i.wellFormed = true)
    (hp : ∀ xs, i ≠ .process xs) (hf : s.fetch = encode i ++ rest) :
    ∃ u, step s = .next u ∧ u.cmd = s.cmd ∧ u.fetch = rest ∧ (s.cp ≤ s.cmd.length → u.cp ≤ u.cmd.length) := by
  have hd : decode s.fetch = .command i rest := hf ▸ decodeOfEncodedCommand i rest hwf
  obtain ⟨u, hu⟩ := exec_total hp s
  obtain ⟨-, hcmd, hcp, -⟩ := commandsKeepConstantsAndAppendOutputs i s u hu
  refine ⟨u, (step_of_command hd).trans hu, hcmd, fetch_of_exec hd hu, fun hle => ?_⟩
  have hlen : i.length ≤ s.fetch.length := (decode_consumes hd).2
  rw [State.fetch, List.length_drop] at hlen
  rw [hcmd, hcp]
  omega

theorem runsTo_end_of_encoded (prog : List Instr) (s : State)
    (hprog : ∀ i ∈ prog, i.wellFormed = true ∧ ∀ xs, i ≠ .process xs) (hf : s.fetch = prog.flatMap encode) :
    ∃ t, s.runsTo prog.length t ∧ t.cmd = s.cmd ∧ t.fetch = [] ∧ (s.cp ≤ s.cmd.length → t.cp = s.cmd.length) := by
  induction prog generalizing s with
  | nil =>
    have hnil : s.fetch = [] := hf
    exact ⟨s, rfl, rfl, hnil, fun hle => Nat.le_antisymm hle (fetch_eq_nil_iff.1 hnil)⟩
  | cons i prog ih =>
    obtain ⟨hwf, hp⟩ := hprog i List.mem_cons_self
    obtain ⟨u, hstep, hcmd, hfetch, hle⟩ := step_of_encoded hwf hp hf
    obtain ⟨t, hrun, hcmd', hnil, hend⟩ := ih u (fun j hj => hprog j (List.mem_cons_of_mem _ hj)) hfetch
    exact ⟨t, ⟨u, hstep, hrun⟩, hcmd'.trans hcmd, hnil, fun h => hcmd ▸ hend (hle h)⟩

/-- Settles O12, by induction on the commands of the stream. -/
theorem streamsWithoutProcessRunToTheirEnd : Obligations.StreamsWithoutProcessRunToTheirEnd := by
  intro s prog hprog hf
  obtain ⟨t, hrun, hrest⟩ := runsTo_end_of_encoded prog s hprog hf
  exact ⟨⟨t, hrun⟩, t, hrun, hrest⟩

end Sys2Proof.Machine
end

section
/-! PROOFS. Comparisons, conversions, the power function and the curves (00_scope.md R8 to R12, 40_table_generator.md),
and the envelope's gain (42_envelope.md R166 to R171, R189). -/

namespace Sys2Proof.Machine

/-! ### Comparisons, acceptance tests, `clamp01` (00_scope.md R8, R12) -/

theorem comparisons_of_isNaN {a b : F32} (h : isNaN a = true ∨ isNaN b = true) :
    flt a b = false ∧ fle a b = false ∧ fgt a b = false ∧ fge a b = false := by
  rcases h with h | h <;> simp [flt, fle, fgt, fge, h]

theorem comparisons_of_finite {a b : F32} (ha : isFinite a = true) (hb : isFinite b = true) :
    (flt a b = true ↔ units a < units b) ∧ (fle a b = true ↔ units a ≤ units b) ∧
    (fgt a b = true ↔ units b < units a) ∧ (fge a b = true ↔ units b ≤ units a) := by
  simp only [fgt, fge, flt_iff, fle_iff, not_isNaN_of_isFinite ha, not_isNaN_of_isFinite hb, true_and]

theorem clamp01_of_isNaN {v : F32} (h : isNaN v = true) : clamp01 v = v := by
  obtain ⟨hlt, -⟩ := comparisons_of_isNaN (b := F32.zero) (.inl h)
  obtain ⟨-, -, hgt, -⟩ := comparisons_of_isNaN (b := F32.one) (.inl h)
  simp only [clamp01, hlt, hgt, Bool.false_eq_true, if_false]

theorem clamp01_of_negative {v : F32} (h : flt v F32.zero = true) : clamp01 v = F32.zero := by
  rw [clamp01, if_pos h]

theorem clamp01_of_above_one {v : F32} (h : fgt v F32.one = true) : clamp01 v = F32.one := by
  obtain ⟨-, -, hone⟩ := (flt_iff _ _).1 h
  have hnot : ¬ flt v F32.zero = true := fun hlt => by
    obtain ⟨-, -, hzero⟩ := (flt_iff _ _).1 hlt
    rw [units_zero] at hzero
    rw [units_one] at hone
    omega
  rw [clamp01, if_neg hnot, if_pos h]

/-- Settles O21: on finite operands the order of the exact values, otherwise the branch of each test; constants
evaluated. -/
theorem comparisonsTestsAndClamp : Obligations.ComparisonsTestsAndClamp :=
  ⟨fun _ _ => comparisons_of_isNaN, fun _ _ => comparisons_of_finite, by decide, by decide,
    fun _ h => ⟨fgt_zero_of_isNaN h, inUnit_of_isNaN h⟩, by decide, by decide, by decide, by decide, by decide,
    by decide, fun _ => clamp01_of_isNaN, by decide, fun _ => clamp01_inUnit, fun _ => clamp01_of_inUnit,
    fun _ => clamp01_of_negative, fun _ => clamp01_of_above_one⟩

/-! ### `floor_idx` and `i2f` (00_scope.md R11) -/

theorem floorIndex_eq_ok_iff {v : F32} {i : Int} : floorIndex v = .ok i ↔ floorIdx v = some i := by
  unfold floorIndex
  cases floorIdx v <;> simp

theorem floorIdx_of_finite {v : F32} (h : isFinite v = true) : floorIdx v = some (units v / (unitsPerOne : Int)) := by
  rw [floorIdx, if_pos h]

/-- Settles O22: the floor is the integer quotient by `unitsPerOne`, and `i2f_exact` gives the exact value to floor. -/
theorem floorAndIntegerConversionAreExact : Obligations.FloorAndIntegerConversionAreExact := by
  refine ⟨fun v h => ?none, fun v h => ⟨_, floorIdx_of_finite h, ?_⟩, by decide, fun n hn => ?i2f⟩
  case none => rw [floorIdx, h, if_neg Bool.false_ne_true]
  case i2f =>
    obtain ⟨hf, hu, -⟩ := i2f_exact (n := n) hn
    exact ⟨hf, by rw [hu, Nat.cast_mul], floorIndex_eq_ok_iff.1 (floorIndex_i2f hn)⟩
  exact floorIndex_bounds (floorIndex_eq_ok_iff.2 (floorIdx_of_finite h))

/-! ### `NUM.pow` (00_scope.md R10) -/

/-- P-pow-1. -/
theorem numPow_one_right {x : F32} (hx : isFinite x = true) (h0 : fge x F32.zero = true) : numPow x F32.one = x := by
  have hq : (positive F32.one && isFinite F32.one) = true := by decide
  have hfree : (decide (F32.one = F32.one) && isFinite x && fge x F32.zero) = true := by simp [hx, h0]
  rw [numPow, if_pos hq, if_pos hfree]
  split_ifs with hz ho
  · exact hz.symm
  · exact ho.symm
  · rfl

/-- Settles O23: a lemma per property; the free power of the configuration is limited to the unit range. -/
theorem powHasItsNamedProperties : Obligations.PowHasItsNamedProperties := by
  refine fun q hq hf => ⟨numPow_zero_left hq hf, numPow_one_left hq hf, fun x h0 h1 => ?range,
    fun x => numPow_one_right⟩
  have hx : inUnit x = true := by rw [inUnit, fge, h0, h1, Bool.and_self]
  simpa only [inUnit, Bool.and_eq_true, fge] using numPow_inUnit hq hf hx

/-! ### The curves (40_table_generator.md R110 to R114) -/

theorem getElem?_build {size i : Nat} (f : Nat → F32) (h : i < size) : (build size f)[i]? = some (f i) := by
  rw [build, List.getElem?_map, List.getElem?_range h, Option.map_some]

theorem length_build (size : Nat) (f : Nat → F32) : (build size f).length = size := by
  rw [build, List.length_map, List.length_range]

theorem forall_mem_build {size : Nat} {f : Nat → F32} {P : F32 → Prop} (h : ∀ i, i < size → P (f i)) :
    ∀ v ∈ build size f, P v := by
  intro v hv
  obtain ⟨i, hi, rfl⟩ := List.mem_map.1 hv
  exact h i (List.mem_range.1 hi)

theorem slopeUpAt_inUnit {size i : Nat} {q : F32} (hs : size ≤ 16777216) (hq : positive q = true)
    (hf : isFinite q = true) (hi : i < size) : inUnit (slopeUpAt size q i) = true :=
  clamp01_inUnit (not_isNaN_of_isFinite
    (isFinite_of_signedUnit (signedUnit_of_inUnit (numPow_inUnit hq hf (xOf_inUnit hs hi)))))

theorem slopeDownAt_inUnit {size i : Nat} {q : F32} (hs : size ≤ 16777216) (hq : positive q = true)
    (hf : isFinite q = true) (hi : i < size) : inUnit (slopeDownAt size q i) = true :=
  clamp01_inUnit (one_sub_not_isNaN (numPow_inUnit hq hf (xOf_inUnit hs hi)))

/-- The abscissa lies in `[0, 1)`. -/
theorem xOf_range {size i : Nat} (hs : size ≤ 16777216) (hi : i < size) :
    fge (xOf i size) F32.zero = true ∧ flt (xOf i size) F32.one = true := by
  obtain ⟨hmag, hsign⟩ := xOf_below_one hs hi
  have hn : isNaN (xOf i size) = false := (isNaN_iff _).2 (hmag.trans (by decide))
  have hu : units (xOf i size) = unitsOfMag (magBits (xOf i size)) := units_of_sign fun _ => hsign
  have hlt : unitsOfMag (magBits (xOf i size)) < unitsOfMag oneMag := unitsOfMag_lt_iff.2 (hmag.trans_lt (by decide))
  rw [unitsOfMag_oneMag] at hlt
  rw [fge_iff, flt_iff, units_zero, units_one, hu]
  exact ⟨⟨hn, isNaN_zero, Int.natCast_nonneg _⟩, hn, isNaN_one, Int.ofNat_lt.2 hlt⟩

/-- Settles O24: elements by `getElem?_build`, the range by the power's and the complement's unit range. -/
theorem curvesFollowTheirFormulaInsideTheUnitRange : Obligations.CurvesFollowTheirFormulaInsideTheUnitRange := by
  intro size q h1 hs hq
  refine ⟨length_build .., length_build .., fun i hi => ?element, fun hf => ⟨?upFirst, ?downFirst,
    forall_mem_build fun i hi => slopeUpAt_inUnit hs hq hf hi,
    forall_mem_build fun i hi => slopeDownAt_inUnit hs hq hf hi⟩⟩
  case element =>
    obtain ⟨h0, h1⟩ := xOf_range hs hi
    exact ⟨h0, h1, getElem?_build _ hi, getElem?_build _ hi⟩
  case upFirst =>
    rw [slopeUp, getElem?_build _ h1, slopeUpAt, xOf_zero h1 hs, numPow_zero_left hq hf]
    decide
  case downFirst =>
    rw [slopeDown, getElem?_build _ h1, slopeDownAt, xOf_zero h1 hs, numPow_zero_left hq hf]
    decide +kernel

/-! ### The envelope's gain (42_envelope.md R166 to R171, R189) -/

theorem envValue_of_sustain {c : Config} {m : Memory} {k : Slot} {e : Env} (h : e.stage = .sustain) :
    envValue c m k e = .ok e.resultVolume := by
  simp only [envValue, h]

theorem envValue_of_silent {c : Config} {m : Memory} {k : Slot} {e : Env} (h : e.stage = .silent) :
    envValue c m k e = .ok F32.zero := by
  simp only [envValue, h]

theorem envValue_of_attack {c : Config} {m : Memory} {k : Slot} {e : Env} {i : Int} {v : F32} (h : e.stage = .attack)
    (hi : floorIndex e.phaseIndex = .ok i) (hv : m.read (.ea k) i = .ok v) : envValue c m k e = .ok v := by
  simp only [envValue, h, hi, hv, ok_bind]

theorem envValue_of_decay {c : Config} {m : Memory} {k : Slot} {e : Env} {i : Int} {v : F32} (h : e.stage = .decay)
    (hi : floorIndex e.phaseIndex = .ok i) (hv : m.read (.ed k) i = .ok v) :
    envValue c m k e = .ok (fadd v (fmul e.resultVolume (numPow (xOf i.toNat c.M) e.decayQ))) := by
  simp only [envValue, h, hi, hv, ok_bind]

theorem envValue_of_release {c : Config} {m : Memory} {k : Slot} {e : Env} {i : Int} {v : F32} (h : e.stage = .release)
    (hi : floorIndex e.phaseIndex = .ok i) (hv : m.read (.er k) i = .ok v) :
    envValue c m k e = .ok (fmul v e.resultVolume) := by
  simp only [envValue, h, hi, hv, ok_bind]

/-- Settles O36: the gain is read off stage by stage, and a bad index in a stage that reads a table is its fault. -/
theorem envelopeGainPerStage : Obligations.EnvelopeGainPerStage := by
  intro c m k e
  refine ⟨envValue_of_sustain, envValue_of_silent, fun idx hidx => ?gain, fun hw hM hs => ⟨fun hf => ?undefined,
    fun hf hr => ?outside⟩⟩
  case gain =>
    have hi := floorIndex_eq_ok_iff.2 hidx
    exact ⟨fun v hs => envValue_of_attack hs hi, fun v hs => envValue_of_decay hs hi,
      fun v hs => envValue_of_release hs hi⟩
  case undefined => exact envStep_fault (envValue_fault hw hM hs (.undefined hf))
  case outside => exact envStep_fault (envValue_fault hw hM hs (.outside hf hr))

/-- The lookup of a built curve at an index in range. -/
theorem lookup_build {size : Nat} {p : F32} {m : Memory} {sp : Space} {f : Nat → F32} (hs : size ≤ 16777216)
    (hp : inRange size p = true) (ht : m.table sp = build size f) :
    ∃ i : Nat, i < size ∧ floorIndex p = .ok (i : Int) ∧ m.read sp i = .ok (f i) := by
  obtain ⟨i, hi, hlt, v, hv, -⟩ := lookup_inRange (m := m) (sp := sp) hs hp (by rw [ht, length_build])
  have helem := Memory.getElem?_of_read hv
  rw [ht, getElem?_build f hlt, Option.some.injEq] at helem
  exact ⟨i, hlt, hi, helem ▸ hv⟩

/-- Settles O41: Attack and Release read a curve in `[0, 1]`, Decay adds the complement of the same power, and
Sustain and Silent give the volume and zero. -/
theorem envelopeGainStaysInTheUnitRange : Obligations.EnvelopeGainStaysInTheUnitRange := by
  intro c m k e _ hM ⟨hea, hed, her⟩ ha hd hr hfa hfd hfr hvol hp
  cases hs : e.stage with
  | attack =>
    obtain ⟨i, hlt, hi, hv⟩ := lookup_build hM hp hea
    exact ⟨_, envValue_of_attack hs hi hv, slopeUpAt_inUnit hM ha hfa hlt⟩
  | decay =>
    obtain ⟨i, hlt, hi, hv⟩ := lookup_build hM hp hed
    exact ⟨_, envValue_of_decay hs hi hv, decay_gain_inUnit (numPow_inUnit hd hfd (xOf_inUnit hM hlt)) hvol⟩
  | sustain => exact ⟨_, envValue_of_sustain hs, hvol⟩
  | release =>
    obtain ⟨i, hlt, hi, hv⟩ := lookup_build hM hp her
    exact ⟨_, envValue_of_release hs hi hv, fmul_inUnit (slopeDownAt_inUnit hM hr hfr hlt) hvol⟩
  | silent => exact ⟨_, envValue_of_silent hs, by decide⟩

end Sys2Proof.Machine
end

section
/-! PROOFS. Samples and blocks of an oscillator and of an envelope (41_oscillator.md R131 to R149, 42_envelope.md R165
to R173, R188; the source's scenarios of 95_test_vectors.md). -/

namespace Sys2Proof.Machine

/-! ### The oscillator's step (41_oscillator.md R131 to R142, R149) -/

/-- Settles O27: `oscStep_ok` with the increment and the sample of each mode. -/
theorem oscillatorStepInEachMode : Obligations.OscillatorStepInEachMode := by
  intro c m k o x e idx hidx he wrapped free modulated
  have hstep : ∀ mode, oscStep c m k mode o x =
      .ok ({ o with phase := advancePhase c.N o.phase (oscInc mode o x) }, fmul o.amplitude (oscSample mode e x)) :=
    fun mode => oscStep_ok.2 ⟨idx, e, floorIndex_eq_ok_iff.2 hidx, he, rfl, rfl⟩
  exact ⟨hstep _, hstep _, hstep _, hstep _, hstep _⟩

/-- Settles O29: both phases move by `advancePhase`, or stay where the envelope is frozen. -/
theorem phasesStayInsideTheirTables : Obligations.PhasesStayInsideTheirTables := by
  refine ⟨fun c m k mode o o' x y hN hp hi h => ?osc, fun c m k e hw hM hp hs => ?env⟩
  case osc =>
    obtain ⟨_, _, -, -, rfl, -⟩ := oscStep_ok.1 h
    have hphase := advancePhase_inRange (by omega) hp hi
    dsimp only
    exact ⟨hphase, rfl⟩
  case env =>
    obtain ⟨v, hv⟩ := envValue_total (k := k) hw hM hp
    exact ⟨_, v, envStep_ok.2 ⟨hv, rfl⟩, envAdvance_inRange hM hp hs⟩

theorem oscInc_congr {mode : OscMode} {o o' : Osc} (h : o.frequency = o'.frequency) (x : F32) :
    oscInc mode o x = oscInc mode o' x := by
  cases mode <;> simp only [oscInc, h]

/-- Settles O30: with the amplitude `1.0` the step yields the mode's own sample. -/
theorem amplitudeScalesTheWholeSample : Obligations.AmplitudeScalesTheWholeSample := by
  intro c m k mode o o1 x y1 a h hnan
  obtain ⟨idx, t, hidx, ht, rfl, rfl⟩ := oscStep_ok.1 h
  have hsample : isNaN (oscSample mode t x) = false := by
    by_contra hn
    rw [fmul_isNaN (Bool.not_eq_false _ ▸ hn)] at hnan
    cases hnan
  have hinc : oscInc mode { o with amplitude := F32.one } x = oscInc mode { o with amplitude := a } x :=
    oscInc_congr rfl x
  exact oscStep_ok.2 ⟨idx, t, hidx, ht, by rw [hinc], by rw [one_fmul hsample]⟩

/-! ### A block at frequency 1 (95_test_vectors.md S2) -/

/-- From a whole phase `a`, a block at frequency 1 reads the table in order from `a` on; at the table end the phase is
`+0.0` again. -/
theorem oscBlock_of_unit_frequency {c : Config} {m : Memory} {k : Slot} {mode : OscMode} (hw : m.wf c = true)
    (hN : c.N ≤ 16777216) (hm : mode = .modulatorNoInput ∨ mode = .carrierNoInput) (xs : List F32) (o : Osc) (a : Nat)
    (hf : o.frequency = F32.one) (ha : a < c.N) (hl : a + xs.length ≤ c.N) (hp : o.phase = i2f a) :
    oscBlock c m k mode o xs =
      .ok ({ o with phase := if a + xs.length = c.N then F32.zero else i2f (a + xs.length) },
        (((m.table (.wt k)).drop a).take xs.length).map (fun e => fmul o.amplitude e)) := by
  have hinc : ∀ (o : Osc) x, oscInc mode o x = o.frequency := by rcases hm with rfl | rfl <;> intros <;> rfl
  have hsample : ∀ t x, oscSample mode t x = t := by rcases hm with rfl | rfl <;> intros <;> rfl
  have htable := Memory.wt_length hw k
  induction xs generalizing o a with
  | nil =>
    rw [List.length_nil, Nat.add_zero, if_neg ha.ne, ← hp]
    rfl
  | cons x xs ih =>
    rw [List.length_cons] at hl ⊢
    have hlt : a < (m.table (.wt k)).length := htable.symm ▸ ha
    have hstep : oscStep c m k mode o x =
        .ok ({ o with phase := if a + 1 = c.N then F32.zero else i2f (a + 1) },
          fmul o.amplitude (m.table (.wt k))[a]) := by
      refine oscStep_ok.2 ⟨a, _, hp ▸ floorIndex_i2f (by omega), Memory.read_of_lt _ _ hlt, ?_, by rw [hsample]⟩
      rw [hinc, hf, hp, advancePhase_one hN ha]
    rw [List.drop_eq_getElem_cons hlt, List.take_succ_cons, List.map_cons]
    refine runBlock_cons_ok.2 ⟨_, _, _, hstep, ?_, rfl⟩
    by_cases hend : a + 1 = c.N
    · obtain rfl : xs = [] := List.length_eq_zero_iff.1 (by omega)
      simp [hend]
    · rw [if_neg hend]
      have hrest := ih { o with phase := i2f (a + 1) } (a + 1) hf (by omega) (by omega) rfl
      rw [show a + (xs.length + 1) = a + 1 + xs.length by omega]
      exact hrest

/-- Settles O31: `oscBlock_of_unit_frequency`, which is by induction on the samples, for `N` of them from phase 0. -/
theorem unitFrequencyReadsTheTableInOrder : Obligations.UnitFrequencyReadsTheTableInOrder := by
  intro c m k mode o xs hw h1 hN hm hp hf hl
  have hblock := oscBlock_of_unit_frequency (k := k) hw (by omega) hm xs o 0 hf h1 (by omega) (by rw [hp]; decide)
  rw [hblock, Nat.zero_add, if_pos hl, ← hp, List.drop_zero, hl, ← Memory.wt_length hw k, List.take_length]

/-! ### Frozen and looping envelopes (42_envelope.md R165, R188) -/

/-- Silent in Loop mode without the note flag advances its phase index and stays Silent. -/
theorem envAdvance_of_loop_silent (c : Config) {e : Env} (hm : e.mode = .loop) (hs : e.stage = .silent)
    (hn : e.noteOnFlag = false) :
    envAdvance c e = { e with phaseIndex := advancePhase c.M e.phaseIndex (stepOf c e .silent) } := by
  have hf := Env.not_frozen_of_loop hm
  have hnext : e.nextStage = e.stage := by rw [Env.nextStage_of_silent hs, hn, hs]; rfl
  rw [envAdvance_frame, envAdvance_phaseIndex, envAdvance_stage, hf, hnext, ite_self, ite_self, hs]
  simp only [Bool.false_eq_true, if_false]

theorem stepOf_any_phaseIndex (c : Config) (e : Env) (p : F32) (stage : Stage) :
    stepOf c { e with phaseIndex := p } stage = stepOf c e stage := by
  cases stage <;> rfl

theorem envBlock_of_loop_silent {c : Config} {m : Memory} {k : Slot} (xs : List F32) (e : Env) (hm : e.mode = .loop)
    (hs : e.stage = .silent) (hn : e.noteOnFlag = false) :
    envBlock c m k e xs =
      .ok ({ e with phaseIndex := xs.foldl (fun p _ => advancePhase c.M p (stepOf c e .silent)) e.phaseIndex },
        xs.map (fun x => fmul x F32.zero)) := by
  induction xs generalizing e with
  | nil => rfl
  | cons x xs ih =>
    have hadv := envAdvance_of_loop_silent c hm hs hn
    refine runBlock_cons_ok.2 ⟨_, _, _, envApply_ok.2 ⟨_, envValue_of_silent hs, rfl, rfl⟩, ?_, rfl⟩
    rw [hadv, List.foldl_cons]
    have hrest := ih { e with phaseIndex := advancePhase c.M e.phaseIndex (stepOf c e .silent) } hm hs hn
    simp only [stepOf_any_phaseIndex] at hrest
    exact hrest

/-- Settles O40: a frozen step is the same each time, and in Loop mode every step moves the index. -/
theorem frozenEnvelopeAppliesOneGain : Obligations.FrozenEnvelopeAppliesOneGain := by
  refine ⟨fun c m k e xs hm => ⟨fun hs => ?sustain, fun hs => ?silent⟩, fun c m k e e' v hm h => ?loop,
    fun c m k e xs => envBlock_of_loop_silent xs e⟩
  case sustain => exact envBlock_frozen (Env.frozen_iff.2 ⟨hm, .inl hs⟩) (envValue_of_sustain hs) xs
  case silent => exact envBlock_frozen (Env.frozen_iff.2 ⟨hm, .inr hs⟩) (envValue_of_silent hs) xs
  case loop =>
    obtain ⟨-, rfl⟩ := envStep_ok.1 h
    rw [envAdvance_phaseIndex, Env.not_frozen_of_loop hm, if_neg Bool.false_ne_true]

/-! ### Attack with a step of 1 (95_test_vectors.md S1) -/

/-- From a whole index the advance goes to the next one, or past the table end to Decay at `+0.0`. -/
theorem envAdvance_of_unit_attack {c : Config} {e : Env} {p : Nat} (hM : c.M ≤ 16777216) (hs : e.stage = .attack)
    (hstep : stepOf c e .attack = F32.one) (hp : e.phaseIndex = i2f p) (hlt : p < c.M) :
    envAdvance c e =
      if p + 1 = c.M then { e with phaseIndex := F32.zero, stage := .decay }
      else { e with phaseIndex := i2f (p + 1) } := by
  have hf : e.frozen = false := by
    rw [Bool.eq_false_iff, Ne, Env.frozen_iff, hs]
    nofun
  have hsum : fadd e.phaseIndex (stepOf c e e.stage) = i2f (p + 1) := by
    rw [hs, hstep, hp, i2f_add_one (by omega)]
  have hge : fge (i2f (p + 1)) (i2f c.M) = decide (c.M ≤ p + 1) := fge_i2f (by omega) hM
  split_ifs with hend
  · rw [envAdvance_of_wrap hf (by rw [hsum, hge, decide_eq_true hend.ge]), hsum, hend, i2f_fsub_self hM,
      Env.nextStage_of_attack hs]
  · rw [envAdvance_of_no_wrap hf (by rw [hsum, hge, decide_eq_false (by omega)]), hsum]

/-- Settles O42, by induction on the samples. -/
theorem attackAtUnitStepUsesUpItsCurve : Obligations.AttackAtUnitStepUsesUpItsCurve := by
  intro c m k e p xs hw hM hs hstep hp hlt hl
  have htable : (m.table (.ea k)).length = c.M := (Memory.wf_iff c m).1 hw (.ea k)
  induction xs generalizing e p with
  | nil =>
    rw [List.length_nil, Nat.add_zero, if_neg hlt.ne, ← hp]
    rfl
  | cons x xs ih =>
    rw [List.length_cons] at hl ⊢
    have hlt' : p < (m.table (.ea k)).length := htable.symm ▸ hlt
    have hgain : envValue c m k e = .ok (m.table (.ea k))[p] :=
      envValue_of_attack hs (hp ▸ floorIndex_i2f (by omega)) (Memory.read_of_lt _ _ hlt')
    rw [List.drop_eq_getElem_cons hlt', List.zipWith_cons_cons]
    refine runBlock_cons_ok.2 ⟨_, _, _, envApply_ok.2 ⟨_, hgain, rfl, rfl⟩, ?_, rfl⟩
    rw [envAdvance_of_unit_attack hM hs hstep hp hlt]
    by_cases hend : p + 1 = c.M
    · obtain rfl : xs = [] := List.length_eq_zero_iff.1 (by omega)
      simp [hend]
    · rw [if_neg hend, show p + (xs.length + 1) = p + 1 + xs.length by omega]
      exact ih { e with phaseIndex := i2f (p + 1) } (p + 1) hs ((stepOf_any_phaseIndex c e _ _).trans hstep) rfl
        (by omega) (by omega)

end Sys2Proof.Machine
end

section
/-! PROOFS. The invariant of the machine (10_state.md R21 to R28, 20_memory.md R60, R64, 40_table_generator.md R116),
and the states that reset and `construct` give (10_state.md R33, 70_reset_and_hazards.md R290, R291). -/

namespace Sys2Proof.Machine

/-! ### The voices of a block -/

theorem recycle_eq_some {c : Config} {v w : Voice} (h : recycle c v = some w) :
    v.envIdx + 1 < c.C ∧ w = { v with envIdx := v.envIdx + 1 } := by
  unfold recycle at h
  split_ifs at h with hc
  cases h
  exact ⟨by omega, rfl⟩

/-- A voice that is still occupied after its step: its phase moved and its index advanced by one. -/
theorem voiceStep_some {c : Config} {m : Memory} {mo y : F32} {v w : Voice}
    (h : voiceStep c m mo v = .ok (some w, y)) :
    v.envIdx + 1 < c.C ∧ w = { v with
      phase := advancePhase c.N v.phase (fmul (fadd F32.one mo) v.frequency), envIdx := v.envIdx + 1 } := by
  obtain ⟨_, _, _, -, -, -, hw, -⟩ := voiceStep_ok.1 h
  exact recycle_eq_some hw.symm

/-- An occupied voice of the pool after a mix is one that stepped. -/
theorem exists_of_mem_mixVoices {c : Config} {m : Memory} {mo b b' : F32} {vs vs' : List (Option Voice)} {w : Voice}
    (h : mixVoices c m mo vs b = .ok (vs', b')) (hw : some w ∈ vs') :
    ∃ v y, some v ∈ vs ∧ voiceStep c m mo v = .ok (some w, y) := by
  induction vs generalizing b vs' with
  | nil => cases h; cases hw
  | cons u vs ih =>
    cases u with
    | none =>
      obtain ⟨ws, hrest, rfl⟩ := mixVoices_none_ok.1 h
      obtain ⟨v, y, hv, hstep⟩ := ih hrest ((List.mem_cons.1 hw).resolve_left nofun)
      exact ⟨v, y, List.mem_cons_of_mem _ hv, hstep⟩
    | some u =>
      obtain ⟨v1, y1, ws, hfirst, hrest, rfl⟩ := mixVoices_some_ok.1 h
      rcases List.mem_cons.1 hw with rfl | hw
      · exact ⟨u, y1, List.mem_cons_self, hfirst⟩
      · obtain ⟨v, y, hv, hstep⟩ := ih hrest hw
        exact ⟨v, y, List.mem_cons_of_mem _ hv, hstep⟩

theorem Voice.legal_iff {c : Config} {v : Voice} : v.legal c = true ↔ positive v.frequency = true ∧ v.envIdx < c.C := by
  simp only [Voice.legal, Bool.and_eq_true, decide_eq_true_eq]

theorem voiceStep_keeps_legal {c : Config} {m : Memory} {mo y : F32} {v w : Voice} (hv : v.legal c = true)
    (h : voiceStep c m mo v = .ok (some w, y)) : w.legal c = true := by
  obtain ⟨hidx, rfl⟩ := voiceStep_some h
  exact Voice.legal_iff.2 ⟨(Voice.legal_iff.1 hv).1, hidx⟩

theorem mixVoices_length {c : Config} {m : Memory} {mo b b' : F32} {vs vs' : List (Option Voice)}
    (h : mixVoices c m mo vs b = .ok (vs', b')) : vs'.length = vs.length := (mixVoices_get h).1

/-- A pool of `n` voices, the occupied ones legal (10_state.md R28, 43_voice_manager.md R200). -/
def PoolLegal (c : Config) (n : Nat) (voices : List (Option Voice)) : Prop :=
  voices.length = n ∧ ∀ v, some v ∈ voices → v.legal c = true

theorem vmBlock_keeps_pool {c : Config} {m : Memory} {n : Nat} {st st' : VmRegs} {xs ys : List F32}
    (hst : PoolLegal c n st.voices) (h : vmBlock c m st xs = .ok (st', ys)) : PoolLegal c n st'.voices := by
  refine runBlock_invariant (P := fun st => PoolLegal c n st.voices) ?_ hst h
  rintro st x st1 y ⟨hlen, hlegal⟩ hs
  obtain ⟨p, mo, vs, -, hmix, rfl⟩ := vmSample_ok.1 hs
  refine ⟨(mixVoices_length hmix).trans hlen, fun w hw => ?_⟩
  obtain ⟨v, z, hv, hstep⟩ := exists_of_mem_mixVoices hmix hw
  exact voiceStep_keeps_legal (hlegal v hv) hstep

theorem allocate_keeps_pool {c : Config} {n : Nat} {voices : List (Option Voice)} {f v : F32} (hC : 1 ≤ c.C)
    (hf : positive f = true) (h : PoolLegal c n voices) : PoolLegal c n (allocate (newVoice f v) voices) := by
  obtain ⟨hlen, hlegal⟩ := h
  refine ⟨length_allocate.trans hlen, fun w hw => ?_⟩
  rcases mem_allocate hw with rfl | hw
  · exact Voice.legal_iff.2 ⟨hf, hC⟩
  · exact hlegal w hw

theorem voicesAfterNoteon_keeps_pool {c : Config} {n : Nat} {voices : List (Option Voice)} {targets : BitVec 16}
    {f v : F32} (hC : 1 ≤ c.C) (h : PoolLegal c n voices) : PoolLegal c n (voicesAfterNoteon targets f v voices) := by
  by_cases hr : targets.getLsbD 1 = false ∨ positive f = false
  · rw [voicesAfterNoteon_of_rejected hr]
    exact h
  · rw [not_or, Bool.not_eq_false, Bool.not_eq_false] at hr
    rw [voicesAfterNoteon_of_accepted hr.1 hr.2]
    exact allocate_keeps_pool hC hr.2 h

theorem exec_keeps_pool {i : Instr} {s t : State} {n : Nat} (hC : 1 ≤ s.cfg.C) (hs : PoolLegal s.cfg n s.voices)
    (h : exec i s = .next t) : PoolLegal s.cfg n t.voices := by
  by_cases hp : ∃ xs, i = .process xs
  · obtain ⟨xs, rfl⟩ := hp
    obtain ⟨b, hb, rfl⟩ := execProcess_next.1 h
    obtain ⟨buf, -, hvoices⟩ := processBlock_ok.1 hb
    exact vmBlock_keeps_pool hs hvoices
  · by_cases hn : ∃ m f v, i = .noteon m f v
    · obtain ⟨m, f, v, rfl⟩ := hn
      rw [exec_noteon] at h
      cases h
      exact voicesAfterNoteon_keeps_pool hC hs
    · obtain ⟨-, -, -, -, hvoices⟩ := exec_frame h fun xs hxs => hp ⟨xs, hxs⟩
      rw [hvoices fun m f v hi => hn ⟨m, f, v, hi⟩]
      exact hs

/-! ### The slots -/

/-- The acceptance tests keep the registers of a slot legal. -/
theorem SlotWrite.legal {c : Config} {mf : F32} {i : Instr} {r r' : SlotRegs} (h : SlotWrite c mf i r r')
    (hi : ∀ f, i ≠ .setmfreq f) (hr : r.legal mf = true) : r'.legal mf = true := by
  rw [SlotRegs.legal_iff] at hr ⊢
  obtain ⟨hamp, hfac, hfreq, hat, hdt, hsl, hrt, haq, hdq, hrq, hst, hlt⟩ := hr
  cases h with
  | process | noteon | noteoff | setmode => exact ⟨hamp, hfac, hfreq, hat, hdt, hsl, hrt, haq, hdq, hrq, hst, hlt⟩
  | toggle b n r kind =>
    rw [SlotRegs.toggle_osc, SlotRegs.toggle_env]
    exact ⟨hamp, hfac, hfreq, hat, hdt, hsl, hrt, haq, hdq, hrq, hst, hlt⟩
  | setfactor b f r hf => exact ⟨hamp, hf, rfl, hat, hdt, hsl, hrt, haq, hdq, hrq, hst, hlt⟩
  | setamp b a r =>
    exact ⟨accept_keeps (P := (inUnit · = true)) hamp id, hfac, hfreq, hat, hdt, hsl, hrt, haq, hdq, hrq, hst, hlt⟩
  | setmfreq f r hf => exact absurd rfl (hi f)
  | setenv b a d su rel r =>
    have keeps {x y : F32} (hy : inUnit y = true) : inUnit (accept (inUnit x) x y) = true :=
      accept_keeps (P := (inUnit · = true)) hy id
    exact ⟨hamp, hfac, hfreq, keeps hat, keeps hdt, keeps hsl, keeps hrt, haq, hdq, hrq, hst, hlt⟩
  | setq b qa qd qr r =>
    have keeps {x y : F32} (hy : positive y = true) : positive (accept (positive x) x y) = true :=
      accept_keeps (P := (positive · = true)) hy id
    exact ⟨hamp, hfac, hfreq, hat, hdt, hsl, hrt, keeps haq, keeps hdq, keeps hrq, hst, hlt⟩
  | setsil b x y r =>
    have keeps {x y : F32} (hy : positive y = true) : positive (accept (positive x) x y) = true :=
      accept_keeps (P := (positive · = true)) hy id
    exact ⟨hamp, hfac, hfreq, hat, hdt, hsl, hrt, haq, hdq, hrq, keeps hst, keeps hlt⟩

/-- An accepted master frequency takes the place of the old one in every slot's product (44_router.md R246). -/
theorem followMaster_legal {f mf : F32} {r : SlotRegs} (hr : r.legal mf = true) :
    (followMaster f r).legal f = true := by
  rw [SlotRegs.legal_iff] at hr ⊢
  obtain ⟨hamp, hfac, -, henv⟩ := hr
  exact ⟨hamp, hfac, rfl, henv⟩

theorem setMasterFrequency_keeps {f : F32} {s : State} (hf : positive s.masterFrequency = true)
    (hr : ∀ k, (s.slots.get k).legal s.masterFrequency = true) :
    positive (setMasterFrequency f s).masterFrequency = true ∧
      ∀ k, ((setMasterFrequency f s).slots.get k).legal (setMasterFrequency f s).masterFrequency = true := by
  cases hp : positive f with
  | false => rw [setMasterFrequency_of_not_positive hp]; exact ⟨hf, hr⟩
  | true =>
    rw [setMasterFrequency_of_positive hp]
    exact ⟨hp, fun k => by rw [Slots.get_map]; exact followMaster_legal (hr k)⟩

theorem exec_keeps_slots {i : Instr} {s t : State} (hf : positive s.masterFrequency = true)
    (hr : ∀ k, (s.slots.get k).legal s.masterFrequency = true) (h : exec i s = .next t) :
    positive t.masterFrequency = true ∧ ∀ k, (t.slots.get k).legal t.masterFrequency = true := by
  by_cases hm : ∃ f, i = .setmfreq f
  · obtain ⟨f, rfl⟩ := hm
    cases h
    exact setMasterFrequency_keeps hf hr
  · have hi : ∀ f, i ≠ .setmfreq f := fun f hf => hm ⟨f, hf⟩
    obtain ⟨hfreq, -⟩ := eachRegisterIsWrittenByItsCommandsOnly i s t h
    rw [hfreq hi]
    refine ⟨hf, fun k => ?_⟩
    rcases exec_slot_cases h k with hk | hk
    · rw [hk]; exact hr k
    · exact hk.legal hi (hr k)

theorem exec_keeps_masterAmplitude {i : Instr} {s t : State} (ha : inUnit s.masterAmplitude = true)
    (h : exec i s = .next t) : inUnit t.masterAmplitude = true := by
  by_cases hm : ∃ a, i = .setmamp a
  · obtain ⟨a, rfl⟩ := hm
    cases h
    exact accept_keeps (P := (inUnit · = true)) ha id
  · obtain ⟨-, hamp, -⟩ := eachRegisterIsWrittenByItsCommandsOnly i s t h
    rw [hamp fun a ha => hm ⟨a, ha⟩]
    exact ha

/-! ### The tables -/

theorem exec_keeps_memory {i : Instr} {s t : State} (hm : s.mem.wf s.cfg = true) (h : exec i s = .next t) :
    t.mem.wf s.cfg = true := by
  rcases exec_mem_cases h with ht | ⟨_, _, _, _, k, -, -, ht⟩ | ⟨_, xs, k, -, -, hl, ht⟩ <;> rw [ht]
  · exact hm
  · exact Memory.wf_rebuildCurves k _ hm
  · exact Memory.wf_replace hm hl

theorem exec_setq_other {b : BitVec 8} {qa qd qr : F32} {k : Slot} {s t : State}
    (h : exec (.setq b qa qd qr) s = .next t) (hk : slotOf b ≠ some k) : t.slots.get k = s.slots.get k := by
  cases hb : slotOf b with
  | none => rw [exec_of_rejected rfl hb] at h; cases h; rfl
  | some j =>
    obtain rfl := exec_setq_next h hb
    exact setQ_other (fun hkj : k = j => hk (hkj ▸ hb)) qa qd qr s

/-- The curves follow the Q registers: `SETQ` rebuilds those of its slot, and nothing else writes either. -/
theorem exec_keeps_curves {i : Instr} {s t : State} {k : Slot} (hc : curvesMatch s.cfg s.mem k (s.slots.get k).env)
    (h : exec i s = .next t) : curvesMatch s.cfg t.mem k (t.slots.get k).env := by
  by_cases hq : ∃ b qa qd qr, i = .setq b qa qd qr ∧ slotOf b = some k
  · obtain ⟨b, qa, qd, qr, rfl, hb⟩ := hq
    exact exec_setq_curves h hb
  · have hother : ∀ b qa qd qr, i = .setq b qa qd qr → slotOf b ≠ some k :=
      fun b qa qd qr hi hb => hq ⟨b, qa, qd, qr, hi, hb⟩
    have hregs : (t.slots.get k).env.attackQ = (s.slots.get k).env.attackQ ∧
        (t.slots.get k).env.decayQ = (s.slots.get k).env.decayQ ∧
        (t.slots.get k).env.releaseQ = (s.slots.get k).env.releaseQ := by
      by_cases hi : ∃ b qa qd qr, i = .setq b qa qd qr
      · obtain ⟨b, qa, qd, qr, rfl⟩ := hi
        rw [exec_setq_other h (hother b qa qd qr rfl)]
        exact ⟨rfl, rfl, rfl⟩
      · obtain ⟨-, -, -, -, -, -, hslots⟩ := eachRegisterIsWrittenByItsCommandsOnly i s t h
        obtain ⟨-, -, -, -, -, -, hregs, -⟩ := hslots k
        exact hregs fun b qa qd qr he => hi ⟨b, qa, qd, qr, he⟩
    obtain ⟨-, -, htable⟩ := exec_table h
    obtain ⟨hea, hed, her⟩ := (htable k).1 hother
    obtain ⟨haq, hdq, hrq⟩ := hregs
    rw [curvesMatch, hea, hed, her, haq, hdq, hrq]
    exact hc

/-! ### The invariant -/

theorem exec_keeps_legal {i : Instr} {s t : State} (hs : s.Legal) (h : exec i s = .next t) : t.Legal := by
  obtain ⟨hcfg, -⟩ := commandsKeepConstantsAndAppendOutputs i s t h
  obtain ⟨-, -, -, hC⟩ := Config.valid_sizes hs.config
  obtain ⟨hsine, hvmcurve, -⟩ := exec_table h
  obtain ⟨hfreq, hslots⟩ := exec_keeps_slots hs.masterFrequency hs.slots h
  obtain ⟨hpool, hvoices⟩ := exec_keeps_pool hC ⟨hs.pool, hs.voices⟩ h
  exact {
    config := hcfg ▸ hs.config
    memory := hcfg ▸ exec_keeps_memory hs.memory h
    sine := by rw [hsine, hcfg]; exact hs.sine
    vmcurve := by rw [hvmcurve, hcfg]; exact hs.vmcurve
    curves := fun k => hcfg ▸ exec_keeps_curves (hs.curves k) h
    masterFrequency := hfreq
    masterAmplitude := exec_keeps_masterAmplitude hs.masterAmplitude h
    slots := hslots
    pool := by rw [hpool, hcfg]
    voices := hcfg ▸ hvoices }

theorem Legal.skipReserved {s : State} (hs : s.Legal) : s.skipReserved.Legal :=
  ⟨hs.config, hs.memory, hs.sine, hs.vmcurve, hs.curves, hs.masterFrequency, hs.masterAmplitude, hs.slots, hs.pool,
    hs.voices⟩

/-- Settles O16: a step executes a command, which keeps each part of the invariant, skips a word, or waits. -/
theorem everyStepKeepsTheStateLegal : Obligations.EveryStepKeepsTheStateLegal := by
  intro s t hs h
  unfold step at h
  split at h
  · exact exec_keeps_legal hs h
  · cases h; exact Legal.skipReserved hs
  · cases h
  · cases h; exact hs

/-! ### Reset (10_state.md R33) -/

/-- Settles O19: each value is read off `State.resetWith` and its parts. -/
theorem resetValuesOfEveryRegister : Obligations.ResetValuesOfEveryRegister := by
  intro c hc
  simp [State.resetWith, SlotRegs.reset, Env.reset, Memory.reset, Memory.table, sineTable, hc, ResetValues.decided]

theorem inUnit_one : inUnit F32.one = true := by decide

theorem inUnit_half : inUnit F32.half = true := by decide

theorem positive_one : positive F32.one = true := by decide

theorem positive_half : positive F32.half = true := by decide

theorem SlotRegs.reset_legal {c : Config} (hc : c.resetValues = ResetValues.decided) :
    (SlotRegs.reset c).legal c.masterFreqReset = true := by
  rw [SlotRegs.legal_iff, SlotRegs.reset, hc]
  exact ⟨inUnit_one, positive_one, rfl, inUnit_half, inUnit_half, inUnit_half, inUnit_half, positive_one, positive_one,
    positive_one, positive_half, positive_half⟩

theorem State.resetWith_legal {c : Config} (hv : c.valid = true) (hc : c.resetValues = ResetValues.decided) :
    (State.resetWith c).Legal where
  config := hv
  memory := Memory.wf_reset hv
  sine := rfl
  vmcurve := rfl
  curves k := by simp [curvesMatch, State.resetWith, Memory.reset, Memory.table, SlotRegs.reset, Env.reset]
  masterFrequency := (Config.valid_values hv).1
  masterAmplitude := by rw [State.resetWith, hc]; exact inUnit_one
  slots k := by rw [State.resetWith, Slots.get_all]; exact SlotRegs.reset_legal hc
  pool := List.length_replicate
  voices v hv := by cases List.eq_of_mem_replicate hv

/-- Settles O17: the model's reset configuration is valid and has the decided values. -/
theorem resetStateIsLegal : Obligations.ResetStateIsLegal :=
  State.resetWith_legal (by decide) rfl

theorem inRange_zero {n : Nat} (h1 : 1 ≤ n) (hn : n ≤ 16777216) : inRange n F32.zero = true := by
  have hpos : 0 < n * unitsPerOne := Nat.mul_pos h1 unitsPerOne_pos
  rw [inRange_iff hn, units_zero]
  exact ⟨by decide, Int.le_refl 0, by exact_mod_cast hpos⟩

theorem State.resetWith_ready {c : Config} (hv : c.valid = true) (hc : c.resetValues = ResetValues.decided)
    (hf : inRange c.N c.vmModFreq = true) : (State.resetWith c).BlockReady where
  slots k := by
    have hoff : ((State.resetWith c).slots.get k).oscActive = false := by
      rw [State.resetWith, Slots.get_all, SlotRegs.reset, hc]; rfl
    constructor <;> intro hon <;> rw [hoff] at hon <;> cases hon
  vm :=
    { phase := by
        obtain ⟨⟨h1, hN⟩, -⟩ := Config.valid_sizes hv
        rw [State.resetWith, hc]
        exact inRange_zero h1 (hN.trans (by decide))
      increment := hf
      voices := fun v hv => by cases List.eq_of_mem_replicate hv }

/-! ### `construct` (70_reset_and_hazards.md R291) -/

end Sys2Proof.Machine

namespace Sys2Proof

open Sys2Proof.Machine

theorem scaleValid_iff {v : F32} : scaleValid v = true ↔ isNaN v = false ∧ units v ≠ 0 := by
  rw [scaleValid, Bool.and_eq_true, Bool.not_eq_true', bne_iff_ne, Ne, ← units_eq_zero_iff]

theorem StageScale.valid_iff {c : Config} :
    c.stageScale.valid = true ↔ ∀ stage, isNaN (stageScaleOf c stage) = false ∧ units (stageScaleOf c stage) ≠ 0 := by
  simp only [StageScale.valid, Bool.and_eq_true, scaleValid_iff]
  constructor
  · rintro ⟨⟨⟨⟨ha, hd⟩, hs⟩, hr⟩, hl⟩ stage
    cases stage
    exacts [ha, hd, hs, hr, hl]
  · intro h
    exact ⟨⟨⟨⟨h .attack, h .decay⟩, h .sustain⟩, h .release⟩, h .silent⟩

/-- The conditions of R291 and the two named properties of the sine function. -/
theorem Config.valid_iff {c : Config} :
    c.valid = true ↔ (1 ≤ c.N ∧ c.N ≤ 65535) ∧ (1 ≤ c.M ∧ c.M ≤ 2 ^ 24) ∧ 1 ≤ c.pool ∧ 1 ≤ c.C ∧
      fgt c.masterFreqReset F32.zero = true ∧
      (∀ stage, isNaN (stageScaleOf c stage) = false ∧ units (stageScaleOf c stage) ≠ 0) ∧
      isFinite c.adsrMax = true ∧ isFinite c.vmModFreq = true ∧ isFinite c.vmModAmp = true ∧
      (∀ v ∈ c.vmCurve, isFinite v = true) ∧ c.sinTab.length = c.N ∧ c.sinTab.head? = some F32.zero ∧
      (∀ v ∈ c.sinTab, fle F32.negOne v = true ∧ fle v F32.one = true) := by
  rw [← StageScale.valid_iff]
  simp only [Config.valid, sinTabValid, signedUnit, positive, Bool.and_eq_true, decide_eq_true_eq, List.all_eq_true,
    and_assoc]

theorem Machine.construct_refused_iff {c : Config} :
    Machine.construct c = .refused .invalidConfiguration ↔ ¬ c.valid = true := by
  unfold Machine.construct
  split_ifs with h <;> simp [h]

/-- Settles O18: `Config.valid_iff` spells out the validity that `construct` tests; legality and readiness of reset
follow from it. -/
theorem constructAdmitsExactlyTheLegalConfigurations : Obligations.ConstructAdmitsExactlyTheLegalConfigurations := by
  refine ⟨fun c => Machine.construct_refused_iff.trans (not_congr Config.valid_iff), fun c hv hc =>
    ⟨?_, State.resetWith_legal hv hc, State.resetWith_ready hv hc⟩⟩
  rw [Machine.construct, if_pos hv]

end Sys2Proof
end

section
/-! PROOFS. The Voice Manager's samples and blocks (43_voice_manager.md R205 to R208). -/

namespace Sys2Proof.Machine

/-! ### The mix (R208) -/

/-- The mix adds the contribution of each occupied voice, in index order. -/
theorem mixVoices_sum {c : Config} {m : Memory} {mo b b' : F32} {vs vs' : List (Option Voice)}
    (h : mixVoices c m mo vs b = .ok (vs', b')) :
    ∃ ys : List (Option F32), ys.length = vs.length ∧ b' = (ys.filterMap id).foldl fadd b ∧
      ∀ j : Nat,
        (vs[j]? = some none → vs'[j]? = some none ∧ ys[j]? = some none) ∧
        (∀ v, vs[j]? = some (some v) → ∃ v' y, voiceStep c m mo v = .ok (v', y) ∧ vs'[j]? = some v' ∧
          ys[j]? = some (some y)) := by
  induction vs generalizing b vs' with
  | nil =>
    cases h
    exact ⟨[], rfl, rfl, fun j => ⟨nofun, nofun⟩⟩
  | cons w vs ih =>
    cases w with
    | none =>
      obtain ⟨ws, hrest, rfl⟩ := mixVoices_none_ok.1 h
      obtain ⟨ys, hlen, rfl, hget⟩ := ih hrest
      refine ⟨none :: ys, congrArg (· + 1) hlen, rfl, fun j => ?_⟩
      cases j with
      | zero => exact ⟨fun _ => ⟨rfl, rfl⟩, nofun⟩
      | succ j => exact hget j
    | some v =>
      obtain ⟨v1, y, ws, hfirst, hrest, rfl⟩ := mixVoices_some_ok.1 h
      obtain ⟨ys, hlen, rfl, hget⟩ := ih hrest
      refine ⟨some y :: ys, congrArg (· + 1) hlen, rfl, fun j => ?_⟩
      cases j with
      | zero =>
        refine ⟨nofun, fun u hu => ?_⟩
        obtain rfl : v = u := by simpa using hu
        exact ⟨v1, y, hfirst, rfl, rfl⟩
      | succ j => exact hget j

/-- Settles O48: the steps and the mix by what `voiceStep_ok` and `mixVoices_sum` say, the faults by `BadPhase`. -/
theorem voiceStepsAndTheirMix : Obligations.VoiceStepsAndTheirMix := by
  refine ⟨fun c m p t idx hidx ht => ?vmod, fun c m mo t g v idx hidx ht hg => ?voice,
    fun c m mo b b' vs vs' h => ⟨mixVoices_length h, mixVoices_sum h⟩,
    fun c m p mo v hw hN => ?faults⟩
  case vmod => exact vmodStep_ok.2 ⟨idx, t, floorIndex_eq_ok_iff.2 hidx, ht, rfl, rfl⟩
  case voice => exact voiceStep_ok.2 ⟨idx, t, g, floorIndex_eq_ok_iff.2 hidx, ht, hg, rfl, rfl⟩
  case faults =>
    have hN' : c.N ≤ 16777216 := by omega
    exact ⟨fun hf => vmodStep_fault hw hN' (.undefined hf), fun hf hr => vmodStep_fault hw hN' (.outside hf hr),
      fun hf => voiceStep_fault hw hN' (.undefined hf), fun hf hr => voiceStep_fault hw hN' (.outside hf hr)⟩

/-! ### How long a voice sounds (R207) -/

theorem vmBlock_free {c : Config} {m : Memory} {st st' : VmRegs} {xs ys : List F32} {j : Nat}
    (h : vmBlock c m st xs = .ok (st', ys)) (hj : st.voices[j]? = some none) : st'.voices[j]? = some none := by
  refine runBlock_invariant (P := fun st => st.voices[j]? = some none) ?_ hj h
  intro st x st1 y hfree hs
  obtain ⟨p, mo, vs, -, hmix, rfl⟩ := vmSample_ok.1 hs
  exact ((mixVoices_get hmix).2 j).1 hfree

theorem vmBlock_voice {c : Config} {m : Memory} {st st' : VmRegs} {xs ys : List F32} {j : Nat} {v : Voice}
    (h : vmBlock c m st xs = .ok (st', ys)) (hj : st.voices[j]? = some (some v)) (hv : v.envIdx < c.C) :
    (v.envIdx + xs.length < c.C →
      ∃ p, st'.voices[j]? = some (some { v with phase := p, envIdx := v.envIdx + xs.length })) ∧
    (c.C ≤ v.envIdx + xs.length → st'.voices[j]? = some none) := by
  induction xs generalizing st v ys with
  | nil =>
    cases h
    exact ⟨fun _ => ⟨v.phase, hj⟩, fun hle => absurd hv (Nat.not_lt.2 hle)⟩
  | cons x xs ih =>
    obtain ⟨st1, y, zs, hs, hrest, rfl⟩ := runBlock_cons_ok.1 h
    obtain ⟨p, mo, vs, -, hmix, rfl⟩ := vmSample_ok.1 hs
    obtain ⟨v1, z, hstep, hj1⟩ := ((mixVoices_get hmix).2 j).2 v hj
    obtain ⟨_, _, _, -, -, -, hv1, -⟩ := voiceStep_ok.1 hstep
    rw [List.length_cons]
    cases v1 with
    | none =>
      have hend : c.C ≤ v.envIdx + 1 := by
        by_contra hlt
        rw [recycle, if_neg hlt] at hv1
        cases hv1
      exact ⟨fun hlt => by omega, fun _ => vmBlock_free hrest hj1⟩
    | some w =>
      obtain ⟨hidx, rfl⟩ := recycle_eq_some hv1.symm
      obtain ⟨hsounds, hends⟩ := ih hrest hj1 hidx
      rw [show v.envIdx + (xs.length + 1) = v.envIdx + 1 + xs.length by omega]
      exact ⟨hsounds, hends⟩

/-- Settles O49: the voices of a block are stepped once for each of its samples. -/
theorem voiceSoundsForTheRestOfItsCurve : Obligations.VoiceSoundsForTheRestOfItsCurve := by
  intro s t xs j h
  obtain ⟨b, hb, rfl⟩ := execProcess_next.1 h
  obtain ⟨buf, hrouter, hvoices⟩ := processBlock_ok.1 hb
  have hlen : (masterGain s.masterAmplitude buf).length = xs.length := by
    rw [masterGain_length, routerBlock_length hrouter]
  exact ⟨vmBlock_free hvoices, fun v hj hv => hlen ▸ vmBlock_voice hvoices hj hv⟩

/-! ### The pool without occupied voices -/

theorem mixVoices_idle {c : Config} {m : Memory} {mo : F32} {vs : List (Option Voice)} (h : ∀ v ∈ vs, v = none)
    (b : F32) :
    mixVoices c m mo vs b = .ok (vs, b) := by
  induction vs with
  | nil => rfl
  | cons w vs ih =>
    obtain rfl := h w List.mem_cons_self
    exact mixVoices_none_ok.2 ⟨vs, ih fun v hv => h v (List.mem_cons_of_mem _ hv), rfl⟩

theorem vmodStep_total {c : Config} {m : Memory} {p : F32} (hw : m.wf c = true) (hN : c.N ≤ 16777216)
    (hp : inRange c.N p = true) (hi : inRange c.N c.vmModFreq = true) :
    ∃ p' t, vmodStep c m p = .ok (p', fmul c.vmModAmp t) ∧ t ∈ m.table .sine ∧ inRange c.N p' = true := by
  obtain ⟨i, hidx, -, t, hread, ht⟩ := lookup_inRange (m := m) (sp := .sine) hN hp ((Memory.wf_iff c m).1 hw .sine)
  exact ⟨_, t, vmodStep_ok.2 ⟨i, t, hidx, hread, rfl, rfl⟩, ht, advancePhase_inRange hN hp hi⟩

/-- Without an occupied voice a block of the Voice Manager leaves its samples alone and moves the modulator. -/
theorem vmBlock_idle {c : Config} {m : Memory} {vs : List (Option Voice)} (hw : m.wf c = true) (hN : c.N ≤ 16777216)
    (hi : inRange c.N c.vmModFreq = true) (hvs : ∀ v ∈ vs, v = none) (xs : List F32) (p : F32)
    (hp : inRange c.N p = true) :
    ∃ p', vmBlock c m ⟨p, vs⟩ xs = .ok (⟨p', vs⟩, xs) ∧ inRange c.N p' = true ∧ (xs = [] → p' = p) := by
  induction xs generalizing p with
  | nil => exact ⟨p, rfl, hp, fun _ => rfl⟩
  | cons x xs ih =>
    obtain ⟨q, t, hmod, -, hq⟩ := vmodStep_total hw hN hp hi
    obtain ⟨p', hrest, hp', -⟩ := ih q hq
    exact ⟨p', runBlock_cons_ok.2 ⟨_, x, xs, vmSample_ok.2 ⟨q, _, vs, hmod, mixVoices_idle hvs x, rfl⟩, hrest, rfl⟩,
      hp', nofun⟩

end Sys2Proof.Machine
end

section
/-! PROOFS. The Algorithm Router and `PROCESS` (44_router.md R230 to R243, 60_exceptions.md R279,
70_reset_and_hazards.md R306). -/

namespace Sys2Proof.Machine

/-! ### What a block is made of -/

/-- Settles O50: the table by its definition, a slot's part by the three cases of `slotBlock_ok`. -/
theorem algorithmTableAndInactiveSlots : Obligations.AlgorithmTableAndInactiveSlots :=
  ⟨fun _ => ⟨rfl, rfl, rfl, rfl⟩, fun _ _ _ _ _ _ => ⟨slotBlock_inactive, fun o _ ho hosc =>
    ⟨fun he => slotBlock_ok.2 (.inr (.inl ⟨ho, he, o, hosc, rfl⟩)),
      fun e _ he henv => slotBlock_ok.2 (.inr (.inr ⟨ho, he, o, e, _, hosc, henv, rfl⟩))⟩⟩⟩

/-- Settles O51: `execProcess_next`, `processBlock_ok` and `routerBlock_ok` put together. -/
theorem processRunsSlotsThenGainThenVoices : Obligations.ProcessRunsSlotsThenGainThenVoices := by
  intro s t xs
  constructor
  · intro h
    obtain ⟨b, hb, rfl⟩ := execProcess_next.1 h
    obtain ⟨buf, hrouter, hvoices⟩ := processBlock_ok.1 hb
    obtain ⟨b1, b2, b3, h1, h2, h3, h4⟩ := routerBlock_ok.1 hrouter
    exact ⟨_, _, _, _, b1, b2, b3, buf, b.output, b.vm, h1, h2, h3, h4, hvoices, rfl⟩
  · rintro ⟨r1, r2, r3, r4, b1, b2, b3, b4, ys, vm, h1, h2, h3, h4, hvoices, rfl⟩
    exact execProcess_next.2 ⟨⟨⟨r1, r2, r3, r4⟩, vm, ys⟩,
      processBlock_ok.2 ⟨b4, routerBlock_ok.2 ⟨b1, b2, b3, h1, h2, h3, h4⟩, hvoices⟩, rfl⟩

theorem vmBlock_pool_length {c : Config} {m : Memory} {st st' : VmRegs} {xs ys : List F32}
    (h : vmBlock c m st xs = .ok (st', ys)) : st'.voices.length = st.voices.length := by
  refine runBlock_invariant (P := fun u => u.voices.length = st.voices.length) ?_ rfl h
  intro u x u1 y hu hs
  obtain ⟨p, mo, vs, -, hmix, rfl⟩ := vmSample_ok.1 hs
  exact (mixVoices_length hmix).trans hu

/-- Settles O53: the committed block writes no other part of the state, and a slot's part by `slotBlock_frame`. -/
theorem processFrame : Obligations.ProcessFrame := by
  intro s t xs h
  have hslot : ∀ k, _ := fun k => execProcess_slot h k
  obtain ⟨b, hb, rfl⟩ := execProcess_next.1 h
  obtain ⟨buf, -, hvoices⟩ := processBlock_ok.1 hb
  refine ⟨rfl, rfl, rfl, rfl, rfl, vmBlock_pool_length hvoices, fun _ _ => rfl, fun k => ?_⟩
  obtain ⟨mode, us, vs, hk⟩ := hslot k
  obtain ⟨-, -, -, -, hoff, henv⟩ := slotBlock_frame hk
  exact ⟨slotBlock_writes hk, hoff, henv⟩

/-! ### An idle block (R238, R242) -/

theorem routerBlock_idle {c : Config} {m : Memory} {modes : Slots OscMode} {slots : Slots SlotRegs} (xs : List F32)
    (h : ∀ k, (slots.get k).oscActive = false) : routerBlock c m modes slots xs = .ok (slots, xs) :=
  routerBlock_ok.2 ⟨xs, xs, xs, slotBlock_inactive (h .s1), slotBlock_inactive (h .s2), slotBlock_inactive (h .s3),
    slotBlock_inactive (h .s4)⟩

/-- Settles O54: the router leaves the samples to the master gain, and the Voice Manager leaves them after it. -/
theorem idleBlockScalesItsInput : Obligations.IdleBlockScalesItsInput := by
  intro s xs hs hslots hvoices hphase hinc
  obtain ⟨⟨-, hN⟩, -⟩ := Config.valid_sizes hs.config
  obtain ⟨p, hvm, hp, hnil⟩ := vmBlock_idle hs.memory (hN.trans (by decide)) hinc hvoices
    (masterGain s.masterAmplitude xs) s.vmodPhase hphase
  refine ⟨p, hp, fun hxs => hnil (by rw [hxs]; rfl), execProcess_next.2 ⟨⟨s.slots, ⟨p, s.voices⟩, _⟩,
    processBlock_ok.2 ⟨xs, routerBlock_idle xs hslots, hvm⟩, rfl⟩⟩

/-! ### The faults of a block, in order (60_exceptions.md R279) -/

/-- The slots before an active one that faults are inactive: the block ends in that slot's fault. -/
theorem routerBlock_fault_at {c : Config} {m : Memory} {modes : Slots OscMode} {slots : Slots SlotRegs} {xs : List F32}
    {f : Fault} {k : Slot} (hbefore : ∀ j : Slot, j.number < k.number → (slots.get j).oscActive = false)
    (h : slotBlock c m k (modes.get k) (slots.get k) xs = .error f) : routerBlock c m modes slots xs = .error f := by
  have hidle : ∀ j : Slot, j.number < k.number →
      ∀ mode, slotBlock c m j mode (slots.get j) xs = .ok (slots.get j, xs) :=
    fun j hj mode => slotBlock_inactive (hbefore j hj)
  rw [routerBlock_error]
  cases k with
  | s1 => exact .inl h
  | s2 => exact .inr ⟨_, _, hidle .s1 (by decide) _, .inl h⟩
  | s3 => exact .inr ⟨_, _, hidle .s1 (by decide) _, .inr ⟨_, _, hidle .s2 (by decide) _, .inl h⟩⟩
  | s4 =>
    exact .inr ⟨_, _, hidle .s1 (by decide) _, .inr ⟨_, _, hidle .s2 (by decide) _,
      .inr ⟨_, _, hidle .s3 (by decide) _, h⟩⟩⟩

theorem slotBlock_osc_fault {c : Config} {m : Memory} {k : Slot} {mode : OscMode} {r : SlotRegs} {x : F32}
    {xs : List F32} {f : Fault} (hw : m.wf c = true) (hN : c.N ≤ 16777216) (ha : r.oscActive = true)
    (h : BadPhase c.N r.osc.phase f) :
    slotBlock c m k mode r (x :: xs) = .error f :=
  slotBlock_first_fault ha (oscStep_fault hw hN h)

theorem vmBlock_modulator_fault {c : Config} {m : Memory} {st : VmRegs} {b : F32} {bs : List F32} {f : Fault}
    (hw : m.wf c = true) (hN : c.N ≤ 16777216) (h : BadPhase c.N st.phase f) : vmBlock c m st (b :: bs) = .error f :=
  runBlock_first_fault (bind_eq_error.2 (.inl (vmodStep_fault hw hN h)))

theorem vmBlock_voice_fault {c : Config} {m : Memory} {st : VmRegs} {b : F32} {bs : List F32} {f : Fault} {j : Nat}
    {v : Voice} (hw : m.wf c = true) (hN : c.N ≤ 16777216) (hp : inRange c.N st.phase = true)
    (hj : st.voices[j]? = some (some v)) (hbefore : ∀ i : Nat, i < j → st.voices[i]? = some none)
    (h : BadPhase c.N v.phase f) : vmBlock c m st (b :: bs) = .error f := by
  obtain ⟨i, hidx, -, t, ht, -⟩ := lookup_inRange (m := m) (sp := .sine) hN hp ((Memory.wf_iff c m).1 hw .sine)
  have hmod : vmodStep c m st.phase = .ok (advancePhase c.N st.phase c.vmModFreq, fmul c.vmModAmp t) :=
    vmodStep_ok.2 ⟨i, t, hidx, ht, rfl, rfl⟩
  refine runBlock_first_fault (bind_eq_error.2 (.inr ⟨_, hmod, bind_eq_error.2 (.inl ?_)⟩))
  exact mixVoices_first_fault hj hbefore (voiceStep_fault hw hN h)

/-- The fault of a block is that of its first part that faults. -/
theorem execProcess_fault_iff {s : State} {xs : List F32} {f : Fault} :
    let part := fun (k : Slot) (buf : List F32) =>
      slotBlock s.cfg s.mem k ((modesOf s.cfg s.currentAlgorithm).get k) (s.slots.get k) buf
    execProcess xs s = .fault f ↔
      part .s1 xs = .error f ∨ ∃ r1 b1, part .s1 xs = .ok (r1, b1) ∧
      (part .s2 b1 = .error f ∨ ∃ r2 b2, part .s2 b1 = .ok (r2, b2) ∧
      (part .s3 b2 = .error f ∨ ∃ r3 b3, part .s3 b2 = .ok (r3, b3) ∧
      (part .s4 b3 = .error f ∨ ∃ r4 b4, part .s4 b3 = .ok (r4, b4) ∧
      vmBlock s.cfg s.mem ⟨s.vmodPhase, s.voices⟩ (masterGain s.masterAmplitude b4) = .error f))) := by
  intro part
  rw [execProcess_fault, routerBlock_error]
  constructor
  · rintro ((h | ⟨r1, b1, h1, h | ⟨r2, b2, h2, h | ⟨r3, b3, h3, h⟩⟩⟩) | ⟨slots, buf, hrouter, hvoices⟩)
    · exact .inl h
    · exact .inr ⟨r1, b1, h1, .inl h⟩
    · exact .inr ⟨r1, b1, h1, .inr ⟨r2, b2, h2, .inl h⟩⟩
    · exact .inr ⟨r1, b1, h1, .inr ⟨r2, b2, h2, .inr ⟨r3, b3, h3, .inl h⟩⟩⟩
    · obtain ⟨b1, b2, b3, h1, h2, h3, h4⟩ := routerBlock_ok.1 hrouter
      exact .inr ⟨_, b1, h1, .inr ⟨_, b2, h2, .inr ⟨_, b3, h3, .inr ⟨_, buf, h4, hvoices⟩⟩⟩⟩
  · rintro (h | ⟨r1, b1, h1, h | ⟨r2, b2, h2, h | ⟨r3, b3, h3, h | ⟨r4, b4, h4, hvoices⟩⟩⟩⟩)
    · exact .inl (.inl h)
    · exact .inl (.inr ⟨r1, b1, h1, .inl h⟩)
    · exact .inl (.inr ⟨r1, b1, h1, .inr ⟨r2, b2, h2, .inl h⟩⟩)
    · exact .inl (.inr ⟨r1, b1, h1, .inr ⟨r2, b2, h2, .inr ⟨r3, b3, h3, h⟩⟩⟩)
    · exact .inr ⟨⟨r1, r2, r3, r4⟩, b4, routerBlock_ok.2 ⟨b1, b2, b3, h1, h2, h3, h4⟩, hvoices⟩

/-- Settles O57: each part's fault at its bad phase, and the order of the parts by `execProcess_fault_iff`. -/
theorem processFaultsAtABadPhase : Obligations.ProcessFaultsAtABadPhase := by
  refine ⟨fun s k x xs hw hN hbefore ha => ?first, fun s xs f => execProcess_fault_iff,
    fun c m k mode r x xs hw hN hM ha => ?slot, fun c m p voices b bs hw hN => ?voices⟩
  case first =>
    have hfault : ∀ {f}, BadPhase s.cfg.N (s.slots.get k).osc.phase f → exec (.process (x :: xs)) s = .fault f :=
      fun h => execProcess_fault.2 (.inl (routerBlock_fault_at hbefore (slotBlock_osc_fault hw (by omega) ha h)))
    exact ⟨fun hf => hfault (.undefined hf), fun hf hr => hfault (.outside hf hr)⟩
  case slot =>
    have hosc {f} (h : BadPhase c.N r.osc.phase f) : slotBlock c m k mode r (x :: xs) = .error f :=
      slotBlock_osc_fault hw (by omega) ha h
    refine ⟨fun hf => hosc (.undefined hf), fun hf hr => hosc (.outside hf hr), fun o buf ho he hs => ?_⟩
    have henv {f} (h : BadPhase c.M r.env.phaseIndex f) : slotBlock c m k mode r (x :: xs) = .error f :=
      slotBlock_env_fault ha he ho (envValue_fault hw hM hs h)
    exact ⟨fun hf => henv (.undefined hf), fun hf hr => henv (.outside hf hr)⟩
  case voices =>
    have hN' : c.N ≤ 16777216 := by omega
    refine ⟨fun hf => vmBlock_modulator_fault hw hN' (.undefined hf),
      fun hf hr => vmBlock_modulator_fault hw hN' (.outside hf hr), fun j v hp hj hbefore =>
      ⟨fun hf => vmBlock_voice_fault hw hN' hp hj hbefore (.undefined hf),
        fun hf hr => vmBlock_voice_fault hw hN' hp hj hbefore (.outside hf hr)⟩⟩

/-! ### Blocks split in two (70_reset_and_hazards.md R306) -/

theorem masterGain_append (a : F32) (xs ys : List F32) : masterGain a (xs ++ ys) = masterGain a xs ++ masterGain a ys :=
  List.map_append

/-- The second part of a split block starts from what the first one commits. -/
theorem processBlock_append {s : State} {xs ys : List F32} {b : BlockResult} :
    processBlock s (xs ++ ys) = .ok b ↔
      ∃ b1 b2, processBlock s xs = .ok b1 ∧ processBlock (s.commitBlock b1) ys = .ok b2 ∧
        b = { b2 with output := b1.output ++ b2.output } := by
  constructor
  · intro h
    obtain ⟨buf, hrouter, hvoices⟩ := processBlock_ok.1 h
    obtain ⟨slots1, us, vs, hr1, hr2, rfl⟩ := routerBlock_append.1 hrouter
    rw [masterGain_append] at hvoices
    obtain ⟨vm1, zs, zs', hv1, hv2, hout⟩ := runBlock_append_ok.1 hvoices
    refine ⟨⟨slots1, vm1, zs⟩, ⟨b.slots, b.vm, zs'⟩, processBlock_ok.2 ⟨us, hr1, hv1⟩,
      processBlock_ok.2 ⟨vs, hr2, hv2⟩, ?_⟩
    rw [← hout]
  · rintro ⟨b1, b2, h1, h2, rfl⟩
    obtain ⟨us, hr1, hv1⟩ := processBlock_ok.1 h1
    obtain ⟨vs, hr2, hv2⟩ := processBlock_ok.1 h2
    refine processBlock_ok.2 ⟨us ++ vs, routerBlock_append.2 ⟨_, us, vs, hr1, hr2, rfl⟩, ?_⟩
    rw [masterGain_append]
    exact runBlock_append_ok.2 ⟨_, _, _, hv1, hv2, rfl⟩

/-- Two blocks committed one after the other are the joined block committed, but for the pointer. -/
theorem commitBlock_commitBlock (s : State) (b1 b2 : BlockResult) (n p q : Nat) :
    (s.commitBlock { b2 with output := b1.output ++ b2.output }).advance n =
      { (((s.commitBlock b1).advance p).commitBlock b2).advance q with cp := s.cp + n } := by
  simp only [State.commitBlock, State.advance, List.append_assoc]

/-- Settles O58: slots and voices both run an appended block in two parts, and the commits join. -/
theorem blockSplittingChangesNothing : Obligations.BlockSplittingChangesNothing := by
  intro s t xs ys
  constructor
  · intro h
    obtain ⟨b, hb, rfl⟩ := execProcess_next.1 h
    obtain ⟨b1, b2, h1, h2, rfl⟩ := processBlock_append.1 hb
    exact ⟨_, _, execProcess_next.2 ⟨b1, h1, rfl⟩, execProcess_next.2 ⟨b2, h2, rfl⟩, commitBlock_commitBlock ..⟩
  · rintro ⟨s1, t1, h1, h2, rfl⟩
    obtain ⟨b1, hb1, rfl⟩ := execProcess_next.1 h1
    obtain ⟨b2, hb2, rfl⟩ := execProcess_next.1 h2
    exact execProcess_next.2 ⟨_, processBlock_append.2 ⟨b1, b2, hb1, hb2, rfl⟩, (commitBlock_commitBlock ..).symm⟩

/-! ### Block-wise and sample-wise (44_router.md R239) -/

theorem runBlock_singleton_ok {σ : Type} {f : σ → F32 → Except Fault (σ × F32)} {st st' : σ} {x : F32} {ys : List F32} :
    runBlock f st [x] = .ok (st', ys) ↔ ∃ y, f st x = .ok (st', y) ∧ ys = [y] := by
  rw [runBlock_cons_ok]
  constructor
  · rintro ⟨st1, y, zs, h, hnil, rfl⟩
    cases hnil
    exact ⟨y, h, rfl⟩
  · rintro ⟨y, h, rfl⟩
    exact ⟨st', y, [], h, rfl, rfl⟩

theorem slotBlock_nil (c : Config) (m : Memory) (k : Slot) (mode : OscMode) (r : SlotRegs) :
    slotBlock c m k mode r [] = .ok (r, []) := by
  unfold slotBlock
  split_ifs <;> rfl

/-- A slot's block of one sample is its sample. -/
theorem slotBlock_singleton_ok {c : Config} {m : Memory} {k : Slot} {mode : OscMode} {r r' : SlotRegs} {x : F32}
    {ys : List F32} :
    slotBlock c m k mode r [x] = .ok (r', ys) ↔ ∃ y, slotSample c m k mode r x = .ok (r', y) ∧ ys = [y] := by
  unfold slotSample
  cases ho : r.oscActive with
  | false =>
    rw [slotBlock_inactive ho]
    simp only [Bool.false_eq_true, if_false, Except.ok.injEq, Prod.mk.injEq]
    exact ⟨fun ⟨hr, hy⟩ => ⟨x, ⟨hr, rfl⟩, hy.symm⟩, fun ⟨y, ⟨hr, hx⟩, hy⟩ => ⟨hr, by rw [hx, hy]⟩⟩
  | true =>
    unfold slotBlock oscBlock envBlock
    cases he : r.envActive with
    | false =>
      simp only [ho, if_true, if_false, Bool.false_eq_true, bind_eq_ok, Prod.exists, runBlock_singleton_ok,
        Except.ok.injEq, Prod.mk.injEq]
      constructor
      · rintro ⟨o, _, ⟨y, hosc, rfl⟩, hr, hys⟩
        exact ⟨y, ⟨o, y, hosc, hr, rfl⟩, hys.symm⟩
      · rintro ⟨_, ⟨o, y, hosc, hr, rfl⟩, rfl⟩
        exact ⟨o, [y], ⟨y, hosc, rfl⟩, hr, rfl⟩
    | true =>
      simp only [ho, if_true, bind_eq_ok, Prod.exists, runBlock_singleton_ok, Except.ok.injEq, Prod.mk.injEq]
      constructor
      · rintro ⟨o, _, ⟨y, hosc, rfl⟩, e, _, hblock, hr, hys⟩
        obtain ⟨z, henv, rfl⟩ := runBlock_singleton_ok.1 hblock
        exact ⟨z, ⟨o, y, hosc, e, z, henv, hr, rfl⟩, hys.symm⟩
      · rintro ⟨_, ⟨o, y, hosc, e, z, henv, hr, rfl⟩, rfl⟩
        exact ⟨o, [y], ⟨y, hosc, rfl⟩, e, [z], runBlock_singleton_ok.2 ⟨z, henv, rfl⟩, hr, rfl⟩

/-- Settles O59, by induction on the samples: a block is its first sample and the rest, block-wise (R306) as
sample-wise. -/
theorem blockwiseEqualsSamplewise : Obligations.BlockwiseEqualsSamplewise := by
  intro c m k mode r r' xs ys
  induction xs generalizing r ys with
  | nil => rw [slotBlock_nil, runBlock_nil]
  | cons x xs ih =>
    rw [← List.singleton_append, slotBlock_append, List.singleton_append, runBlock_cons_ok]
    constructor
    · rintro ⟨r1, us, vs, hfirst, hrest, rfl⟩
      obtain ⟨y, hy, rfl⟩ := slotBlock_singleton_ok.1 hfirst
      exact ⟨r1, y, vs, hy, (ih r1 vs).1 hrest, rfl⟩
    · rintro ⟨r1, y, zs, hy, hrest, rfl⟩
      exact ⟨r1, [y], zs, slotBlock_singleton_ok.2 ⟨y, hy, rfl⟩, (ih r1 zs).2 hrest, rfl⟩

end Sys2Proof.Machine
end

section
/-! PROOFS. Blocks that complete (70_reset_and_hazards.md R296 to R299). -/

namespace Sys2Proof.Machine

/-! ### Oscillators and envelopes -/

section
variable {Q : F32 → Prop} {c : Config} {m : Memory} {k : Slot}

/-- An oscillator's block completes where every sample that `Q` admits gives an increment in range and again a
sample that `Q` admits. -/
theorem oscBlock_total {mode : OscMode} {o : Osc} (hw : m.wf c = true) (hN : c.N ≤ 16777216)
    (hp : inRange c.N o.phase = true) (hinc : ∀ x, Q x → inRange c.N (oscInc mode o x) = true)
    (hout : ∀ t ∈ m.table (.wt k), ∀ x, Q x → Q (fmul o.amplitude (oscSample mode t x))) (xs : List F32)
    (hx : ∀ x ∈ xs, Q x) :
    ∃ o' ys, oscBlock c m k mode o xs = .ok (o', ys) ∧ inRange c.N o'.phase = true ∧ ∀ y ∈ ys, Q y := by
  have hrun := runBlock_total_samples (f := oscStep c m k mode) (Q := Q)
    (P := fun u => inRange c.N u.phase = true ∧ u.frequency = o.frequency ∧ u.amplitude = o.amplitude) ?_ xs
    ⟨hp, rfl, rfl⟩ hx
  · obtain ⟨o', ys, hrun, ⟨hp', -⟩, hys⟩ := hrun
    exact ⟨o', ys, hrun, hp', hys⟩
  · rintro u x ⟨hu, hfreq, hamp⟩ hQ
    obtain ⟨u', y, hstep, hu', hframe, t, ht, hy⟩ :=
      oscStep_total (k := k) hw hN hu (oscInc_congr hfreq.symm x ▸ hinc x hQ)
    refine ⟨u', y, hstep, ⟨hu', ?_, ?_⟩, ?_⟩
    · rw [hframe]; exact hfreq
    · rw [hframe]; exact hamp
    · rw [hy, hamp]; exact hout t ht x hQ

/-- An envelope's block completes where its gain, at every phase index in range, takes a sample that `Q` admits to
another. -/
theorem envBlock_total_samples {e : Env} (hM : c.M ≤ 16777216) (hp : inRange c.M e.phaseIndex = true)
    (hst : ∀ stage, inRange c.M (stepOf c e stage) = true)
    (hgain : ∀ p stage, inRange c.M p = true → ∃ v, envValue c m k { e with phaseIndex := p, stage := stage } = .ok v ∧
      ∀ x, Q x → Q (fmul x v)) (xs : List F32) (hx : ∀ x ∈ xs, Q x) :
    ∃ e' ys, envBlock c m k e xs = .ok (e', ys) ∧ inRange c.M e'.phaseIndex = true ∧
      (∀ stage, inRange c.M (stepOf c e' stage) = true) ∧ ∀ y ∈ ys, Q y := by
  have hrun := runBlock_total_samples (f := envApply c m k) (Q := Q)
    (P := fun u => inRange c.M u.phaseIndex = true ∧ (∀ stage, inRange c.M (stepOf c u stage) = true) ∧
      u = { e with phaseIndex := u.phaseIndex, stage := u.stage }) ?_ xs ⟨hp, hst, rfl⟩ hx
  · obtain ⟨e', ys, hrun, ⟨hp', hst', -⟩, hys⟩ := hrun
    exact ⟨e', ys, hrun, hp', hst', hys⟩
  · rintro u x ⟨hu, hsteps, hframe⟩ hQ
    obtain ⟨v, hv, hout⟩ := hgain u.phaseIndex u.stage hu
    rw [← hframe] at hv
    refine ⟨envAdvance c u, fmul x v, envApply_ok.2 ⟨v, hv, rfl, rfl⟩, ⟨envAdvance_inRange hM hu (hsteps _),
      fun stage => ?_, ?_⟩, hout x hQ⟩
    · rw [stepOf_envAdvance]; exact hsteps stage
    · rw [envAdvance_frame, hframe]

/-! ### Slots and the router -/

/-- What a slot needs so that its part of a block completes on the samples that `Q` admits, and yields such ones. -/
structure SlotRuns (Q : F32 → Prop) (c : Config) (m : Memory) (k : Slot) (mode : OscMode) (r : SlotRegs) : Prop where
  phase : r.oscActive = true → inRange c.N r.osc.phase = true
  increment : r.oscActive = true → ∀ x, Q x → inRange c.N (oscInc mode r.osc x) = true
  sample : r.oscActive = true → ∀ t ∈ m.table (.wt k), ∀ x, Q x → Q (fmul r.osc.amplitude (oscSample mode t x))
  phaseIndex : r.oscActive = true → r.envActive = true → inRange c.M r.env.phaseIndex = true
  steps : r.oscActive = true → r.envActive = true → ∀ stage, inRange c.M (stepOf c r.env stage) = true
  gain : r.oscActive = true → r.envActive = true → ∀ p stage, inRange c.M p = true →
    ∃ v, envValue c m k { r.env with phaseIndex := p, stage := stage } = .ok v ∧ ∀ x, Q x → Q (fmul x v)

/-- The part of a slot completes, and its phase and its phase index are in range again. -/
theorem slotBlock_total {mode : OscMode} {r : SlotRegs} (hw : m.wf c = true) (hN : c.N ≤ 16777216)
    (hM : c.M ≤ 16777216) (hr : SlotRuns Q c m k mode r) (xs : List F32) (hx : ∀ x ∈ xs, Q x) :
    ∃ r' ys, slotBlock c m k mode r xs = .ok (r', ys) ∧ (∀ y ∈ ys, Q y) ∧
      (r.oscActive = true → inRange c.N r'.osc.phase = true) ∧
      (r.oscActive = true → r.envActive = true → inRange c.M r'.env.phaseIndex = true ∧
        ∀ stage, inRange c.M (stepOf c r'.env stage) = true) := by
  cases ho : r.oscActive with
  | false => exact ⟨r, xs, slotBlock_inactive ho, hx, nofun, nofun⟩
  | true =>
    obtain ⟨o, us, hosc, hp, hus⟩ := oscBlock_total hw hN (hr.phase ho) (hr.increment ho) (hr.sample ho) xs hx
    cases he : r.envActive with
    | false => exact ⟨_, us, slotBlock_ok.2 (.inr (.inl ⟨ho, he, o, hosc, rfl⟩)), hus, fun _ => hp, nofun⟩
    | true =>
      obtain ⟨e, ys, henv, hpi, hst, hys⟩ :=
        envBlock_total_samples hM (hr.phaseIndex ho he) (hr.steps ho he) (hr.gain ho he) us hus
      exact ⟨_, ys, slotBlock_ok.2 (.inr (.inr ⟨ho, he, o, e, us, hosc, henv, rfl⟩)), hys, fun _ => hp,
        fun _ _ => ⟨hpi, hst⟩⟩

/-- The router's block completes where each slot's part does. -/
theorem routerBlock_total {Ready : Slot → SlotRegs → Prop} {modes : Slots OscMode} {slots : Slots SlotRegs}
    (hslot : ∀ k xs, (∀ x ∈ xs, Q x) → ∃ r ys, slotBlock c m k (modes.get k) (slots.get k) xs = .ok (r, ys) ∧
      (∀ y ∈ ys, Q y) ∧ Ready k r) (xs : List F32) (hx : ∀ x ∈ xs, Q x) :
    ∃ slots' ys, routerBlock c m modes slots xs = .ok (slots', ys) ∧ (∀ y ∈ ys, Q y) ∧
      ∀ k, Ready k (slots'.get k) := by
  obtain ⟨r1, b1, h1, hb1, hr1⟩ := hslot .s1 xs hx
  obtain ⟨r2, b2, h2, hb2, hr2⟩ := hslot .s2 b1 hb1
  obtain ⟨r3, b3, h3, hb3, hr3⟩ := hslot .s3 b2 hb2
  obtain ⟨r4, b4, h4, hb4, hr4⟩ := hslot .s4 b3 hb3
  refine ⟨⟨r1, r2, r3, r4⟩, b4, routerBlock_ok.2 ⟨b1, b2, b3, h1, h2, h3, h4⟩, hb4, fun k => ?_⟩
  cases k with
  | s1 => exact hr1
  | s2 => exact hr2
  | s3 => exact hr3
  | s4 => exact hr4

end

/-! ### Voices -/

/-- A voice that is ready steps; still occupied, it is ready again (43_voice_manager.md R206, R207). -/
theorem voiceStep_total {c : Config} {m : Memory} {t : F32} {v : Voice} (hw : m.wf c = true) (hN : c.N ≤ 16777216)
    (ht : t ∈ c.sinTab) (hv : VoiceReady c v) :
    ∃ v' y, voiceStep c m (fmul c.vmModAmp t) v = .ok (v', y) ∧ ∀ w, v' = some w → VoiceReady c w := by
  obtain ⟨i, hidx, -, a, ha, -⟩ :=
    lookup_inRange (m := m) (sp := .sine) hN hv.phase ((Memory.wf_iff c m).1 hw .sine)
  have hlen : (m.table .vmcurve).length = c.C := (Memory.wf_iff c m).1 hw .vmcurve
  have hg := Memory.read_of_lt m .vmcurve (hlen.symm ▸ hv.envIdx)
  refine ⟨_, _, voiceStep_ok.2 ⟨i, a, _, hidx, ha, hg, rfl, rfl⟩, fun w hrec => ?_⟩
  obtain ⟨hlt, rfl⟩ := recycle_eq_some hrec
  exact ⟨advancePhase_inRange hN hv.phase (hv.increment t ht), hlt, hv.increment⟩

theorem mixVoices_total {c : Config} {m : Memory} {t : F32} (hw : m.wf c = true) (hN : c.N ≤ 16777216)
    (ht : t ∈ c.sinTab) {vs : List (Option Voice)} (hvs : ∀ v, some v ∈ vs → VoiceReady c v) (b : F32) :
    ∃ vs' b', mixVoices c m (fmul c.vmModAmp t) vs b = .ok (vs', b') := by
  induction vs generalizing b with
  | nil => exact ⟨[], b, rfl⟩
  | cons w vs ih =>
    have htail := ih fun v hv => hvs v (List.mem_cons_of_mem _ hv)
    cases w with
    | none =>
      obtain ⟨ws, b', hrest⟩ := htail b
      exact ⟨_, _, mixVoices_none_ok.2 ⟨ws, hrest, rfl⟩⟩
    | some v =>
      obtain ⟨v', y, hstep, -⟩ := voiceStep_total hw hN ht (hvs v List.mem_cons_self)
      obtain ⟨ws, b', hrest⟩ := htail (fadd b y)
      exact ⟨_, _, mixVoices_some_ok.2 ⟨v', y, ws, hstep, hrest, rfl⟩⟩

theorem mixVoices_keeps_ready {c : Config} {m : Memory} {t b b' : F32} {vs vs' : List (Option Voice)}
    (hw : m.wf c = true) (hN : c.N ≤ 16777216) (ht : t ∈ c.sinTab) (hvs : ∀ v, some v ∈ vs → VoiceReady c v)
    (h : mixVoices c m (fmul c.vmModAmp t) vs b = .ok (vs', b')) : ∀ w, some w ∈ vs' → VoiceReady c w := by
  intro w hw'
  obtain ⟨v, y, hv, hstep⟩ := exists_of_mem_mixVoices h hw'
  obtain ⟨v', y', hstep', hready⟩ := voiceStep_total hw hN ht (hvs v hv)
  rw [hstep] at hstep'
  cases hstep'
  exact hready w rfl

/-- The duties of the modulator and the voices (70_reset_and_hazards.md R299), for a block's running registers. -/
def VmRegs.Ready (c : Config) (st : VmRegs) : Prop :=
  inRange c.N st.phase = true ∧ ∀ v, some v ∈ st.voices → VoiceReady c v

theorem vmBlock_total {c : Config} {m : Memory} {st : VmRegs} (hw : m.wf c = true) (hN : c.N ≤ 16777216)
    (hsine : m.table .sine = c.sinTab) (hi : inRange c.N c.vmModFreq = true) (hst : st.Ready c) (xs : List F32) :
    ∃ st' ys, vmBlock c m st xs = .ok (st', ys) ∧ st'.Ready c := by
  refine runBlock_total (P := VmRegs.Ready c) ?_ xs hst
  rintro u x ⟨hp, hvs⟩
  obtain ⟨p, t, hmod, ht, hp'⟩ := vmodStep_total hw hN hp hi
  rw [hsine] at ht
  obtain ⟨vs, y, hmix⟩ := mixVoices_total hw hN ht hvs x
  exact ⟨_, y, vmSample_ok.2 ⟨p, _, vs, hmod, hmix, rfl⟩, hp', mixVoices_keeps_ready hw hN ht hvs hmix⟩

/-! ### Blocks -/

/-- A block completes where each slot's part does on the samples that `Q` admits, and the modulator and the voices are
ready; it ends legal, with these ready again. -/
theorem execProcess_total {Q : F32 → Prop} {Ready : Slot → SlotRegs → Prop} {s : State} {xs : List F32} (hs : s.Legal)
    (hvm : s.VmReady)
    (hslot : ∀ k xs, (∀ x ∈ xs, Q x) → ∃ r ys,
      slotBlock s.cfg s.mem k ((modesOf s.cfg s.currentAlgorithm).get k) (s.slots.get k) xs = .ok (r, ys) ∧
        (∀ y ∈ ys, Q y) ∧ Ready k r) (hx : ∀ x ∈ xs, Q x) :
    ∃ b buf, (∀ y ∈ buf, Q y) ∧ (∀ k, Ready k (b.slots.get k)) ∧
      vmBlock s.cfg s.mem ⟨s.vmodPhase, s.voices⟩ (masterGain s.masterAmplitude buf) = .ok (b.vm, b.output) ∧
      exec (.process xs) s = .next ((s.commitBlock b).advance (1 + xs.length)) ∧ b.output.length = xs.length ∧
      ((s.commitBlock b).advance (1 + xs.length)).Legal ∧ ((s.commitBlock b).advance (1 + xs.length)).VmReady := by
  obtain ⟨⟨-, hN⟩, -⟩ := Config.valid_sizes hs.config
  obtain ⟨slots, buf, hrouter, hbuf, hready⟩ := routerBlock_total hslot xs hx
  obtain ⟨vm, ys, hvoices, hp, hvs⟩ := vmBlock_total hs.memory (hN.trans (by decide)) hs.sine hvm.increment
    (st := ⟨s.vmodPhase, s.voices⟩) ⟨hvm.phase, hvm.voices⟩ (masterGain s.masterAmplitude buf)
  have hblock : processBlock s xs = .ok ⟨slots, vm, ys⟩ := processBlock_ok.2 ⟨buf, hrouter, hvoices⟩
  have hexec : exec (.process xs) s = .next ((s.commitBlock ⟨slots, vm, ys⟩).advance (1 + xs.length)) :=
    execProcess_next.2 ⟨_, hblock, rfl⟩
  exact ⟨⟨slots, vm, ys⟩, buf, hbuf, hready, hvoices, hexec, processBlock_length hblock, exec_keeps_legal hs hexec,
    ⟨hp, hvm.increment, hvs⟩⟩

/-- In the modes that no input enters, a ready slot runs on all samples. -/
theorem SlotReady.runs {c : Config} {m : Memory} {k : Slot} {mode : OscMode} {r : SlotRegs} (hw : m.wf c = true)
    (hM : c.M ≤ 16777216) (hr : SlotReady c mode r) : SlotRuns (fun _ => True) c m k mode r where
  phase := hr.phase
  increment ho _ _ := oscInc_freeRunning (hr.mode ho) ▸ hr.increment ho
  sample _ _ _ _ _ := trivial
  phaseIndex := hr.phaseIndex
  steps := hr.steps
  gain _ _ p stage hp := by
    obtain ⟨v, hv⟩ := envValue_total (k := k) (e := { r.env with phaseIndex := p, stage := stage }) hw hM hp
    exact ⟨v, hv, fun _ _ => trivial⟩

theorem SlotReady.slotBlock {c : Config} {m : Memory} {k : Slot} {mode : OscMode} {r : SlotRegs} (hw : m.wf c = true)
    (hN : c.N ≤ 16777216) (hM : c.M ≤ 16777216) (hr : SlotReady c mode r) (xs : List F32) :
    ∃ r' ys, slotBlock c m k mode r xs = .ok (r', ys) ∧ SlotReady c mode r' := by
  obtain ⟨r', ys, hrun, -, hp, henv⟩ := slotBlock_total hw hN hM (hr.runs (k := k) hw hM) xs fun _ _ => trivial
  obtain ⟨ho, he, hosc, -, -, -⟩ := slotBlock_frame hrun
  refine ⟨r', ys, hrun, ?_⟩
  constructor <;> rw [ho]
  · exact hr.mode
  · exact hp
  · rw [hosc]; exact hr.increment
  · rw [he]; exact fun h1 h2 => (henv h1 h2).1
  · rw [he]; exact fun h1 h2 => (henv h1 h2).2

/-- Settles O55: each slot's part completes on all samples and leaves the slot ready, and so do the voices. -/
theorem readyBlockCompletes : Obligations.ReadyBlockCompletes := by
  intro s xs hs hready
  obtain ⟨⟨-, hN⟩, ⟨-, hM⟩, -⟩ := Config.valid_sizes hs.config
  obtain ⟨b, buf, -, hslots, -, hexec, hlen, hlegal, hvm⟩ :=
    execProcess_total (Q := fun _ => True) (xs := xs)
      (Ready := fun k r => SlotReady s.cfg ((modesOf s.cfg s.currentAlgorithm).get k) r) hs hready.vm
      (fun k xs _ => by
        obtain ⟨r, ys, hrun, hr⟩ := (hready.slots k).slotBlock (k := k) hs.memory (hN.trans (by decide)) hM xs
        exact ⟨r, ys, hrun, fun _ _ => trivial, hr⟩) (fun _ _ => trivial)
  refine ⟨_, hexec, hlegal, ⟨hslots, hvm⟩, ?_⟩
  rw [← hlen]
  exact List.length_append

/-! ### Blocks in `[-1, 1]` -/

/-- Every mode's sample stays in `[-1, 1]` (41_oscillator.md R132 to R136). -/
theorem oscSample_signedUnit {mode : OscMode} {t x : F32} (ht : signedUnit t = true) (hx : signedUnit x = true) :
    signedUnit (oscSample mode t x) = true := by
  cases mode with
  | sumWithInput => exact half_sum_signedUnit ht hx
  | modulatorNoInput | modulatorWithInput | carrierNoInput | carrierWithInput => exact ht

/-- The increment in every mode, for an input in `[-1, 1]`: the frequency, or a product below twice of it. -/
theorem oscInc_inRange {c : Config} {mode : OscMode} {o : Osc} {x : F32} (hN : c.N ≤ 16777216)
    (hx : signedUnit x = true) (hf : inRange c.N o.frequency = true)
    (h2 : mode.freeRunning = false → inRange c.N (fmul F32.two o.frequency) = true) :
    inRange c.N (oscInc mode o x) = true := by
  cases hmode : mode.freeRunning with
  | true => rw [oscInc_freeRunning hmode]; exact hf
  | false =>
    have hinc := input_increment_inRange hN hx hf (h2 hmode)
    cases mode with
    | modulatorWithInput | carrierWithInput => exact hinc
    | modulatorNoInput | carrierNoInput | sumWithInput => exact hf

/-- In every mode, a slot that is ready for `[-1, 1]` runs on the samples in `[-1, 1]` and yields such ones. -/
theorem SlotUnitReady.runs {c : Config} {m : Memory} {k : Slot} {mode : OscMode} {r : SlotRegs} {mf : F32}
    (hN : c.N ≤ 16777216) (hM : 1 ≤ c.M ∧ c.M ≤ 2 ^ 24) (hc : curvesMatch c m k r.env) (hl : r.legal mf = true)
    (hr : SlotUnitReady c m k mode r) : SlotRuns (signedUnit · = true) c m k mode r := by
  obtain ⟨hamp, -, -, -, -, -, -, hqa, hqd, hqr, -⟩ := SlotRegs.legal_iff.1 hl
  exact {
    phase := hr.phase
    increment := fun ho x hx => oscInc_inRange hN hx (hr.increment ho) (hr.inputIncrement ho)
    sample := fun ho t ht x hx =>
      fmul_signedUnit (signedUnit_of_inUnit hamp) (oscSample_signedUnit (hr.table ho t ht) hx)
    phaseIndex := hr.phaseIndex
    steps := hr.steps
    gain := fun ho he p stage hp => by
      obtain ⟨fa, fd, fr⟩ := hr.curves ho he
      obtain ⟨v, hv, hunit⟩ := envelopeGainStaysInTheUnitRange c m k { r.env with phaseIndex := p, stage := stage } hM.1
        hM.2 hc hqa hqd hqr fa fd fr (hr.volume ho he) hp
      exact ⟨v, hv, fun x hx => fmul_signedUnit hx (signedUnit_of_inUnit hunit)⟩ }

theorem SlotUnitReady.slotBlock {c : Config} {m : Memory} {k : Slot} {mode : OscMode} {r : SlotRegs} {mf : F32}
    (hw : m.wf c = true) (hN : c.N ≤ 16777216) (hM : 1 ≤ c.M ∧ c.M ≤ 2 ^ 24) (hc : curvesMatch c m k r.env)
    (hl : r.legal mf = true) (hr : SlotUnitReady c m k mode r) (xs : List F32) (hx : ∀ x ∈ xs, signedUnit x = true) :
    ∃ r' ys, slotBlock c m k mode r xs = .ok (r', ys) ∧ (∀ y ∈ ys, signedUnit y = true) ∧
      SlotUnitReady c m k mode r' := by
  obtain ⟨r', ys, hrun, hys, hp, henv⟩ := slotBlock_total hw hN hM.2 (hr.runs hN hM hc hl) xs hx
  obtain ⟨ho, he, hosc, hframe, -, -⟩ := slotBlock_frame hrun
  refine ⟨r', ys, hrun, hys, ?_⟩
  constructor <;> rw [ho]
  · exact hp
  · rw [hosc]; exact hr.increment
  · rw [hosc]; exact hr.inputIncrement
  · exact hr.table
  · rw [he]; exact fun h1 h2 => (henv h1 h2).1
  · rw [he]; exact fun h1 h2 => (henv h1 h2).2
  · rw [he, hframe]; exact hr.volume
  · rw [he, hframe]; exact hr.curves

theorem masterGain_signedUnit {a : F32} {buf : List F32} (ha : inUnit a = true)
    (hbuf : ∀ x ∈ buf, signedUnit x = true) : ∀ y ∈ masterGain a buf, signedUnit y = true := by
  intro y hy
  obtain ⟨x, hx, rfl⟩ := List.mem_map.1 hy
  exact fmul_signedUnit (hbuf x hx) (signedUnit_of_inUnit ha)

/-- Settles O56: each slot's part completes on samples in `[-1, 1]` and yields such ones; without voices the output is
the buffer after the master gain. -/
theorem unitBlockCompletesUnderEveryAlgorithm : Obligations.UnitBlockCompletesUnderEveryAlgorithm := by
  intro s xs hs hready hx
  obtain ⟨⟨-, hN⟩, hM, -⟩ := Config.valid_sizes hs.config
  have hN' : s.cfg.N ≤ 16777216 := hN.trans (by decide)
  obtain ⟨b, buf, hbuf, hslots, hvoices, hexec, hlen, hlegal, hvm⟩ :=
    execProcess_total (Q := (signedUnit · = true)) (xs := xs)
      (Ready := fun k r => SlotUnitReady s.cfg s.mem k ((modesOf s.cfg s.currentAlgorithm).get k) r) hs hready.vm
      (fun k xs hxs => (hready.slots k).slotBlock hs.memory hN' hM (hs.curves k) (hs.slots k) xs hxs) hx
  refine ⟨_, b.output, hexec, hlegal, ⟨hslots, hvm⟩, rfl, hlen, fun hidle => ?_⟩
  obtain ⟨p, hquiet, -⟩ := vmBlock_idle hs.memory hN' hvm.increment hidle (masterGain s.masterAmplitude buf) s.vmodPhase
    hready.vm.phase
  have hout : b.output = masterGain s.masterAmplitude buf :=
    congrArg Prod.snd (Except.ok.inj (hvoices.symm.trans hquiet))
  exact hout ▸ masterGain_signedUnit hs.masterAmplitude hbuf

end Sys2Proof.Machine
end

section
/-! PROOFS. Rounding to nearest, ties to even, and the four operations (00_scope.md R6). -/

namespace Sys2Proof.Machine

/-! ### The rounded magnitude lies between the midpoints to its neighbours -/

/-- The rounded quotient is at most one half away, and even where it is exactly that. -/
theorem roundHalfEven_bounds {num den : Nat} (hd : 0 < den) :
    let q := roundHalfEven num den
    2 * (q * den) ≤ 2 * num + den ∧ 2 * num ≤ 2 * (q * den) + den ∧
      (2 * (q * den) = 2 * num + den ∨ 2 * num = 2 * (q * den) + den → q % 2 = 0) := by
  have hdm := Nat.div_add_mod num den
  have hr := Nat.mod_lt num hd
  rw [Nat.mul_comm] at hdm
  unfold roundHalfEven
  dsimp only
  split_ifs with hlow hhigh
  · refine ⟨by omega, by omega, by omega⟩
  · rw [Nat.add_mul, Nat.one_mul]
    refine ⟨by omega, by omega, by omega⟩
  · rcases Nat.mod_two_eq_zero_or_one (num / den) with h | h <;> rw [h, Nat.add_mul]
    · refine ⟨by omega, by omega, fun _ => h⟩
    · refine ⟨by omega, by omega, by omega⟩

/-- A finite rounded magnitude is its significand `q` on its scale `k`, and `q` is the rounded quotient. -/
theorem roundUnits_significand {num den : Nat} (hd : 0 < den) (h : roundUnits num den < infMag) :
    ∃ k q, roundUnits num den = k * 8388608 + q ∧ q = roundHalfEven num (den * 2 ^ k) ∧ q ≤ 16777216 ∧
      (1 ≤ k → 8388608 ≤ q ∧ 8388608 * (den * 2 ^ k) ≤ num) := by
  obtain ⟨hhi, hlo⟩ := round_scale (num := num) hd
  unfold roundUnits at h ⊢
  generalize Nat.log2 (num / den) - 23 = k at *
  have hD : 0 < den * 2 ^ k := Nat.mul_pos hd (Nat.two_pow_pos k)
  have hmin : min (k * 8388608 + roundHalfEven num (den * 2 ^ k)) infMag =
      k * 8388608 + roundHalfEven num (den * 2 ^ k) := by
    rcases Nat.le_total (k * 8388608 + roundHalfEven num (den * 2 ^ k)) infMag with hle | hle
    · exact Nat.min_eq_left hle
    · exact absurd h (Nat.not_lt.2 (Nat.le_min.2 ⟨hle, Nat.le_refl _⟩))
  refine ⟨k, _, hmin, rfl, roundHalfEven_le hD ?_, fun hk => ?_⟩
  · calc num ≤ 16777216 * 2 ^ k * den := Nat.le_of_lt hhi
      _ = 16777216 * (den * 2 ^ k) := by ring
  · have hnum : 8388608 * (den * 2 ^ k) ≤ num := by
      calc 8388608 * (den * 2 ^ k) = 8388608 * 2 ^ k * den := by ring
        _ ≤ num := hlo hk
    exact ⟨le_roundHalfEven hD hnum, hnum⟩

/-- The exact value of a significand of at most 24 bits on its scale, where only scale 0 has small ones. -/
theorem unitsOfMag_significand {k q : Nat} (h2 : q ≤ 16777216) (h1 : 1 ≤ k → 8388608 ≤ q) :
    unitsOfMag (k * 8388608 + q) = q * 2 ^ k := by
  rcases Nat.eq_zero_or_pos k with rfl | hk
  · rw [Nat.zero_mul, Nat.zero_add, Nat.pow_zero, Nat.mul_one, unitsOfMag_small h2]
  · exact unitsOfMag_scaled (h1 hk) h2

/-- The next magnitude is at least one significand step above. -/
theorem le_unitsOfMag_succ {k q : Nat} (h2 : q ≤ 16777216) (h1 : 1 ≤ k → 8388608 ≤ q) :
    (q + 1) * 2 ^ k ≤ unitsOfMag (k * 8388608 + q + 1) := by
  rcases Nat.lt_or_eq_of_le h2 with hlt | rfl
  · rw [Nat.add_assoc, unitsOfMag_significand hlt fun hk => (h1 hk).trans (Nat.le_succ q)]
  · have hnext : k * 8388608 + 16777216 + 1 = (k + 1) * 8388608 + 8388609 := by ring
    rw [hnext, unitsOfMag_scaled (by decide) (by decide)]
    calc (16777216 + 1) * 2 ^ k ≤ 16777218 * 2 ^ k := Nat.mul_le_mul_right _ (by decide)
      _ = 8388609 * 2 ^ (k + 1) := by ring

/-- The value is not above the midpoint to the next magnitude, and on it only if the rounded magnitude is even. -/
theorem roundUnits_upper {num den m : Nat} (hd : 0 < den) (hm : roundUnits num den = m) (hfin : m < infMag) :
    2 * num ≤ unitsOfMag m * den + unitsOfMag (m + 1) * den ∧
      (2 * num = unitsOfMag m * den + unitsOfMag (m + 1) * den → m % 2 = 0) := by
  obtain ⟨k, q, hkq, hq, hle, hbig⟩ := roundUnits_significand hd (hm.symm ▸ hfin)
  obtain rfl : m = k * 8388608 + q := hm.symm.trans hkq
  have hsmall : 1 ≤ k → 8388608 ≤ q := fun hk => (hbig hk).1
  obtain ⟨-, hup, htie⟩ := roundHalfEven_bounds (num := num) (Nat.mul_pos hd (Nat.two_pow_pos k))
  rw [← hq] at hup htie
  have hval : unitsOfMag (k * 8388608 + q) * den = q * (den * 2 ^ k) := by
    rw [unitsOfMag_significand hle hsmall]; ring
  have hnext : q * (den * 2 ^ k) + den * 2 ^ k ≤ unitsOfMag (k * 8388608 + q + 1) * den := by
    calc q * (den * 2 ^ k) + den * 2 ^ k = (q + 1) * 2 ^ k * den := by ring
      _ ≤ _ := Nat.mul_le_mul_right _ (le_unitsOfMag_succ hle hsmall)
  rw [hval]
  refine ⟨by omega, fun heq => ?_⟩
  have := htie (.inr (by omega))
  omega

/-- The value is not below the midpoint to the previous magnitude, and on it only if the rounded magnitude is even. -/
theorem roundUnits_lower {num den m : Nat} (hd : 0 < den) (hm : roundUnits num den = m + 1) (hfin : m + 1 < infMag) :
    unitsOfMag m * den + unitsOfMag (m + 1) * den ≤ 2 * num ∧
      (unitsOfMag m * den + unitsOfMag (m + 1) * den = 2 * num → (m + 1) % 2 = 0) := by
  obtain ⟨k, q, hkq, hq, hle, hbig⟩ := roundUnits_significand hd (hm.symm ▸ hfin)
  rw [hm] at hkq
  obtain ⟨hlow, -, htie⟩ := roundHalfEven_bounds (num := num) (Nat.mul_pos hd (Nat.two_pow_pos k))
  rw [← hq] at hlow htie
  have hval : unitsOfMag (m + 1) * den = q * (den * 2 ^ k) := by
    rw [hkq, unitsOfMag_significand hle fun hk => (hbig hk).1]; ring
  have hlt : unitsOfMag m * den < unitsOfMag (m + 1) * den := Nat.mul_lt_mul_of_pos_right (unitsOfMag_lt_succ m) hd
  by_cases hbinade : 1 ≤ k ∧ q = 8388608
  · -- the smallest significand of its scale: the value is not below it at all
    obtain ⟨hk, rfl⟩ := hbinade
    have hnum := (hbig hk).2
    exact ⟨by omega, by omega⟩
  · obtain ⟨p, rfl⟩ : ∃ p, q = p + 1 := ⟨q - 1, by omega⟩
    have hprev : unitsOfMag m * den = p * (den * 2 ^ k) := by
      rw [show m = k * 8388608 + p by omega, unitsOfMag_significand (by omega) fun hk => by have := hbig hk; omega]
      ring
    have hstep : (p + 1) * (den * 2 ^ k) = p * (den * 2 ^ k) + den * 2 ^ k := by ring
    rw [hval, hprev]
    refine ⟨by omega, fun heq => ?_⟩
    have := htie (.inl (by omega))
    omega

/-! ### Nearest of all finite values -/

theorem units_nonneg_eq {v : F32} (h : 0 ≤ units v) : units v = unitsOfMag (magBits v) := by
  rw [← units_natAbs, Int.natAbs_of_nonneg h]

/-- Of all values, none is nearer to a non-negative exact value than the rounded magnitude; an equally near other one
means that it is even. -/
theorem rounded_nearest {num den m : Nat} (hd : 0 < den) (hm : roundUnits num den = m) (hfin : m < infMag) (v : F32) :
    ((unitsOfMag m : Int) * den - num).natAbs ≤ (units v * den - num).natAbs ∧
      (((unitsOfMag m : Int) * den - num).natAbs = (units v * den - num).natAbs → units v ≠ unitsOfMag m →
        m % 2 = 0) := by
  have hd' : (0 : Int) < den := by exact_mod_cast hd
  rcases lt_trichotomy (units v) (unitsOfMag m) with hlt | heq | hgt
  · have hxb : units v * den < unitsOfMag m * den := Int.mul_lt_mul_of_pos_right hlt hd'
    cases m with
    | zero =>
      rw [unitsOfMag_zero] at hxb ⊢
      omega
    | succ m =>
      have hxa : units v ≤ unitsOfMag m := by
        rcases Int.lt_or_le (units v) 0 with hneg | hnonneg
        · omega
        · rw [units_nonneg_eq hnonneg] at hlt ⊢
          exact_mod_cast unitsOfMag_le_iff.2 (Nat.le_of_lt_succ (unitsOfMag_lt_iff.1 (by exact_mod_cast hlt)))
      have hxa' : units v * den ≤ unitsOfMag m * den := Int.mul_le_mul_of_nonneg_right hxa (Int.le_of_lt hd')
      obtain ⟨hmid, htie⟩ := roundUnits_lower hd hm hfin
      zify at hmid htie
      exact ⟨by omega, fun h _ => by have := htie (by omega); omega⟩
  · rw [heq]
    exact ⟨Nat.le_refl _, fun _ hne => absurd rfl hne⟩
  · have hxc : (unitsOfMag (m + 1) : Int) ≤ units v := by
      have hnonneg : 0 ≤ units v := by omega
      rw [units_nonneg_eq hnonneg] at hgt ⊢
      exact_mod_cast unitsOfMag_le_iff.2 (Nat.succ_le_of_lt (unitsOfMag_lt_iff.1 (by exact_mod_cast hgt)))
    have hxc' : (unitsOfMag (m + 1) : Int) * den ≤ units v * den :=
      Int.mul_le_mul_of_nonneg_right hxc (Int.le_of_lt hd')
    have hxb : (unitsOfMag m : Int) * den < units v * den := Int.mul_lt_mul_of_pos_right hgt hd'
    obtain ⟨hmid, htie⟩ := roundUnits_upper hd hm hfin
    zify at hmid htie
    exact ⟨by omega, fun h _ => by have := htie (by omega); omega⟩

theorem roundUnits_zero (den : Nat) : roundUnits 0 den = 0 := by
  simp [roundUnits, roundHalfEven]

/-- The exact values of finite patterns are below the overflow threshold. -/
theorem unitsOfMag_lt_overflow {m : Nat} (h : m < infMag) : unitsOfMag m < overflowUnits :=
  Nat.lt_of_le_of_lt (unitsOfMag_le_iff.2 (Nat.le_pred_of_lt h)) (by decide +kernel)

/-- A pattern with the rounded magnitude, and the sign of an exact value that is not zero, is that value rounded to
nearest, ties to even. -/
theorem nearestEven_of_rounded {num : Int} {den : Nat} {r : F32} (hd : 0 < den)
    (hmag : magBits r = roundUnits num.natAbs den) (hsign : num ≠ 0 → signBit r = decide (num < 0)) :
    NearestEven num den r := by
  have hfinite : isFinite r = true ↔ num.natAbs < overflowUnits * den := by
    rw [isFinite_iff, hmag, roundUnits_lt_infMag_iff hd]
  refine ⟨hfinite, fun hf v _ => ?nearest, fun hf => ?overflow⟩
  case nearest =>
    have hm : magBits r < infMag := (isFinite_iff r).1 hf
    rcases Int.lt_or_le num 0 with hneg | hnonneg
    · have hur : units r = -(unitsOfMag (magBits r) : Int) := by
        rw [units, hsign (by omega), if_pos (by simpa using hneg)]
      obtain ⟨hle, htie⟩ := rounded_nearest hd hmag.symm hm (fneg v)
      rw [units_fneg] at hle htie
      have hr : (unitsOfMag (magBits r) : Int) * den - num.natAbs = -(units r * den - num) := by
        rw [hur, show (num.natAbs : Int) = -num by omega]; ring
      have hv : -units v * den - num.natAbs = -(units v * den - num) := by
        rw [show (num.natAbs : Int) = -num by omega]; ring
      rw [hr, hv, Int.natAbs_neg, Int.natAbs_neg] at hle htie
      exact ⟨hle, fun heq hne => htie heq (by omega)⟩
    · have hur : units r = unitsOfMag (magBits r) := by
        refine units_of_sign fun hpos => ?_
        have hne : num ≠ 0 := by
          rintro rfl
          rw [hmag, Int.natAbs_zero, roundUnits_zero] at hpos
          exact absurd hpos (Nat.lt_irrefl 0)
        rw [hsign hne, decide_eq_false (Int.not_lt.2 hnonneg)]
      have hbounds := rounded_nearest hd hmag.symm hm v
      rw [← hur, show (num.natAbs : Int) = num by omega] at hbounds
      exact hbounds
  case overflow =>
    have hge : overflowUnits * den ≤ num.natAbs :=
      Nat.le_of_not_lt fun hlt => by rw [hfinite.2 hlt] at hf; cases hf
    have hpos : 0 < overflowUnits * den := Nat.mul_pos (by decide +kernel) hd
    refine ⟨?_, hsign (Int.natAbs_pos.1 (Nat.lt_of_lt_of_le hpos hge)), fun v hv => ?_⟩
    · have hnot : ¬ magBits r < infMag := fun h => by rw [(isFinite_iff r).2 h] at hf; cases hf
      exact decide_eq_true (Nat.le_antisymm (hmag ▸ roundUnits_le_infMag _ _) (Nat.le_of_not_lt hnot))
    · rw [Int.natAbs_mul, units_natAbs, Int.natAbs_natCast]
      exact Nat.lt_of_lt_of_le
        (Nat.mul_lt_mul_of_pos_right (unitsOfMag_lt_overflow ((isFinite_iff v).1 hv)) hd) hge

/-! ### The four operations on finite operands -/

theorem signBit_of_units {v : F32} (h : units v ≠ 0) : signBit v = decide (units v < 0) := by
  have hpos : 0 < unitsOfMag (magBits v) := by rw [← units_natAbs]; exact Int.natAbs_pos.2 h
  unfold units
  cases signBit v with
  | true => exact (decide_eq_true (by simpa using hpos)).symm
  | false => exact (decide_eq_false (by simp)).symm

/-- The sign of a product of two values that are not zero. -/
theorem decide_mul_neg {x y : Int} (hx : x ≠ 0) (hy : y ≠ 0) :
    decide (x * y < 0) = (decide (x < 0) != decide (y < 0)) := by
  rcases Int.lt_or_gt_of_ne hx with hx | hx <;> rcases Int.lt_or_gt_of_ne hy with hy | hy
  · simp [hx, hy, Int.not_lt.2 (Int.le_of_lt (Int.mul_pos_of_neg_of_neg hx hy))]
  · simp [hx, Int.not_lt.2 (Int.le_of_lt hy), Int.mul_neg_of_neg_of_pos hx hy]
  · simp [hy, Int.not_lt.2 (Int.le_of_lt hx), Int.mul_neg_of_pos_of_neg hx hy]
  · simp [Int.not_lt.2 (Int.le_of_lt hx), Int.not_lt.2 (Int.le_of_lt hy),
      Int.not_lt.2 (Int.le_of_lt (Int.mul_pos hx hy))]

theorem addNumbers_nearestEven {a b : F32} (ha : isFinite a = true) (hb : isFinite b = true) :
    NearestEven (units a + units b) 1 (addNumbers a b) := by
  rw [addNumbers_of_finite ha hb]
  split_ifs with hz
  · refine nearestEven_of_rounded Nat.one_pos ?_ fun hne => absurd hz hne
    rw [hz, Int.natAbs_zero, roundUnits_zero, magBits_ofSignMag _ (by decide)]
  · exact nearestEven_of_rounded Nat.one_pos (magBits_rounded ..) fun _ => signBit_rounded ..

theorem addNumbers_zero {a b : F32} (ha : isFinite a = true) (hb : isFinite b = true) (h : units a + units b = 0) :
    addNumbers a b = zeroOf (signBit a && signBit b) := by
  rw [addNumbers_of_finite ha hb, if_pos h, ofSignMag_zero]

theorem fmul_nearestEven {a b : F32} (ha : isFinite a = true) (hb : isFinite b = true) :
    NearestEven (units a * units b) unitsPerOne (fmul a b) := by
  rw [fmul_of_finite ha hb]
  refine nearestEven_of_rounded unitsPerOne_pos ?_ fun hne => ?_
  · rw [magBits_rounded, Int.natAbs_mul, units_natAbs, units_natAbs]
  · obtain ⟨hane, hbne⟩ := Int.mul_ne_zero_iff.1 hne
    rw [signBit_rounded, decide_mul_neg hane hbne, signBit_of_units hane, signBit_of_units hbne]

theorem fdiv_nearestEven {a b : F32} (ha : isFinite a = true) (hb : isFinite b = true) (h : units b ≠ 0) :
    NearestEven (units a * unitsPerOne * (units b).sign) (units b).natAbs (fdiv a b) := by
  rw [fdiv_of_finite ha hb (fun hz => h ((units_eq_zero_iff b).2 hz))]
  refine nearestEven_of_rounded (Int.natAbs_pos.2 h) ?_ fun hne => ?_
  · rw [magBits_rounded, Int.natAbs_mul, Int.natAbs_mul, units_natAbs, units_natAbs, Int.natAbs_natCast,
      Int.natAbs_sign_of_ne_zero h, Nat.mul_one]
  · obtain ⟨hprod, hsgn⟩ := Int.mul_ne_zero_iff.1 hne
    obtain ⟨hane, hone⟩ := Int.mul_ne_zero_iff.1 hprod
    have hpos : ¬ (unitsPerOne : Int) < 0 := by simp
    rw [signBit_rounded, decide_mul_neg hprod hsgn, decide_mul_neg hane hone, decide_eq_false hpos, Bool.bne_false,
      signBit_of_units hane, signBit_of_units h]
    simp only [Int.sign_neg_iff]

theorem fdiv_by_zero {a b : F32} (ha : isFinite a = true) (hb : units b = 0) :
    (units a ≠ 0 → fdiv a b = infinityOf (signBit a != signBit b)) ∧ (units a = 0 → isNaN (fdiv a b) = true) := by
  rw [Ne, units_eq_zero_iff]
  rw [units_eq_zero_iff] at hb
  have hbfin : isFinite b = true := isFinite_of_mag_le (Nat.le_of_eq hb) (by decide)
  constructor <;> intro h
  · simp [fdiv, not_isNaN_of_isFinite ha, not_isNaN_of_isFinite hbfin, not_isInf_of_isFinite ha, hb, h,
      ofSignMag_infMag]
  · simp [fdiv, hb, h, isNaN_nanResult]

/-! ### The four operations on infinities -/

section
variable {a b : F32}

theorem addNumbers_inf_left (ha : isInf a = true) : addNumbers a b = a := by rw [addNumbers, if_pos ha]

theorem addNumbers_inf_right (ha : isInf a = false) (hb : isInf b = true) : addNumbers a b = b := by
  rw [addNumbers, ha, if_neg Bool.false_ne_true, if_pos hb]

theorem add_sub_inf_left (ha : isInf a = true) (hb : isFinite b = true) : fadd a b = a ∧ fsub a b = a := by
  simp [fadd, fsub, not_isNaN_of_isInf ha, not_isNaN_of_isFinite hb, not_isInf_of_isFinite hb, addNumbers_inf_left ha]

theorem add_sub_inf_right (ha : isInf a = true) (hb : isFinite b = true) :
    fadd b a = a ∧ fsub b a = infinityOf (!signBit a) := by
  have hbi := not_isInf_of_isFinite hb
  have hneg : isInf (fneg a) = true := by rw [isInf_fneg]; exact ha
  rw [← fneg_of_isInf ha]
  simp [fadd, fsub, not_isNaN_of_isInf ha, not_isNaN_of_isFinite hb, hbi, addNumbers_inf_right hbi ha,
    addNumbers_inf_right hbi hneg]

theorem mul_inf_nonzero (ha : isInf a = true) (hb : isFinite b = true) (h : units b ≠ 0) :
    fmul a b = infinityOf (signBit a != signBit b) ∧ fmul b a = infinityOf (signBit a != signBit b) := by
  rw [Ne, units_eq_zero_iff] at h
  simp [fmul, ha, h, not_isNaN_of_isInf ha, not_isNaN_of_isFinite hb, not_isInf_of_isFinite hb, ofSignMag_infMag,
    Bool.xor_comm]

theorem mul_inf_zero (ha : isInf a = true) (h : units b = 0) :
    isNaN (fmul a b) = true ∧ isNaN (fmul b a) = true := by
  rw [units_eq_zero_iff] at h
  simp [fmul, ha, h, isNaN_nanResult]

theorem div_inf (ha : isInf a = true) (hb : isFinite b = true) :
    fdiv a b = infinityOf (signBit a != signBit b) ∧ fdiv b a = zeroOf (signBit a != signBit b) := by
  have hane := magBits_ne_zero_of_isInf ha
  simp [fdiv, ha, hane, not_isNaN_of_isInf ha, not_isNaN_of_isFinite hb, not_isInf_of_isFinite hb, ofSignMag_infMag,
    ofSignMag_zero, Bool.xor_comm]

theorem add_sub_inf_inf_same (ha : isInf a = true) (hb : isInf b = true) (h : signBit a = signBit b) :
    fadd a b = a ∧ isNaN (fsub a b) = true := by
  simp [fadd, fsub, ha, hb, h, not_isNaN_of_isInf ha, not_isNaN_of_isInf hb, addNumbers_inf_left ha, isNaN_nanResult]

theorem add_sub_inf_inf_opposite (ha : isInf a = true) (hb : isInf b = true) (h : signBit a ≠ signBit b) :
    isNaN (fadd a b) = true ∧ fsub a b = a := by
  simp [fadd, fsub, ha, hb, h, not_isNaN_of_isInf ha, not_isNaN_of_isInf hb, addNumbers_inf_left ha, isNaN_nanResult]

theorem mul_div_inf_inf (ha : isInf a = true) (hb : isInf b = true) :
    fmul a b = infinityOf (signBit a != signBit b) ∧ isNaN (fdiv a b) = true := by
  have hane := magBits_ne_zero_of_isInf ha
  have hbne := magBits_ne_zero_of_isInf hb
  simp [fmul, fdiv, ha, hb, hane, hbne, not_isNaN_of_isInf ha, not_isNaN_of_isInf hb, ofSignMag_infMag, isNaN_nanResult]

end

/-- Settles O20: on finite operands each operation has the rounded magnitude and the sign of the exact value, which
makes it nearest-even (`nearestEven_of_rounded`); infinities and NaNs by the branches of the operations. -/
theorem fourOperationsRoundToNearestEven : Obligations.FourOperationsRoundToNearestEven := by
  refine ⟨fun a b ha hb => ?finite, fun a b h => isNaN_of_operand h, fun a b ha hb => ?oneInf, fun a b ha hb => ?twoInf⟩
  case finite =>
    have hnb : isFinite (fneg b) = true := by rw [isFinite_fneg]; exact hb
    have hsub : units a - units b = units a + units (fneg b) := by rw [units_fneg, Int.sub_eq_add_neg]
    rw [fadd_of_finite ha hb, fsub_of_finite ha hb, hsub]
    exact ⟨addNumbers_nearestEven ha hb, addNumbers_nearestEven ha hnb, fmul_nearestEven ha hb, fdiv_nearestEven ha hb,
      addNumbers_zero ha hb, fun h => by rw [addNumbers_zero ha hnb h, signBit_fneg], signBit_fmul ha hb,
      fun h => by rw [fdiv_of_finite ha hb (fun hz => h ((units_eq_zero_iff b).2 hz)), signBit_rounded],
      fun h => (fdiv_by_zero ha h).1, fun h => (fdiv_by_zero ha h).2⟩
  case oneInf =>
    obtain ⟨hadd, hsub⟩ := add_sub_inf_left ha hb
    obtain ⟨hadd', hsub'⟩ := add_sub_inf_right ha hb
    exact ⟨hadd, hadd', hsub, hsub', mul_inf_nonzero ha hb, mul_inf_zero ha, div_inf ha hb⟩
  case twoInf => exact ⟨add_sub_inf_inf_same ha hb, add_sub_inf_inf_opposite ha hb, mul_div_inf_inf ha hb⟩

end Sys2Proof.Machine
end
